-- ==== Sys2Proof/Word.lean ====
section
/-!
DEFINITION. The value types of the block: bytes, bus words, coefficients, polynomial values,
register numbers and seeds (spec/00_scope.md R10, R11, R14; spec/10_state.md R23).
-/

namespace Sys2Proof

/-- One byte of BUF, of a seed or of a port's answer. -/
abbrev Byte := BitVec 8

/-- One 32-bit word of the host bus, and one command word (R11, R62, R90). -/
abbrev Word := BitVec 32

/-- A stored coefficient: a number in [0, 3329) (R10, R23; `Coef` of R21). -/
abbrev Coef := Fin 3329

/-- The contents of one polynomial register: 256 coefficients (R10, R23). -/
abbrev PolyVal := Vector Coef 256

/-- A polynomial register number, P0 to P7 (R23, R93). -/
abbrev PReg := Fin 8

/-- A 32-byte seed, RHO or SIG (R36, R37). -/
abbrev Seed32 := Vector Byte 32

/-- The 34-byte input of the XOF port (R44). -/
abbrev Seed34 := Vector Byte 34

end Sys2Proof
end

