-- ==== Sys2Proof/Config.lean ====
section
/-!
DEFINITION. What the platform fixes and the block takes as given: the two external primitives, as
parameters without a value (spec/00_scope.md R12, spec/92_eei_decisions.md D20, D21; log 4).
-/

namespace Sys2Proof

/-- `xof s k` is byte `k` of the XOF's output stream for the 34-byte input `s` (R12, R45).
An open parameter: no value of it can be proved (log 4). -/
opaque Config.xof : Seed34 → Nat → Byte

/-- `prf eta seed c` is the PRF's answer of 64·eta bytes (R12, R46).
An open parameter: no value of it can be proved (log 4). -/
opaque Config.prf : (eta : Nat) → Seed32 → Byte → Vector Byte (64 * eta)

/-- How many 3-byte chunks the engine turn that `State.withFetchWord` schedules allows the XOF port
(log 7; DESIGN CHOICE). No meaning of a command reads this number. -/
def Config.loaderChunks : Nat := 1024

end Sys2Proof
end

