-- ==== Sys2Proof/Syntax.lean ====
section
/-!
DEFINITION. The syntax of commands: one constructor for each row of spec/opcode_table.json
(spec/30_encoding.md R99, R103). Operands stand in the order destination, sources, immediates.
-/

namespace Sys2Proof

/-- A command of the block. Register fields are PD, PA and PB of R91; `d` and `eta` are the 4-bit
field W of R94; `b32` and `b33` are the index bytes of R97. -/
inductive Instr where
  | nop
  | ntt (pd pa : PReg)
  | intt (pd pa : PReg)
  | pmul (pd pa pb : PReg)
  | pmac (pd pa pb : PReg)
  | padd (pd pa pb : PReg)
  | psub (pd pa pb : PReg)
  | pcopy (pd pa : PReg)
  | pzero (pd : PReg)
  | compress (pd pa : PReg) (d : BitVec 4)
  | decompress (pd pa : PReg) (d : BitVec 4)
  | encode (pa : PReg) (d : BitVec 4)
  | decode (pd : PReg) (d : BitVec 4)
  | sampleNtt (pd : PReg) (b32 b33 : Byte)
  | sampleCbd (pd : PReg) (eta : BitVec 4)
  deriving DecidableEq, Repr

end Sys2Proof
end

