-- ==== Sys2Proof/Machine/State.lean ====
section
/-!
DEFINITION. The architectural state of the block as plain data (spec/10_state.md R21), the events that
move it (R20), the reasons a step can stop, and the state after reset (R48).
-/

namespace Sys2Proof.Machine

/-- The error codes of spec/60_exceptions.md R251, less NONE. -/
inductive ErrorCode where
  | illegalCmd
  | invalidParameter
  | rangeViolation
  | busyAccess
  | badAccess
  | aborted
  | counterExhausted
  deriving DecidableEq, Repr

/-- Something an agent does, one at a time (R20; spec/20_memory.md R75). Offsets are byte offsets from
NTTE_BASE (log 2); `bits` is the width of an access in bits. -/
inductive Event where
  /-- The host reads `bits` bits at `offset`. -/
  | read (bits offset : Nat)
  /-- The host writes `bits` bits at `offset`; `data` is wdata. -/
  | write (bits offset : Nat) (data : Word)
  /-- The engine takes a turn; `chunks` is how many 3-byte chunks of one stream the XOF port has
  delivered by then (log 5). -/
  | engine (chunks : Nat)
  /-- The platform asserts and releases NTTE_RST (spec/70_reset_and_hazards.md R290). -/
  | powerReset
  deriving DecidableEq, Repr

/-- Known leading bytes of the XOF stream of one seed (log 4). -/
structure XofEntry where
  seed : Seed34
  bytes : List Byte
  deriving DecidableEq, Repr

/-- Known leading bytes of the PRF's answer to one request (log 4). -/
structure PrfEntry where
  eta : Nat
  seed : Seed32
  counter : Byte
  bytes : List Byte
  deriving DecidableEq, Repr

/-- A byte array as a list of (index, byte) cells: indices strictly rising, no cell equal to what an
unlisted index reads as (log 9; the operations are in Machine/Ops.lean). -/
abbrev Memory := List Host.Cell

/-- The state of R21, field by field, and after it the model's own fields (INVENTORY.md, State). -/
structure State where
  /-- The polynomial registers P0 to P7 (R23). -/
  P : Vector PolyVal 8
  /-- BUF[0..383] (R38). -/
  buf : Memory
  /-- RHO[0..31] (R36). -/
  rho : Seed32
  /-- SIG[0..31] (R37). -/
  sig : Seed32
  /-- COUNTER.CTR (R33). -/
  counter : Byte
  /-- STATUS.CTR_EXH (R34). -/
  ctrExh : Bool
  /-- STATUS.BUSY (R29). -/
  busy : Bool
  /-- STATUS.DONE (R29). -/
  done : Bool
  /-- STATUS.ERR (R29). -/
  err : Bool
  /-- ERRCODE.CODE (R30). -/
  errcode : BitVec 4
  /-- IRQ_EN.DONE_IE (R31). -/
  ieDone : Bool
  /-- IRQ_EN.ERR_IE (R31). -/
  ieErr : Bool
  /-- LASTCMD (R32). -/
  lastCmd : Word
  /-- XOF_BYTES (R35). -/
  xofBytes : Word
  /-- PENDING (R41). -/
  pending : Option Instr
  /-- The model's own: the events still to come, oldest first (log 1). -/
  agenda : List Event
  /-- The model's own: what the last host read returned (log 3). -/
  rdata : Word
  /-- The model's own: chunks the XOF port delivers by the engine turn being taken (log 5). -/
  xofReady : Nat
  /-- The model's own: known leading bytes of the parameter xof (log 4). -/
  xofOracle : List XofEntry
  /-- The model's own: known leading bytes of the parameter prf (log 4). -/
  prfOracle : List PrfEntry
  deriving DecidableEq, Repr

/-- Why the machine stops. The block itself raises no trap (spec/60_exceptions.md R250). -/
inductive Fault where
  /-- A host access at an offset of 0x4000 or more, raised by `hostEvent` in Machine/Bus.lean: the block
  does not decode it, and what it reaches is the platform's (spec/20_memory.md R67; log 2). Safe. -/
  | outsideAperture
  deriving DecidableEq, Repr

/-- Why a command has no meaning. -/
inductive Refusal where
  /-- A command that `exec` rejects by its mnemonic; no arm of `exec` does so. Safe. -/
  | notModelled (mnemonic : String)
  deriving DecidableEq, Repr

/-- The state after power-on reset (R48; spec/70_reset_and_hazards.md R290). Every field of R21 has the
value R48 states; the model's own fields are empty or 0 (logs 1, 3, 4, 5). -/
def State.reset : State where
  P := Vector.replicate 8 (Vector.replicate 256 0)
  buf := []
  rho := Vector.replicate 32 0
  sig := Vector.replicate 32 0
  counter := 0
  ctrExh := false
  busy := false
  done := false
  err := false
  errcode := 0
  ieDone := false
  ieErr := false
  lastCmd := 0
  xofBytes := 0
  pending := none
  agenda := []
  rdata := 0
  xofReady := 0
  xofOracle := []
  prfOracle := []

end Sys2Proof.Machine
end

