-- ==== Sys2Proof/Machine/Ops.lean ====
section
/-!
DEFINITION. The operations every meaning is written over: mod-q arithmetic, polynomial values, the
byte array BUF, the polynomial register file, recording an error, and the four ways a command's
life goes on (acceptance, rejection, completion, abort) with reset beside them.
-/

namespace Sys2Proof.Machine

/-! ### Mod-q arithmetic (spec/00_scope.md R17, spec/40_modarith.md R125, R126) -/

/-- `n mod 3329` of an exact natural number. -/
def reduceNat (n : Nat) : Coef := Fin.ofNat 3329 n

/-- `z mod 3329` of an exact integer, in [0, 3329) also for a negative `z` (R14). -/
def reduceInt (z : Int) : Coef := reduceNat (z % 3329).toNat

/-- `addq(a,b) = (a + b) mod q` (R17). -/
def addq (a b : Coef) : Coef := reduceNat (a.val + b.val)

/-- `subq(a,b) = (a − b) mod q` (R17). -/
def subq (a b : Coef) : Coef := reduceInt ((a.val : Int) - (b.val : Int))

/-- `mulq(a,b) = (a · b) mod q` (R17). -/
def mulq (a b : Coef) : Coef := reduceNat (a.val * b.val)

/-! ### Fixed arrays -/

/-- The array whose element at index `i` is `f i`. -/
def tabulate {α : Type} (n : Nat) (f : Nat → α) : Vector α n :=
  ⟨⟨(List.range n).map f⟩, by simp⟩

/-- Byte `b` of a seed register (R15); 0 past its end. -/
def seedAt {n : Nat} (v : Vector Byte n) (b : Nat) : Byte := v.toList.getD b 0

/-- Coefficient `j` of a polynomial value (R15, `P[p][j]`); 0 past index 255. -/
def coefAt (f : PolyVal) (j : Nat) : Coef := f.toList.getD j 0

/-- The polynomial value with coefficient `j` replaced; unchanged past index 255. -/
def putCoef (f : PolyVal) (j : Nat) (c : Coef) : PolyVal := ⟨⟨f.toList.set j c⟩, by simp⟩

/-- The polynomial value with coefficients `f 0`, ..., `f 255`. -/
def mkPoly (f : Nat → Coef) : PolyVal := tabulate 256 f

/-- Every coefficient is below the bound: the domain check of spec/41_codec.md R157, R161. -/
def allBelow (f : PolyVal) (bound : Nat) : Bool := f.toList.all fun c => decide (c.val < bound)

/-! ### The byte array BUF (spec/10_state.md R38; log 9) -/

/-- What an unlisted byte of BUF reads as: 0x00, its contents after reset (R38, R48). -/
def unlistedByte : Byte := 0

/-- The byte at index `a` (`BUF[a]` of R15). -/
def readByte : Memory → Nat → Byte
  | [], _ => unlistedByte
  | (k, v) :: rest, a => if a = k then v else readByte rest a

/-- A cell put before a list, unless it says what an unlisted byte reads as anyway. -/
def consCell (a : Nat) (v : Byte) (m : Memory) : Memory :=
  if v = unlistedByte then m else (a, v) :: m

/-- The array with byte `a` replaced, in canonical form again. -/
def writeByte : Memory → Nat → Byte → Memory
  | [], a, v => consCell a v []
  | (k, w) :: rest, a, v =>
    if a < k then consCell a v ((k, w) :: rest)
    else if a = k then consCell a v rest
    else (k, w) :: writeByte rest a v

/-- The array with the bytes `bs` stored from index `base` on. -/
def writeBytes : Memory → Nat → List Byte → Memory
  | m, _, [] => m
  | m, base, b :: bs => writeBytes (writeByte m base b) (base + 1) bs

/-- The canonical form from index `lo` on: indices strictly rising and inside BUF's 384 bytes, no cell
equal to what an unlisted byte reads as. -/
def Memory.wfFrom : Nat → Memory → Bool
  | _, [] => true
  | lo, (k, v) :: rest =>
    decide (lo ≤ k) && decide (k < 384) && decide (v ≠ unlistedByte) && Memory.wfFrom (k + 1) rest

/-- The canonical form of BUF (log 9). -/
def Memory.wf (m : Memory) : Bool := Memory.wfFrom 0 m

/-! ### The polynomial register file (spec/10_state.md R23, R25, R26) -/

/-- `P[p]`. -/
def State.poly (s : State) (p : PReg) : PolyVal := s.P[p]

/-- `P[p] <- v`: the whole register is written. -/
def State.setPoly (s : State) (p : PReg) (v : PolyVal) : State := { s with P := s.P.set p.val v p.isLt }

/-- BUF replaced. -/
def State.setBuf (s : State) (m : Memory) : State := { s with buf := m }

/-! ### Errors (spec/60_exceptions.md R251, R252) -/

/-- The number of an error code (R251). -/
def ErrorCode.bits : ErrorCode → BitVec 4
  | .illegalCmd => 1
  | .invalidParameter => 2
  | .rangeViolation => 3
  | .busyAccess => 4
  | .badAccess => 5
  | .aborted => 6
  | .counterExhausted => 7

/-- `raise Error(code)`: the first error since ERR was last 0 is kept, and ERR is set (R252). This is the
block's whole exception entry: it has no trap, no saved state and no handler address (R250, R262). -/
def State.raise (s : State) (e : ErrorCode) : State :=
  { s with errcode := if s.err then s.errcode else e.bits, err := true }

/-! ### The life of a command (spec/60_exceptions.md R255 to R258) and reset -/

/-- Acceptance of word `w`, which decodes to `i` (R256). -/
def State.accept (s : State) (w : Word) (i : Instr) : State :=
  { s with pending := some i, lastCmd := w, busy := true, done := false }

/-- Rejection with error `e` of a command issued while idle (R255). -/
def State.reject (s : State) (e : ErrorCode) : State := { s.raise e with done := true }

/-- The part of completion that is the same for every command (R257). -/
def State.complete (s : State) : State := { s with pending := none, busy := false, done := true }

/-- Abort of the pending command (R258). -/
def State.abort (s : State) : State :=
  ({ s with pending := none, busy := false, done := true } : State).raise .aborted

/-- Every field of R21 at its reset value (R48); the model's own fields are not the block's and stay
(log 13). Power-on reset and soft reset perform this (spec/70_reset_and_hazards.md R290 to R292). -/
def State.resetBlock (s : State) : State :=
  { State.reset with
    agenda := s.agenda
    rdata := s.rdata
    xofReady := s.xofReady
    xofOracle := s.xofOracle
    prfOracle := s.prfOracle }

/-- What the completion step of a command commits: its register's new value, then the end of its life
(R16, R257). Every command that writes only `P[PD]` ends this way. -/
def State.commitPoly (s : State) (pd : PReg) (v : PolyVal) : State := (s.setPoly pd v).complete

end Sys2Proof.Machine
end

