-- ==== Sys2Proof/Machine/Flags.lean ====
section
/-!
DEFINITION. The flags of the block (spec/10_state.md R43): STATUS, ERRCODE and IRQ_EN as bus words, the
write-one-to-clear rule, and the interrupt level (R29, R30, R31, R42; spec/20_memory.md R69).
-/

namespace Sys2Proof.Machine

/-- STATUS as a read returns it: BUSY, DONE, ERR, CTR_EXH in bits 0 to 3, zeros above (R29, R69). -/
def State.statusWord (s : State) : Word :=
  0#28 ++ BitVec.ofBool s.ctrExh ++ BitVec.ofBool s.err ++ BitVec.ofBool s.done ++ BitVec.ofBool s.busy

/-- Bit 1 of a STATUS write clears DONE (R29). -/
def State.clearDone (s : State) : State := { s with done := false }

/-- Bit 2 of a STATUS write clears ERR, and CODE becomes 0 in the same access (R29, R30; R252). -/
def State.clearErr (s : State) : State := { s with err := false, errcode := 0 }

/-- A write of `w` to STATUS: W1C on DONE and ERR; BUSY, CTR_EXH and the reserved bits ignore it
(R29, R69). -/
def State.writeStatus (s : State) (w : Word) : State :=
  let s₁ := if w.getLsbD 1 then s.clearDone else s
  if w.getLsbD 2 then s₁.clearErr else s₁

/-- ERRCODE as a read returns it (R30). -/
def State.errcodeWord (s : State) : Word := s.errcode.setWidth 32

/-- IRQ_EN as a read returns it (R31, R69). -/
def State.irqEnWord (s : State) : Word := 0#30 ++ BitVec.ofBool s.ieErr ++ BitVec.ofBool s.ieDone

/-- A write of `w` to IRQ_EN (R31, R69). -/
def State.writeIrqEn (s : State) (w : Word) : State :=
  { s with ieDone := w.getLsbD 0, ieErr := w.getLsbD 1 }

/-- The interrupt output: a combinational level (R42, R261). -/
def State.irq (s : State) : Bool := (s.done && s.ieDone) || (s.err && s.ieErr)

/-- COUNTER as a read returns it (R33, R69). -/
def State.counterWord (s : State) : Word := s.counter.setWidth 32

/-- A host write of `w` to COUNTER stores bits [7:0] and clears CTR_EXH (R33). -/
def State.writeCounter (s : State) (w : Word) : State :=
  { s with counter := w.extractLsb' 0 8, ctrExh := false }

/-- What a completing SAMPLE_CBD does to the counter: 255 stays and sets CTR_EXH, any other value
advances by one (spec/42_sampler.md R188 to R190). -/
def State.advanceCounter (s : State) : State :=
  if s.counter = 255 then { s with ctrExh := true } else { s with counter := s.counter + 1 }

end Sys2Proof.Machine
end

