-- ==== Sys2Proof/WellFormed.lean ====
section
/-!
DEFINITION. Which commands exist: the ranges of d and eta (spec/30_encoding.md R94, R95, R96).
Every value of a register field and of an index byte is legal (R93, R97).
-/

namespace Sys2Proof

/-- d of COMPRESS and DECOMPRESS lies in [1, 11] (R95, decision D6). -/
def lossyWidthOk (d : BitVec 4) : Bool := decide (1 ≤ d.toNat ∧ d.toNat ≤ 11)

/-- d of ENCODE and DECODE lies in [1, 12] (R95). -/
def packWidthOk (d : BitVec 4) : Bool := decide (1 ≤ d.toNat ∧ d.toNat ≤ 12)

/-- eta is 2 or 3 (R96). -/
def etaOk (eta : BitVec 4) : Bool := decide (eta.toNat = 2 ∨ eta.toNat = 3)

/-- A command whose d or eta is in the range its rule gives (R95, R96). -/
def Instr.wellFormed : Instr → Bool
  | .nop => true
  | .ntt _ _ => true
  | .intt _ _ => true
  | .pmul _ _ _ => true
  | .pmac _ _ _ => true
  | .padd _ _ _ => true
  | .psub _ _ _ => true
  | .pcopy _ _ => true
  | .pzero _ => true
  | .compress _ _ d => lossyWidthOk d
  | .decompress _ _ d => lossyWidthOk d
  | .encode _ d => packWidthOk d
  | .decode _ d => packWidthOk d
  | .sampleNtt _ _ _ => true
  | .sampleCbd _ eta => etaOk eta

end Sys2Proof
end

