-- ==== Sys2Proof/Decode.lean ====
section
/-!
DEFINITION. Command words: the opcode table, the decoder (total on every word, refusing by name) and
the encoder (spec/30_encoding.md R91, R92, R99, R100, R101).
-/

namespace Sys2Proof

/-- The fifteen rows of the opcode table, by mnemonic (R99). -/
inductive Op where
  | nop | ntt | intt | pmul | pmac | padd | psub | pcopy | pzero
  | compress | decompress | encode | decode | sampleNtt | sampleCbd
  deriving DecidableEq, Repr

/-- Why the decoder refuses a word: the two error codes `decode` of R100 answers with. -/
inductive DecodeError where
  /-- No row of the table matches (R101): an unassigned OPC, or a must-be-zero bit that is 1. -/
  | illegalCmd
  /-- A row matches, and d or eta is out of its range (R95, R96). -/
  | invalidParameter
  deriving DecidableEq, Repr

/-- The column "match" of R99. -/
def Op.pattern : Op → Word
  | .nop => 0x00000000#32
  | .ntt => 0x00000001#32
  | .intt => 0x00000002#32
  | .pmul => 0x00000003#32
  | .pmac => 0x00000004#32
  | .padd => 0x00000005#32
  | .psub => 0x00000006#32
  | .pcopy => 0x00000007#32
  | .pzero => 0x00000008#32
  | .compress => 0x00000010#32
  | .decompress => 0x00000011#32
  | .encode => 0x00000012#32
  | .decode => 0x00000013#32
  | .sampleNtt => 0x00000020#32
  | .sampleCbd => 0x00000021#32

/-- The column "mask" of R99: OPC and every bit that must be 0. -/
def Op.mask : Op → Word
  | .nop => 0xFFFFFFFF#32
  | .ntt => 0xFFFFF03F#32
  | .intt => 0xFFFFF03F#32
  | .pmul => 0xFFFF803F#32
  | .pmac => 0xFFFF803F#32
  | .padd => 0xFFFF803F#32
  | .psub => 0xFFFF803F#32
  | .pcopy => 0xFFFFF03F#32
  | .pzero => 0xFFFFFE3F#32
  | .compress => 0xFFF8703F#32
  | .decompress => 0xFFF8703F#32
  | .encode => 0xFFF871FF#32
  | .decode => 0xFFF87E3F#32
  | .sampleNtt => 0x80007E3F#32
  | .sampleCbd => 0xFFF87E3F#32

/-- The rows in the table's order. -/
def opcodeTable : List Op :=
  [.nop, .ntt, .intt, .pmul, .pmac, .padd, .psub, .pcopy, .pzero,
   .compress, .decompress, .encode, .decode, .sampleNtt, .sampleCbd]

/-- A word selects a row when `(w AND mask) = match` (R99). -/
def Op.selects (o : Op) (w : Word) : Bool := w &&& o.mask == o.pattern

/-- The row a word selects, if any (R100; at most one row can match). -/
def selectRow (w : Word) : Option Op := opcodeTable.find? (·.selects w)

/-- PD, bits [8:6] (R91). -/
def fieldPD (w : Word) : PReg := (w.extractLsb' 6 3).toFin

/-- PA, bits [11:9] (R91). -/
def fieldPA (w : Word) : PReg := (w.extractLsb' 9 3).toFin

/-- PB, bits [14:12] (R91). -/
def fieldPB (w : Word) : PReg := (w.extractLsb' 12 3).toFin

/-- W, bits [18:15] (R94). -/
def fieldW (w : Word) : BitVec 4 := w.extractLsb' 15 4

/-- B32, bits [22:15] (R97). -/
def fieldB32 (w : Word) : Byte := w.extractLsb' 15 8

/-- B33, bits [30:23] (R97). -/
def fieldB33 (w : Word) : Byte := w.extractLsb' 23 8

/-- The operands of the selected row, taken from the fields its format places (R92). -/
def assemble (o : Op) (w : Word) : Instr :=
  match o with
  | .nop => .nop
  | .ntt => .ntt (fieldPD w) (fieldPA w)
  | .intt => .intt (fieldPD w) (fieldPA w)
  | .pmul => .pmul (fieldPD w) (fieldPA w) (fieldPB w)
  | .pmac => .pmac (fieldPD w) (fieldPA w) (fieldPB w)
  | .padd => .padd (fieldPD w) (fieldPA w) (fieldPB w)
  | .psub => .psub (fieldPD w) (fieldPA w) (fieldPB w)
  | .pcopy => .pcopy (fieldPD w) (fieldPA w)
  | .pzero => .pzero (fieldPD w)
  | .compress => .compress (fieldPD w) (fieldPA w) (fieldW w)
  | .decompress => .decompress (fieldPD w) (fieldPA w) (fieldW w)
  | .encode => .encode (fieldPA w) (fieldW w)
  | .decode => .decode (fieldPD w) (fieldW w)
  | .sampleNtt => .sampleNtt (fieldPD w) (fieldB32 w) (fieldB33 w)
  | .sampleCbd => .sampleCbd (fieldPD w) (fieldW w)

/-- The three range checks of R100, on the W field of the selected row. -/
def parameterOk (o : Op) (W : Nat) : Bool :=
  match o with
  | .compress => decide (1 ≤ W ∧ W ≤ 11)
  | .decompress => decide (1 ≤ W ∧ W ≤ 11)
  | .encode => decide (1 ≤ W ∧ W ≤ 12)
  | .decode => decide (1 ≤ W ∧ W ≤ 12)
  | .sampleCbd => decide (W = 2 ∨ W = 3)
  | .nop => true
  | .ntt => true
  | .intt => true
  | .pmul => true
  | .pmac => true
  | .padd => true
  | .psub => true
  | .pcopy => true
  | .pzero => true
  | .sampleNtt => true

/-- The decoding procedure of R100: total, ILLEGAL_CMD before INVALID_PARAMETER. -/
def decode (w : Word) : Except DecodeError Instr :=
  match selectRow w with
  | none => .error .illegalCmd
  | some o => if parameterOk o (fieldW w).toNat then .ok (assemble o w) else .error .invalidParameter

/-- A field value placed at bit `lo` of a word. -/
def placeAt (lo v : Nat) : Word := BitVec.ofNat 32 v <<< lo

/-- The register fields of R91: PD at bit 6, PA at bit 9, PB at bit 12. -/
def regFields (pd pa pb : PReg) : Word := placeAt 6 pd.val ||| placeAt 9 pa.val ||| placeAt 12 pb.val

/-- The command word of a command: its row's pattern with every operand in its field (R92). -/
def encode : Instr → Word
  | .nop => Op.pattern .nop
  | .ntt pd pa => Op.pattern .ntt ||| regFields pd pa 0
  | .intt pd pa => Op.pattern .intt ||| regFields pd pa 0
  | .pmul pd pa pb => Op.pattern .pmul ||| regFields pd pa pb
  | .pmac pd pa pb => Op.pattern .pmac ||| regFields pd pa pb
  | .padd pd pa pb => Op.pattern .padd ||| regFields pd pa pb
  | .psub pd pa pb => Op.pattern .psub ||| regFields pd pa pb
  | .pcopy pd pa => Op.pattern .pcopy ||| regFields pd pa 0
  | .pzero pd => Op.pattern .pzero ||| regFields pd 0 0
  | .compress pd pa d => Op.pattern .compress ||| regFields pd pa 0 ||| placeAt 15 d.toNat
  | .decompress pd pa d => Op.pattern .decompress ||| regFields pd pa 0 ||| placeAt 15 d.toNat
  | .encode pa d => Op.pattern .encode ||| regFields 0 pa 0 ||| placeAt 15 d.toNat
  | .decode pd d => Op.pattern .decode ||| regFields pd 0 0 ||| placeAt 15 d.toNat
  | .sampleNtt pd b32 b33 =>
    Op.pattern .sampleNtt ||| regFields pd 0 0 ||| placeAt 15 b32.toNat ||| placeAt 23 b33.toNat
  | .sampleCbd pd eta => Op.pattern .sampleCbd ||| regFields pd 0 0 ||| placeAt 15 eta.toNat

/-- The word made of the low `nbits` bits of `w`; a command is one 32-bit word, so bits above it do
not exist (R90). -/
def tableWord (nbits w : Nat) : Word := BitVec.ofNat 32 (w % 2 ^ nbits)

/-- What the decoder reads from a word numbered as the opcode table numbers it. -/
def decodeTableWord (nbits w : Nat) : Option Instr := (decode (tableWord nbits w)).toOption

end Sys2Proof
end

