-- ==== Sys2Proof/Machine/Operands.lean ====
section
/-!
DEFINITION. Operand forms beyond a polynomial register: the width d and eta of the W field
(spec/30_encoding.md R94), the bytes a port is asked for (spec/10_state.md R44 to R46), and the packing of
bytes into bus words (spec/20_memory.md R63).
-/

namespace Sys2Proof.Machine

/-- The value of the field W: unsigned, not scaled, offset or sign-extended (R94). -/
def widthOf (W : BitVec 4) : Nat := W.toNat

/-- The XOF port's input `RHO[0..31] ‖ B32 ‖ B33` (R44, R97). -/
def xofInput (rho : Seed32) (b32 b33 : Byte) : Seed34 := ⟨⟨rho.toList ++ [b32, b33]⟩, by simp⟩

/-- `XofStream(seed)[k]` (R15, R45): the parameter `xof`, whose leading bytes the oracle table may give
(log 4). It depends on the seed alone. -/
def State.xofStream (s : State) (seed : Seed34) (k : Nat) : Byte :=
  match s.xofOracle.find? (fun e => decide (e.seed = seed)) with
  | some e => e.bytes.getD k (Config.xof seed k)
  | none => Config.xof seed k

/-- `Prf(eta, seed, c)` (R15, R46): the parameter `prf`, whose leading bytes the oracle table may give
(log 4). -/
def State.prfBytes (s : State) (eta : Nat) (seed : Seed32) (c : Byte) : Vector Byte (64 * eta) :=
  match s.prfOracle.find? (fun e => decide (e.eta = eta ∧ e.seed = seed ∧ e.counter = c)) with
  | some e => tabulate (64 * eta) fun k => e.bytes.getD k (seedAt (Config.prf eta seed c) k)
  | none => Config.prf eta seed c

/-- Byte `i` of a word, the least significant byte first (R63). -/
def byteOfWord (w : Word) (i : Nat) : Byte := w.extractLsb' (8 * i) 8

/-- The word at byte `4·k` of a byte array, the lowest byte least significant (R63). -/
def packWord (byteAt : Nat → Byte) (k : Nat) : Word :=
  byteAt (4 * k + 3) ++ byteAt (4 * k + 2) ++ byteAt (4 * k + 1) ++ byteAt (4 * k)

/-- The seed register with word `k` replaced (R36, R63). -/
def putSeedWord (v : Seed32) (k : Nat) (w : Word) : Seed32 :=
  tabulate 32 fun b => if b / 4 = k then byteOfWord w (b % 4) else seedAt v b

/-- BUF with word `k` replaced (R38, R63). -/
def putBufWord (m : Memory) (k : Nat) (w : Word) : Memory :=
  writeBytes m (4 * k) ((List.range 4).map (byteOfWord w))

end Sys2Proof.Machine
end

