-- ==== Sys2Proof/Machine/Issue.lean ====
section
/-!
DEFINITION. Issue of a command by a write to CMD while idle: every check, acceptance or rejection
(spec/60_exceptions.md R255, R256, R260; spec/30_encoding.md R100).
-/

namespace Sys2Proof.Machine

/-- The error code of a word the decoder refuses (R100, R251). -/
def decodeErrorCode : DecodeError → ErrorCode
  | .illegalCmd => .illegalCmd
  | .invalidParameter => .invalidParameter

/-- The checks of a decoded command that depend on the state (R260): COUNTER_EXHAUSTED for SAMPLE_CBD
(spec/42_sampler.md R190), RANGE_VIOLATION for ENCODE with d < 12 and for DECOMPRESS (spec/41_codec.md
R157, R163). No command is subject to both, so their order in R260 needs no code. -/
def stateCheck (i : Instr) (s : State) : Option ErrorCode :=
  match i with
  | .decompress _ pa d => if allBelow (s.poly pa) (2 ^ widthOf d) then none else some .rangeViolation
  | .encode pa d =>
    if widthOf d < 12 ∧ allBelow (s.poly pa) (2 ^ widthOf d) = false then some .rangeViolation else none
  | .sampleCbd _ _ => if s.ctrExh then some .counterExhausted else none
  | .nop => none
  | .ntt _ _ => none
  | .intt _ _ => none
  | .pmul _ _ _ => none
  | .pmac _ _ _ => none
  | .padd _ _ _ => none
  | .psub _ _ _ => none
  | .pcopy _ _ => none
  | .pzero _ => none
  | .compress _ _ _ => none
  | .decode _ _ => none
  | .sampleNtt _ _ _ => none

/-- Every check of R260 on a word issued while idle, in its order: the command, or the one error. -/
def validate (w : Word) (s : State) : Except ErrorCode Instr :=
  match decode w with
  | .error e => .error (decodeErrorCode e)
  | .ok i =>
    match stateCheck i s with
    | some e => .error e
    | none => .ok i

/-- A write of `w` to CMD while BUSY = 0 (R255, R256). -/
def State.issue (s : State) (w : Word) : State :=
  match validate w s with
  | .ok i => s.accept w i
  | .error e => s.reject e

end Sys2Proof.Machine
end

