-- ==== Sys2Proof/Machine/Bus.lean ====
section
/-!
DEFINITION. The host aperture: the address map, what a read returns and what a write does, and the order
in which an access is checked (spec/20_memory.md R60 to R73; spec/60_exceptions.md R260).
-/

namespace Sys2Proof.Machine

/-- A mapped location of the aperture (R61). Word indices count from the window's start. -/
inductive Loc where
  | id
  | ctrl
  | status
  | errcode
  | irqEn
  | cmd
  | counter
  | xofBytes
  | seedRho (k : Nat)
  | seedPrf (k : Nat)
  | buf (k : Nat)
  | zeta (i : Nat)
  | gamma (i : Nat)
  | poly (p : PReg) (j : Nat)
  deriving DecidableEq, Repr

/-- The size of the aperture: offsets 0x0000 to 0x3FFF (R60). -/
def apertureBytes : Nat := 0x4000

/-- A row of the address map: the first and the last word-aligned offset of a range, and the location of
its word `k`. -/
structure Region where
  first : Nat
  last : Nat
  word : Nat → Loc

/-- The mapped rows of R61, in its order. -/
def addressMap : List Region :=
  [⟨0x0000, 0x0000, fun _ => .id⟩,
   ⟨0x0004, 0x0004, fun _ => .ctrl⟩,
   ⟨0x0008, 0x0008, fun _ => .status⟩,
   ⟨0x000C, 0x000C, fun _ => .errcode⟩,
   ⟨0x0010, 0x0010, fun _ => .irqEn⟩,
   ⟨0x0014, 0x0014, fun _ => .cmd⟩,
   ⟨0x0018, 0x0018, fun _ => .counter⟩,
   ⟨0x001C, 0x001C, fun _ => .xofBytes⟩,
   ⟨0x0020, 0x003C, .seedRho⟩,
   ⟨0x0040, 0x005C, .seedPrf⟩,
   ⟨0x0400, 0x057C, .buf⟩,
   ⟨0x0600, 0x07FC, .zeta⟩,
   ⟨0x0800, 0x09FC, .gamma⟩,
   ⟨0x1000, 0x2FFC, fun k => .poly (Fin.ofNat 8 (k / 256)) (k % 256)⟩]

/-- The offset lies in the range. -/
def Region.holds (r : Region) (off : Nat) : Bool := decide (r.first ≤ off ∧ off ≤ r.last)

/-- The location of a word-aligned offset, or nothing where R61 marks it unmapped (R66). -/
def locate (off : Nat) : Option Loc :=
  (addressMap.find? (·.holds off)).map fun r => r.word ((off - r.first) / 4)

/-- ID's constant (spec/10_state.md R27). -/
def idWord : Word := 0x4E545431#32

/-- A coefficient zero-extended to a bus word (R64). -/
def coefWord (c : Coef) : Word := BitVec.ofNat 32 c.val

/-- The accesses of a busy block that R72 allows or leaves to R68, and those it refuses: a read. -/
def busyRefusesRead : Loc → Bool
  | .id => false
  | .ctrl => false
  | .status => false
  | .errcode => false
  | .irqEn => false
  | .cmd => false
  | .counter => false
  | .xofBytes => false
  | .seedRho _ => true
  | .seedPrf _ => true
  | .buf _ => true
  | .zeta _ => true
  | .gamma _ => true
  | .poly _ _ => true

/-- The same for a write; writes to ID, ERRCODE and XOF_BYTES are not R72's but R68's. -/
def busyRefusesWrite : Loc → Bool
  | .id => false
  | .ctrl => false
  | .status => false
  | .errcode => false
  | .irqEn => false
  | .cmd => true
  | .counter => true
  | .xofBytes => false
  | .seedRho _ => true
  | .seedPrf _ => true
  | .buf _ => true
  | .zeta _ => true
  | .gamma _ => true
  | .poly _ _ => true

/-- What an allowed read of a location returns; it has no side effect (R71, R73). -/
def State.readLoc (s : State) : Loc → Word
  | .id => idWord
  | .ctrl => 0
  | .status => s.statusWord
  | .errcode => s.errcodeWord
  | .irqEn => s.irqEnWord
  | .cmd => s.lastCmd
  | .counter => s.counterWord
  | .xofBytes => s.xofBytes
  | .seedRho k => packWord (seedAt s.rho) k
  | .seedPrf k => packWord (seedAt s.sig) k
  | .buf k => packWord (readByte s.buf) k
  | .zeta i => coefWord (Sys2Proof.Machine.zeta i)
  | .gamma i => coefWord (Sys2Proof.Machine.gamma i)
  | .poly p j => coefWord (coefAt (s.poly p) j)

/-- A write of `w` to CTRL: SRST acts alone; ABORT acts while BUSY; the reserved bits are ignored
(spec/10_state.md R28; spec/60_exceptions.md R258; spec/70_reset_and_hazards.md R292). -/
def State.writeCtrl (s : State) (w : Word) : State :=
  if w.getLsbD 0 then s.resetBlock
  else if w.getLsbD 1 ∧ s.busy = true then s.abort
  else s

/-- A write of `w` to `P[p][j]`: kept only if the whole word is below 3329 (R64, R70). -/
def State.writeCoef (s : State) (p : PReg) (j : Nat) (w : Word) : State :=
  if w.toNat < 3329 then s.setPoly p (putCoef (s.poly p) j (reduceNat w.toNat))
  else s.raise .rangeViolation

/-- What a write that R72 does not refuse does to a location; a read-only one raises BAD_ACCESS (R68). -/
def State.writeLoc (s : State) (w : Word) : Loc → State
  | .id => s.raise .badAccess
  | .ctrl => s.writeCtrl w
  | .status => s.writeStatus w
  | .errcode => s.raise .badAccess
  | .irqEn => s.writeIrqEn w
  | .cmd => s.issue w
  | .counter => s.writeCounter w
  | .xofBytes => s.raise .badAccess
  | .seedRho k => { s with rho := putSeedWord s.rho k w }
  | .seedPrf k => { s with sig := putSeedWord s.sig k w }
  | .buf k => s.setBuf (putBufWord s.buf k w)
  | .zeta _ => s.raise .badAccess
  | .gamma _ => s.raise .badAccess
  | .poly p j => s.writeCoef p j w

/-- A location that an access of `bits` bits at `off` reaches: 32 bits wide, aligned and mapped
(R62, R65, R66). Otherwise the access is a bad access. -/
def target (bits off : Nat) : Option Loc := if bits = 32 ∧ off % 4 = 0 then locate off else none

/-- A read that fails returns 0 and records its error (R65, R66, R72). -/
def State.failRead (s : State) (e : ErrorCode) : State := { s.raise e with rdata := 0 }

/-- A host read, checked in the order of R260. -/
def State.hostRead (s : State) (bits off : Nat) : State :=
  match target bits off with
  | none => s.failRead .badAccess
  | some l =>
    if s.busy && busyRefusesRead l then s.failRead .busyAccess
    else { s with rdata := s.readLoc l }

/-- A host write, checked in the order of R260. -/
def State.hostWrite (s : State) (bits off : Nat) (w : Word) : State :=
  match target bits off with
  | none => s.raise .badAccess
  | some l =>
    if s.busy && busyRefusesWrite l then s.raise .busyAccess
    else s.writeLoc w l

/-- A host access: inside the aperture it goes to the block; outside it the block does not decode it
(R67; log 2). -/
def hostEvent (off : Nat) (s : State) : Host.Outcome State Fault Refusal :=
  if off < apertureBytes then .next s else .fault .outsideAperture

end Sys2Proof.Machine
end

