-- ==== Sys2Proof/Machine/Codec.lean ====
section
/-!
DEFINITION. The codec: COMPRESS, DECOMPRESS, ENCODE, DECODE (spec/41_codec.md R150 to R167). The range
checks on d and on the source coefficients happen at issue (Machine/Issue.lean, R260).
-/

namespace Sys2Proof.Machine

/-! ### Bit order (R150, R151) -/

/-- The byte whose bit `i` is the i-th of eight bits, position 0 least significant (R150). -/
def byteOfBits (b0 b1 b2 b3 b4 b5 b6 b7 : Bool) : Byte :=
  BitVec.ofNat 8 (b0.toNat + 2 * b1.toNat + 4 * b2.toNat + 8 * b3.toNat + 16 * b4.toNat +
    32 * b5.toNat + 64 * b6.toNat + 128 * b7.toNat)

/-- BitsToBytes: bit `i` goes to byte `i div 8`, position `i mod 8` (R150). The rule gives it for a length
that is a multiple of 8; a last group of fewer than eight bits makes no byte. -/
def bitsToBytes : List Bool → List Byte
  | b0 :: b1 :: b2 :: b3 :: b4 :: b5 :: b6 :: b7 :: rest =>
    byteOfBits b0 b1 b2 b3 b4 b5 b6 b7 :: bitsToBytes rest
  | _ => []

/-- BytesToBits: bit `i` is bit `i mod 8` of byte `i div 8` (R151). -/
def bytesToBits (B : List Byte) : List Bool := B.flatMap fun x => (List.range 8).map x.getLsbD

/-! ### Compression (R153, R156) -/

/-- `Compress_d(x) = ((2^d · x + 1664) div 3329) mod 2^d` (R153). -/
def compressCoef (d : Nat) (x : Coef) : Coef := reduceNat ((2 ^ d * x.val + 1664) / 3329 % 2 ^ d)

/-- `Decompress_d(y) = ((3329 · y + 2^(d−1)) div 2^d) mod 3329` (R156). -/
def decompressCoef (d : Nat) (y : Coef) : Coef := reduceNat ((3329 * y.val + 2 ^ (d - 1)) / 2 ^ d)

/-- Compress_d of every coefficient (R155). -/
def polyCompress (d : Nat) (a : PolyVal) : PolyVal := mkPoly fun j => compressCoef d (coefAt a j)

/-- Decompress_d of every coefficient (R157). -/
def polyDecompress (d : Nat) (a : PolyVal) : PolyVal := mkPoly fun j => decompressCoef d (coefAt a j)

/-! ### Fixed-width packing (R159, R160) -/

/-- The `d` bits of a coefficient, least significant first (R159). -/
def coefBits (d : Nat) (c : Coef) : List Bool := (List.range d).map fun k => c.val.testBit k

/-- ByteEncode_d: `b[i·d + k] = (F[i] >> k) AND 1`, packed by BitsToBytes (R159). -/
def byteEncode (d : Nat) (F : PolyVal) : List Byte := bitsToBytes (F.toList.flatMap (coefBits d))

/-- The number whose bits are `bs`, least significant first. -/
def bitsValue (bs : List Bool) : Nat := bs.foldr (fun b acc => b.toNat + 2 * acc) 0

/-- The modulus of ByteDecode_d: 2^d for d < 12, and 3329 for d = 12 (R160). -/
def decodeModulus (d : Nat) : Nat := if d < 12 then 2 ^ d else 3329

/-- ByteDecode_d: field `i` is the bits `i·d .. i·d + d − 1`, reduced mod m (R160). -/
def byteDecode (d : Nat) (B : List Byte) : PolyVal :=
  let b := bytesToBits B
  mkPoly fun i => reduceNat (bitsValue ((b.drop (i * d)).take d) % decodeModulus d)

/-- `BUF[0 .. n − 1]` (R15). -/
def readBytes (m : Memory) (n : Nat) : List Byte := (List.range n).map (readByte m)

/-! ### The commands -/

/-- COMPRESS (R155). -/
def execCompress (pd pa : PReg) (d : BitVec 4) (s : State) : Host.Outcome State Fault Refusal :=
  .next (s.commitPoly pd (polyCompress (widthOf d) (s.poly pa)))

/-- DECOMPRESS (R157). -/
def execDecompress (pd pa : PReg) (d : BitVec 4) (s : State) : Host.Outcome State Fault Refusal :=
  .next (s.commitPoly pd (polyDecompress (widthOf d) (s.poly pa)))

/-- ENCODE: the 32·d bytes go to BUF[0 .. 32·d − 1]; the bytes beyond stay (R163, decision D40). -/
def execEncode (pa : PReg) (d : BitVec 4) (s : State) : Host.Outcome State Fault Refusal :=
  .next (s.setBuf (writeBytes s.buf 0 (byteEncode (widthOf d) (s.poly pa)))).complete

/-- DECODE: reads BUF[0 .. 32·d − 1] and no byte beyond (R165). -/
def execDecode (pd : PReg) (d : BitVec 4) (s : State) : Host.Outcome State Fault Refusal :=
  .next (s.commitPoly pd (byteDecode (widthOf d) (readBytes s.buf (32 * widthOf d))))

end Sys2Proof.Machine
end

