-- ==== Sys2Proof/Machine/Sampler.lean ====
section
/-!
DEFINITION. The samplers: SAMPLE_NTT and SAMPLE_CBD (spec/42_sampler.md R180 to R190).
-/

namespace Sys2Proof.Machine

/-! ### The rejection sampler (R180 to R184) -/

/-- `d1`, the low 12 bits of a chunk read little-endian: `C0 + 256 · (C1 mod 16)` (R180, R181). -/
def candidateLow (c0 c1 : Byte) : Nat := c0.toNat + 256 * (c1.toNat % 16)

/-- `d2`, the high 12 bits: `(C1 div 16) + 16 · C2` (R180, R181). -/
def candidateHigh (c1 c2 : Byte) : Nat := c1.toNat / 16 + 16 * c2.toNat

/-- `if d < 3329 ∧ j < 256: a[j] := d; j := j + 1` (R180); `a` lists the accepted values in order. -/
def acceptCandidate (a : List Coef) (d : Nat) : List Coef :=
  if d < 3329 ∧ a.length < 256 then a ++ [reduceNat d] else a

/-- One turn of the loop of R180: the chunk at stream bytes `k`, `k + 1`, `k + 2`. -/
def takeChunk (X : Nat → Byte) (k : Nat) (a : List Coef) : List Coef :=
  acceptCandidate (acceptCandidate a (candidateLow (X k) (X (k + 1)))) (candidateHigh (X (k + 1)) (X (k + 2)))

/-- The loop of R180 over at most `chunks` further chunks, from stream byte `k` with the values `a`
accepted: the 256 values and the bytes consumed, or nothing if the chunks run out first (R183; log 5). -/
def sampleLoop (X : Nat → Byte) : Nat → Nat → List Coef → Option (List Coef × Nat)
  | 0, k, a => if a.length < 256 then none else some (a, k)
  | chunks + 1, k, a =>
    if a.length < 256 then sampleLoop X chunks (k + 3) (takeChunk X k a) else some (a, k)

/-- SampleNTT of a stream of which `chunks` chunks have been delivered (R180, R183). -/
def sampleNtt (X : Nat → Byte) (chunks : Nat) : Option (List Coef × Nat) := sampleLoop X chunks 0 []

/-- `min(k, 0xFFFFFFFF)` (R182; spec/10_state.md R35). -/
def saturate32 (k : Nat) : Word := BitVec.ofNat 32 (min k 0xFFFFFFFF)

/-- What a SAMPLE_NTT that has its 256 values commits (R182). -/
def State.commitSample (s : State) (pd : PReg) (a : List Coef) (k : Nat) : State :=
  ({ s with xofBytes := saturate32 k } : State).commitPoly pd (mkPoly fun j => a.getD j 0)

/-- SAMPLE_NTT (R182). The completion step exists only if the stream yields 256 acceptances (R183): while
the chunks delivered by this turn hold fewer, nothing changes and the command stays pending (log 5). -/
def execSampleNtt (pd : PReg) (b32 b33 : Byte) (s : State) : Host.Outcome State Fault Refusal :=
  .next (match sampleNtt (s.xofStream (xofInput s.rho b32 b33)) s.xofReady with
    | some (a, k) => s.commitSample pd a k
    | none => s)

/-! ### The centred binomial sampler (R186 to R190) -/

/-- The sum of `n` bits from bit `i` on (R186). -/
def bitSum (b : List Bool) (i n : Nat) : Nat := (((b.drop i).take n).map Bool.toNat).sum

/-- SamplePolyCBD_eta: `eta` bits minus the next `eta` bits, mod q (R186). -/
def samplePolyCbd (eta : Nat) (B : List Byte) : PolyVal :=
  let b := bytesToBits B
  mkPoly fun i =>
    reduceInt ((bitSum b (2 * i * eta) eta : Int) - (bitSum b (2 * i * eta + eta) eta : Int))

/-- SAMPLE_CBD: samples with the counter before the command, then advances it (R188, R189). -/
def execSampleCbd (pd : PReg) (eta : BitVec 4) (s : State) : Host.Outcome State Fault Refusal :=
  .next (s.advanceCounter.commitPoly pd
    (samplePolyCbd (widthOf eta) (s.prfBytes (widthOf eta) s.sig s.counter).toList))

end Sys2Proof.Machine
end

