-- ==== Sys2Proof/Machine/ModArith.lean ====
section
/-!
DEFINITION. The mod-q unit and the register commands: NOP, PADD, PSUB, PCOPY, PZERO
(spec/40_modarith.md R120 to R124). Each meaning is the completion step of its command (R257; log 8).
-/

namespace Sys2Proof.Machine

/-- `r[j] := addq(a[j], b[j])` (R121). -/
def polyAdd (a b : PolyVal) : PolyVal := mkPoly fun j => addq (coefAt a j) (coefAt b j)

/-- `r[j] := subq(a[j], b[j])` (R122). -/
def polySub (a b : PolyVal) : PolyVal := mkPoly fun j => subq (coefAt a j) (coefAt b j)

/-- The register value PZERO writes (R124). -/
def polyZero : PolyVal := mkPoly fun _ => 0

/-- NOP completes without touching any register (R120). -/
def execNop (s : State) : Host.Outcome State Fault Refusal := .next s.complete

/-- PADD (R121). -/
def execPadd (pd pa pb : PReg) (s : State) : Host.Outcome State Fault Refusal :=
  .next (s.commitPoly pd (polyAdd (s.poly pa) (s.poly pb)))

/-- PSUB: PA minus PB (R122). -/
def execPsub (pd pa pb : PReg) (s : State) : Host.Outcome State Fault Refusal :=
  .next (s.commitPoly pd (polySub (s.poly pa) (s.poly pb)))

/-- PCOPY (R123). -/
def execPcopy (pd pa : PReg) (s : State) : Host.Outcome State Fault Refusal :=
  .next (s.commitPoly pd (s.poly pa))

/-- PZERO (R124). -/
def execPzero (pd : PReg) (s : State) : Host.Outcome State Fault Refusal :=
  .next (s.commitPoly pd polyZero)

end Sys2Proof.Machine
end

