-- ==== Sys2Proof/Machine/Transform.lean ====
section
/-!
DEFINITION. The transform engine: NTT, INTT, PMUL, PMAC (spec/43_transform.md R216 to R223). The butterfly
equations and the pairing of block i with coefficients (2i, 2i+1) are those of the rules, which the spec
supplies from general knowledge (log 10).
-/

namespace Sys2Proof.Machine

/-- The innermost body of the forward transform, at index `j` (R216). -/
def butterfly (z : Coef) (len : Nat) (g : PolyVal) (j : Nat) : PolyVal :=
  let t := mulq z (coefAt g (j + len))
  let g₁ := putCoef g (j + len) (subq (coefAt g j) t)
  putCoef g₁ j (addq (coefAt g j) t)

/-- `for j in start .. start + len − 1` of the forward transform (R216). -/
def nttBlock (z : Coef) (len start : Nat) (g : PolyVal) : PolyVal :=
  (List.range' start len).foldl (butterfly z len) g

/-- One level of the forward transform: the blocks `start = 0, 2·len, 4·len, ...` in order, block `b`
taking the next twiddle factor, `ZETA[i + b]` (R216). -/
def nttLevel (len i : Nat) (g : PolyVal) : PolyVal :=
  (List.range (128 / len)).foldl (fun g b => nttBlock (zeta (i + b)) len (2 * len * b) g) g

/-- The forward transform (R216): seven levels, the index `i` into ZETA starting at 1 and increasing by
one a block. -/
def ntt (f : PolyVal) : PolyVal :=
  ([128, 64, 32, 16, 8, 4, 2].foldl
    (fun (st : PolyVal × Nat) len => (nttLevel len st.2 st.1, st.2 + 128 / len)) (f, 1)).1

/-- The innermost body of the inverse transform, at index `j` (R218). -/
def butterflyInv (z : Coef) (len : Nat) (f : PolyVal) (j : Nat) : PolyVal :=
  let t := coefAt f j
  let f₁ := putCoef f j (addq t (coefAt f (j + len)))
  putCoef f₁ (j + len) (mulq z (subq (coefAt f (j + len)) t))

/-- `for j in start .. start + len − 1` of the inverse transform (R218). -/
def inttBlock (z : Coef) (len start : Nat) (f : PolyVal) : PolyVal :=
  (List.range' start len).foldl (butterflyInv z len) f

/-- One level of the inverse transform: block `b` takes `ZETA[i − b]` (R218). -/
def inttLevel (len i : Nat) (f : PolyVal) : PolyVal :=
  (List.range (128 / len)).foldl (fun f b => inttBlock (zeta (i - b)) len (2 * len * b) f) f

/-- The seven levels of the inverse transform, before the scaling (R218): `i` starts at 127 and decreases
by one a block. -/
def inttLevels (g : PolyVal) : PolyVal :=
  ([2, 4, 8, 16, 32, 64, 128].foldl
    (fun (st : PolyVal × Nat) len => (inttLevel len st.2 st.1, st.2 - 128 / len)) (g, 127)).1

/-- The inverse transform: the levels, then every coefficient scaled by 3303 (R218). -/
def nttInv (g : PolyVal) : PolyVal :=
  let f := inttLevels g
  mkPoly fun j => mulq (coefAt f j) inv128

/-- Coefficient `2i` of the product: `(a0·b0 + a1·b1·γ) mod q`, exact before the reduction (R221). -/
def baseMulLow (a b : PolyVal) (i : Nat) : Coef :=
  reduceNat ((coefAt a (2 * i)).val * (coefAt b (2 * i)).val +
    (coefAt a (2 * i + 1)).val * (coefAt b (2 * i + 1)).val * (gamma i).val)

/-- Coefficient `2i + 1` of the product: `(a0·b1 + a1·b0) mod q` (R221). -/
def baseMulHigh (a b : PolyVal) (i : Nat) : Coef :=
  reduceNat ((coefAt a (2 * i)).val * (coefAt b (2 * i + 1)).val +
    (coefAt a (2 * i + 1)).val * (coefAt b (2 * i)).val)

/-- MultiplyNTTs: 128 products of degree-1 polynomials, block `i` the pair (2i, 2i+1) (R221). -/
def multiplyNtts (a b : PolyVal) : PolyVal :=
  mkPoly fun j => if j % 2 = 0 then baseMulLow a b (j / 2) else baseMulHigh a b (j / 2)

/-- NTT (R217). -/
def execNtt (pd pa : PReg) (s : State) : Host.Outcome State Fault Refusal :=
  .next (s.commitPoly pd (ntt (s.poly pa)))

/-- INTT (R219). -/
def execIntt (pd pa : PReg) (s : State) : Host.Outcome State Fault Refusal :=
  .next (s.commitPoly pd (nttInv (s.poly pa)))

/-- PMUL (R222). -/
def execPmul (pd pa pb : PReg) (s : State) : Host.Outcome State Fault Refusal :=
  .next (s.commitPoly pd (multiplyNtts (s.poly pa) (s.poly pb)))

/-- PMAC: the old value of PD plus the product (R223). -/
def execPmac (pd pa pb : PReg) (s : State) : Host.Outcome State Fault Refusal :=
  .next (s.commitPoly pd (polyAdd (s.poly pd) (multiplyNtts (s.poly pa) (s.poly pb))))

end Sys2Proof.Machine
end

