-- ==== Sys2Proof/Machine/Dispatch.lean ====
section
/-!
DEFINITION. What each command does when the engine completes it (spec/60_exceptions.md R257): one arm a
constructor, one call of its meaning.
-/

namespace Sys2Proof.Machine

def exec (i : Instr) (s : State) : Host.Outcome State Fault Refusal :=
  match i with
  | .nop => Sys2Proof.Machine.execNop s
  | .ntt pd pa => Sys2Proof.Machine.execNtt pd pa s
  | .intt pd pa => Sys2Proof.Machine.execIntt pd pa s
  | .pmul pd pa pb => Sys2Proof.Machine.execPmul pd pa pb s
  | .pmac pd pa pb => Sys2Proof.Machine.execPmac pd pa pb s
  | .padd pd pa pb => Sys2Proof.Machine.execPadd pd pa pb s
  | .psub pd pa pb => Sys2Proof.Machine.execPsub pd pa pb s
  | .pcopy pd pa => Sys2Proof.Machine.execPcopy pd pa s
  | .pzero pd => Sys2Proof.Machine.execPzero pd s
  | .compress pd pa d => Sys2Proof.Machine.execCompress pd pa d s
  | .decompress pd pa d => Sys2Proof.Machine.execDecompress pd pa d s
  | .encode pa d => Sys2Proof.Machine.execEncode pa d s
  | .decode pd d => Sys2Proof.Machine.execDecode pd d s
  | .sampleNtt pd b32 b33 => Sys2Proof.Machine.execSampleNtt pd b32 b33 s
  | .sampleCbd pd eta => Sys2Proof.Machine.execSampleCbd pd eta s

end Sys2Proof.Machine
end

