-- ==== Sys2Proof/Machine/Agents.lean ====
section
/-!
DEFINITION. What each agent does when it moves: the host, the engine and the platform's reset
(spec/10_state.md R20; spec/60_exceptions.md R257, R264; spec/70_reset_and_hazards.md R290).
-/

namespace Sys2Proof.Machine

/-- The engine's turn: it completes the pending command, if any (R257). `chunks` is what the XOF port has
delivered by this turn (log 5). -/
def engineTurn (chunks : Nat) (s : State) : Host.Outcome State Fault Refusal :=
  match s.pending with
  | none => .next s
  | some i => exec i { s with xofReady := chunks }

/-- One event (R20). -/
def perform (e : Event) (s : State) : Host.Outcome State Fault Refusal :=
  match e with
  | .read bits off => hostEvent off (s.hostRead bits off)
  | .write bits off w => hostEvent off (s.hostWrite bits off w)
  | .engine chunks => engineTurn chunks s
  | .powerReset => .next s.resetBlock

/-- The next event of the agenda is performed; with none to come, nothing moves (log 6). -/
def turn (s : State) : Host.Outcome State Fault Refusal :=
  match s.agenda with
  | [] => .next s
  | e :: rest => perform e { s with agenda := rest }

/-- The state in which the very next turn runs the command word `w` (log 7). A word that passes its checks
is put where the engine takes its command from, PENDING, as its acceptance puts it there; a word that fails
a check is never pending, and its issue is the next event. -/
def State.placeCommand (s : State) (w : Word) : State :=
  match validate w s with
  | .ok i => { s.accept w i with agenda := .engine Config.loaderChunks :: s.agenda }
  | .error _ => { s with agenda := .write 32 0x14 w :: s.agenda }

end Sys2Proof.Machine
end

