-- ==== Sys2Proof/Machine/Step.lean ====
section
/-!
DEFINITION. One step of the machine, and the placing of a command for the very next step.
-/

namespace Sys2Proof.Machine

/-- One step: the next event of the agenda (spec/20_memory.md R75). -/
def step (s : State) : Host.Outcome State Fault Refusal := turn s

/-- The command of `nbits` bits `w`, numbered as the opcode table numbers it, placed for the very next
step (log 7). -/
def State.withFetchWord (s : State) (nbits w : Nat) : State := s.placeCommand (tableWord nbits w)

end Sys2Proof.Machine
end

