-- ==== Sys2Proof/Safety.lean ====
section
/-!
DEFINITION. What claims call a good state and a safe run: the invariant the rules imply, the block's own
part of a state, and a run that records no error.
-/

namespace Sys2Proof.Machine

/-- The pending command was decoded from LASTCMD, and passes in this state every check it passed at its
issue (spec/60_exceptions.md R256; spec/20_memory.md R72). -/
def State.PendingOk (s : State) : Prop :=
  ∀ i, s.pending = some i → decode s.lastCmd = .ok i ∧ stateCheck i s = none

/-- What the rules promise of every state of the block. -/
structure State.Inv (s : State) : Prop where
  /-- PENDING is present exactly when BUSY = 1 (spec/10_state.md R41). -/
  busy_iff : s.busy = s.pending.isSome
  /-- BUSY and DONE are never 1 together (spec/60_exceptions.md R255 to R258). -/
  notDone : s.busy = true → s.done = false
  /-- CODE is 0 exactly while ERR is 0 (spec/10_state.md R30; spec/60_exceptions.md R252). -/
  err_iff : s.err = true ↔ s.errcode ≠ 0
  /-- Codes 8 to 15 are never produced (spec/60_exceptions.md R251). -/
  code_lt : s.errcode.toNat < 8
  /-- CTR_EXH = 1 only while COUNTER is 255 (spec/42_sampler.md R190). -/
  exhausted : s.ctrExh = true → s.counter = 255
  /-- XOF_BYTES is a multiple of 3 (spec/10_state.md R35). -/
  xof_mod : s.xofBytes.toNat % 3 = 0
  /-- XOF_BYTES is 0 before the first SAMPLE_NTT, and at least 384 after it (spec/42_sampler.md R184). -/
  xof_min : s.xofBytes = 0 ∨ 384 ≤ s.xofBytes.toNat
  /-- BUF is in its canonical form (log 9). -/
  buf_wf : s.buf.wf = true
  /-- The pending command is one that passed its checks. -/
  pendingOk : s.PendingOk

/-- The polynomial register a command writes: its PD field (spec/10_state.md R25). NOP and ENCODE write
none. -/
def dest : Instr → Option PReg
  | .nop => none
  | .ntt pd _ => some pd
  | .intt pd _ => some pd
  | .pmul pd _ _ => some pd
  | .pmac pd _ _ => some pd
  | .padd pd _ _ => some pd
  | .psub pd _ _ => some pd
  | .pcopy pd _ => some pd
  | .pzero pd => some pd
  | .compress pd _ _ => some pd
  | .decompress pd _ _ => some pd
  | .encode _ _ => none
  | .decode pd _ => some pd
  | .sampleNtt pd _ _ => some pd
  | .sampleCbd pd _ => some pd

/-- The polynomial registers a command reads: PA and PB where its format has them, and PD for PMAC
(spec/10_state.md R25). -/
def sources : Instr → List PReg
  | .nop => []
  | .ntt _ pa => [pa]
  | .intt _ pa => [pa]
  | .pmul _ pa pb => [pa, pb]
  | .pmac pd pa pb => [pd, pa, pb]
  | .padd _ pa pb => [pa, pb]
  | .psub _ pa pb => [pa, pb]
  | .pcopy _ pa => [pa]
  | .pzero _ => []
  | .compress _ pa _ => [pa]
  | .decompress _ pa _ => [pa]
  | .encode pa _ => [pa]
  | .decode _ _ => []
  | .sampleNtt _ _ _ => []
  | .sampleCbd _ _ => []

/-- `t` is `s` after a completion that writes register `pd` and nothing else but the end of the command's
life (spec/00_scope.md R16; spec/60_exceptions.md R257): every field but the register file, PENDING, BUSY
and DONE is as before, and so is every other register. -/
def State.CommitsOnly (s t : State) (pd : PReg) : Prop :=
  t = { s with P := t.P, pending := none, busy := false, done := true } ∧
  ∀ r, r ≠ pd → t.poly r = s.poly r

/-- Every field of R21 has the value of the reset table (spec/10_state.md R48). -/
structure State.AtReset (s : State) : Prop where
  regs : ∀ p j, j < 256 → coefAt (s.poly p) j = 0
  buf : ∀ b, b < 384 → readByte s.buf b = 0
  seeds : ∀ b, b < 32 → seedAt s.rho b = 0 ∧ seedAt s.sig b = 0
  counter : s.counter = 0
  status : s.busy = false ∧ s.done = false ∧ s.err = false ∧ s.ctrExh = false
  errcode : s.errcode = 0
  irqEn : s.ieDone = false ∧ s.ieErr = false
  lastCmd : s.lastCmd = 0
  xofBytes : s.xofBytes = 0
  pending : s.pending = none
  irq : s.irq = false

/-- Bits [lo + n − 1 : lo] of a word as a number (spec/00_scope.md R14). -/
def bitField (w : Word) (lo n : Nat) : Nat := w.toNat / 2 ^ lo % 2 ^ n

/-- The errors a command's rule lists for its own encoding, at an issue while idle (spec/30_encoding.md R100,
R101; spec/60_exceptions.md R255, R260): with this OPC, a 1 in one of the fields (first bit, length) that must
be 0 gives ILLEGAL_CMD, and otherwise a field W outside its range gives INVALID_PARAMETER. -/
def EncodingErrors (opc : Nat) (zeros : List (Nat × Nat)) (range : Nat → Prop) : Prop :=
  ∀ (w : Word) (s : State), bitField w 0 6 = opc → s.busy = false →
    ((∃ f ∈ zeros, bitField w f.1 f.2 ≠ 0) →
      perform (.write 32 0x14 w) s =
        .next { s with err := true, errcode := if s.err then s.errcode else 1, done := true }) ∧
    ((∀ f ∈ zeros, bitField w f.1 f.2 = 0) → ¬ range (bitField w 15 4) →
      perform (.write 32 0x14 w) s =
        .next { s with err := true, errcode := if s.err then s.errcode else 2, done := true })

/-- The word-aligned offsets R61 marks unmapped (spec/20_memory.md R61, R66). -/
abbrev unmapped (off : Nat) : Prop :=
  (0x0060 ≤ off ∧ off ≤ 0x03FC) ∨ (0x0580 ≤ off ∧ off ≤ 0x05FC) ∨ (0x0A00 ≤ off ∧ off ≤ 0x0FFC) ∨
  (0x3000 ≤ off ∧ off ≤ 0x3FFC)

/-- The word-aligned offsets of SEED_RHO, SEED_PRF, BUF, ZETA, GAMMA and POLY (spec/20_memory.md R61). -/
abbrev inWindow (off : Nat) : Prop :=
  (0x0020 ≤ off ∧ off ≤ 0x003C) ∨ (0x0040 ≤ off ∧ off ≤ 0x005C) ∨ (0x0400 ≤ off ∧ off ≤ 0x057C) ∨
  (0x0600 ≤ off ∧ off ≤ 0x07FC) ∨ (0x0800 ≤ off ∧ off ≤ 0x09FC) ∨ (0x1000 ≤ off ∧ off ≤ 0x2FFC)

/-- Bit `m` of the coefficient bits in ByteEncode_d's order: bit `m mod d` of coefficient `m div d`
(spec/41_codec.md R159). -/
def encodedBit (d : Nat) (F : PolyVal) (m : Nat) : Bool := (coefAt F (m / d)).val.testBit (m % d)

/-- Bit `m` of a byte string in BytesToBits' order (spec/41_codec.md R151). -/
def stringBit (byteAt : Nat → Byte) (m : Nat) : Bool := (byteAt (m / 8)).getLsbD (m % 8)

/-- The two candidates of chunk `c` of a stream (spec/42_sampler.md R180). -/
def chunkCandidates (X : Nat → Byte) (c : Nat) : List Nat :=
  [(X (3 * c)).toNat + 256 * ((X (3 * c + 1)).toNat % 16),
   (X (3 * c + 1)).toNat / 16 + 16 * (X (3 * c + 2)).toNat]

/-- The candidates below 3329 of the first `n` chunks, in stream order (spec/42_sampler.md R180). -/
def accepted (X : Nat → Byte) (n : Nat) : List Nat :=
  (List.range n).flatMap fun c => (chunkCandidates X c).filter (· < 3329)

/-- The engine's turn completes the command: always, but for a SAMPLE_NTT whose chunks delivered by the turn
hold fewer than 256 acceptances (spec/42_sampler.md R183; the delivery in chunks is the model's, log 5). -/
def State.Completes (s : State) (i : Instr) : Prop :=
  ∀ pd b32 b33, i = .sampleNtt pd b32 b33 →
    256 ≤ (accepted (s.xofStream (xofInput s.rho b32 b33)) s.xofReady).length

/-- How many bits of the run `i .. i + n − 1` of a byte string are 1 (spec/42_sampler.md R186). -/
def onesIn (byteAt : Nat → Byte) (i n : Nat) : Nat :=
  ((List.range n).map fun k => (stringBit byteAt (i + k)).toNat).sum

/-- The distance between two residues mod 3329: the smaller of the two differences (spec/41_codec.md R158). -/
def residueDistance (x y : Coef) : Nat := min ((x.val + 3329 - y.val) % 3329) ((y.val + 3329 - x.val) % 3329)

/-- The bounds E_1, ..., E_11 (spec/41_codec.md R158). -/
def lossBound : List Nat := [832, 416, 208, 104, 52, 26, 13, 7, 3, 2, 1]

/-- The product of two polynomials mod X^256 + 1, coefficient `k`, over the integers
(spec/43_transform.md R224). -/
def negacyclicCoef (f g : PolyVal) (k : Nat) : Int :=
  ((List.range 256).map fun i =>
    if i ≤ k then ((coefAt f i).val * (coefAt g (k - i)).val : Int)
    else -((coefAt f i).val * (coefAt g (k + 256 - i)).val : Int)).sum

/-- The commands of a list completed one after another, each by a turn of the engine. -/
def completeAll : List Instr → State → Host.Outcome State Fault Refusal
  | [], s => .next s
  | i :: is, s =>
    match exec i s with
    | .next t => completeAll is t
    | .fault f => .fault f
    | .refused r => .refused r

/-- How many commands of a list are SAMPLE_CBD. -/
def cbdCount (is : List Instr) : Nat :=
  is.countP fun i => match i with | .sampleCbd _ _ => true | _ => false

/-- A safe state records no error (spec/60_exceptions.md R250). -/
def State.Safe (s : State) : Prop := s.err = false

/-- A run of `n` steps from `s` that never stops and never records an error. -/
def SafeRun : Nat → State → Prop
  | 0, s => s.Safe
  | n + 1, s => s.Safe ∧ ∃ t, step s = .next t ∧ SafeRun n t

end Sys2Proof.Machine
end

