-- ==== Sys2Proof/Certificates/Slice0/Obligations.lean ====
section
/-!
DEFINITION. The statements for the provers. Each docstring names the rule of the spec it formalises; where a
statement rests on a choice of the model, the docstring says so and names the log entry.
-/

open Sys2Proof Sys2Proof.Machine

/-! ### Command words (spec/30_encoding.md) -/

/-- Words written out in spec/95_test_vectors.md T1, one for each format and one for each kind of refusal,
decode as the table there says. -/
def Obligations.SpecWordsDecode : Prop :=
  decode 0x00000000#32 = .ok .nop ∧
  decode 0x000001C8#32 = .ok (.pzero 7) ∧
  decode 0x000004C2#32 = .ok (.intt 3 2) ∧
  decode 0x00006BC4#32 = .ok (.pmac 7 5 6) ∧
  decode 0x00008290#32 = .ok (.compress 2 1 1) ∧
  decode 0x00058051#32 = .ok (.decompress 1 0 11) ∧
  decode 0x00008412#32 = .ok (.encode 2 1) ∧
  decode 0x00060013#32 = .ok (.decode 0 12) ∧
  decode 0x01008160#32 = .ok (.sampleNtt 5 1 2) ∧
  decode 0x000180A1#32 = .ok (.sampleCbd 2 3) ∧
  decode 0x00001001#32 = .error .illegalCmd ∧
  decode 0x00060210#32 = .error .invalidParameter ∧
  decode 0x00080021#32 = .error .illegalCmd

/-- Decoding the word of a well-formed command gives the command back (R92, R99, R100). -/
def Obligations.DecodeOfEncode : Prop :=
  ∀ i : Instr, i.wellFormed = true → decode (encode i) = .ok i

/-- A word that decodes is the word of the well-formed command it decodes to: no two words stand for one
command, and no bit of a legal word is ignored (R92, R99, R100). -/
def Obligations.EncodeOfDecode : Prop :=
  ∀ (w : Word) (i : Instr), decode w = .ok i → encode i = w ∧ i.wellFormed = true

/-- The decoding procedure of R100: at most one row matches; no row gives ILLEGAL_CMD; a row whose d or eta is
out of range gives INVALID_PARAMETER; any other gives the command with its fields, PD = w[8:6], PA = w[11:9],
PB = w[14:12], W = w[18:15], B32 = w[22:15], B33 = w[30:23]. -/
def Obligations.DecoderFollowsProcedure : Prop :=
  ∀ w : Word,
    (∀ o o' : Op, o.selects w = true → o'.selects w = true → o = o') ∧
    ((∀ o : Op, o.selects w = false) → decode w = .error .illegalCmd) ∧
    (∀ o : Op, o.selects w = true →
      let PD : PReg := Fin.ofNat 8 (bitField w 6 3)
      let PA : PReg := Fin.ofNat 8 (bitField w 9 3)
      let PB : PReg := Fin.ofNat 8 (bitField w 12 3)
      let W := bitField w 15 4
      decode w =
        match o with
        | .nop => .ok .nop
        | .ntt => .ok (.ntt PD PA)
        | .intt => .ok (.intt PD PA)
        | .pmul => .ok (.pmul PD PA PB)
        | .pmac => .ok (.pmac PD PA PB)
        | .padd => .ok (.padd PD PA PB)
        | .psub => .ok (.psub PD PA PB)
        | .pcopy => .ok (.pcopy PD PA)
        | .pzero => .ok (.pzero PD)
        | .compress =>
          if 1 ≤ W ∧ W ≤ 11 then .ok (.compress PD PA (BitVec.ofNat 4 W)) else .error .invalidParameter
        | .decompress =>
          if 1 ≤ W ∧ W ≤ 11 then .ok (.decompress PD PA (BitVec.ofNat 4 W)) else .error .invalidParameter
        | .encode =>
          if 1 ≤ W ∧ W ≤ 12 then .ok (.encode PA (BitVec.ofNat 4 W)) else .error .invalidParameter
        | .decode =>
          if 1 ≤ W ∧ W ≤ 12 then .ok (.decode PD (BitVec.ofNat 4 W)) else .error .invalidParameter
        | .sampleNtt =>
          .ok (.sampleNtt PD (BitVec.ofNat 8 (bitField w 15 8)) (BitVec.ofNat 8 (bitField w 23 8)))
        | .sampleCbd =>
          if W = 2 ∨ W = 3 then .ok (.sampleCbd PD (BitVec.ofNat 4 W)) else .error .invalidParameter)

/-- Illegal encodings (R101): a word is illegal exactly when its OPC is unassigned or a bit that its format
requires to be 0 is 1; issued while idle it changes only the error record and DONE. -/
def Obligations.IllegalWordsAreRejected : Prop :=
  ∀ w : Word,
    (decode w = .error .illegalCmd ↔
      ((0x09 ≤ bitField w 0 6 ∧ bitField w 0 6 ≤ 0x0F) ∨ (0x14 ≤ bitField w 0 6 ∧ bitField w 0 6 ≤ 0x1F) ∨
        (0x22 ≤ bitField w 0 6 ∧ bitField w 0 6 ≤ 0x2F) ∨ 0x30 ≤ bitField w 0 6) ∨
      ∃ o : Op, o.pattern.toNat % 64 = bitField w 0 6 ∧ w &&& (o.mask &&& 0xFFFFFFC0#32) ≠ 0) ∧
    ∀ s : State, s.busy = false → decode w = .error .illegalCmd →
      perform (.write 32 0x14 w) s =
        .next { s with err := true, errcode := if s.err then s.errcode else 1, done := true }

/-! ### Reset (spec/10_state.md R48, spec/70_reset_and_hazards.md) -/

/-- Power-on reset, and any CTRL write with SRST = 1, from any state, busy or not and whatever ABORT is, leave
every field of R21 at its reset value, identically; so does `State.reset`; the constants ID, ZETA and GAMMA
are what they were (R48, R292, R293). That the agenda stays is the model's choice, not the spec's (log 13). -/
def Obligations.ResetRestoresEveryField : Prop :=
  State.reset.AtReset ∧
  ∀ (s : State) (w : Word), w.getLsbD 0 = true →
    ∃ t, perform .powerReset s = .next t ∧ perform (.write 32 0x04 w) s = .next t ∧ t.AtReset ∧
      t.agenda = s.agenda ∧ t.readLoc .id = 0x4E545431#32 ∧
      ∀ i, i < 128 → t.readLoc (.zeta i) = s.readLoc (.zeta i) ∧ t.readLoc (.gamma i) = s.readLoc (.gamma i)

/-! ### The aperture (spec/20_memory.md) -/

/-- An access that is not 32 bits wide or not at a multiple of 4 has no effect but the error record, and a
read of that kind returns 0 (R65). -/
def Obligations.BadAccessHasNoEffect : Prop :=
  ∀ (s : State) (bits off : Nat) (w : Word), off < 0x4000 → (bits ≠ 32 ∨ off % 4 ≠ 0) →
    perform (.write bits off w) s =
      .next { s with err := true, errcode := if s.err then s.errcode else 5 } ∧
    perform (.read bits off) s =
      .next { s with err := true, errcode := if s.err then s.errcode else 5, rdata := 0 }

/-- A 32-bit aligned access to an unmapped offset behaves as a bad access, busy or not (R66). -/
def Obligations.UnmappedOffsetsAreBadAccesses : Prop :=
  ∀ (s : State) (off : Nat) (w : Word), off % 4 = 0 → unmapped off →
    perform (.write 32 off w) s =
      .next { s with err := true, errcode := if s.err then s.errcode else 5 } ∧
    perform (.read 32 off) s =
      .next { s with err := true, errcode := if s.err then s.errcode else 5, rdata := 0 }

/-- Within the aperture every aligned offset is mapped or unmapped, never both; no two offsets reach one
location (R67). An access at or past offset 0x4000 stops with `outsideAperture`, whatever its width: the
model's choice for what the block does not decode (log 2). -/
def Obligations.ApertureIsCoveredWithoutAliasing : Prop :=
  (∀ off, off < 0x4000 → off % 4 = 0 → ((locate off).isSome = true ↔ ¬ unmapped off)) ∧
  (∀ off off' l, off % 4 = 0 → off' % 4 = 0 → locate off = some l → locate off' = some l → off = off') ∧
  (∀ (s : State) (bits off : Nat) (w : Word), 0x4000 ≤ off →
    perform (.write bits off w) s = .fault .outsideAperture ∧
    perform (.read bits off) s = .fault .outsideAperture)

/-- Read-only locations (R68): a write to ID, ERRCODE or XOF_BYTES, and while idle to a word of the ZETA or
GAMMA window, has no effect but BAD_ACCESS; a read returns ID's constant, CODE, XOF_BYTES, and while idle
ZETA[i] or GAMMA[i], zero-extended (R27, R30, R35, R39, R40). -/
def Obligations.ReadOnlyLocations : Prop :=
  ∀ s : State,
    (∀ (off : Nat) (w : Word), off % 4 = 0 →
      (off = 0x00 ∨ off = 0x0C ∨ off = 0x1C ∨
        (s.busy = false ∧ ((0x600 ≤ off ∧ off ≤ 0x7FC) ∨ (0x800 ≤ off ∧ off ≤ 0x9FC)))) →
      perform (.write 32 off w) s =
        .next { s with err := true, errcode := if s.err then s.errcode else 5 }) ∧
    perform (.read 32 0x00) s = .next { s with rdata := 0x4E545431#32 } ∧
    perform (.read 32 0x0C) s = .next { s with rdata := BitVec.ofNat 32 s.errcode.toNat } ∧
    perform (.read 32 0x1C) s = .next { s with rdata := s.xofBytes } ∧
    (∀ i, i < 128 → s.busy = false →
      perform (.read 32 (0x600 + 4 * i)) s = .next { s with rdata := BitVec.ofNat 32 (zeta i).val } ∧
      perform (.read 32 (0x800 + 4 * i)) s = .next { s with rdata := BitVec.ofNat 32 (gamma i).val })

/-- Access while BUSY (R72). Busy or not, a read of CMD returns LASTCMD (R32) and a read of CTRL 0 (R28). While
BUSY the eight control registers can be read, and CTRL, STATUS and IRQ_EN written, with their normal effect; every
access to a window, and a write to COUNTER or CMD, has no effect but BUSY_ACCESS, a read returning 0; a write to
ID, ERRCODE or XOF_BYTES raises BAD_ACCESS. -/
def Obligations.AccessWhileBusy : Prop :=
  ∀ (s : State) (w : Word),
    perform (.read 32 0x14) s = .next { s with rdata := s.lastCmd } ∧
    perform (.read 32 0x04) s = .next { s with rdata := 0 } ∧
    (s.busy = true →
      (∀ off l, off % 4 = 0 → off ≤ 0x1C → locate off = some l →
        perform (.read 32 off) s = .next { s with rdata := s.readLoc l }) ∧
      s.readLoc .counter = BitVec.ofNat 32 s.counter.toNat ∧
      perform (.write 32 0x04 w) s = .next (s.writeCtrl w) ∧
      perform (.write 32 0x08 w) s = .next (s.writeStatus w) ∧
      perform (.write 32 0x10 w) s = .next (s.writeIrqEn w) ∧
      (∀ off, off % 4 = 0 → inWindow off →
        perform (.read 32 off) s =
          .next { s with err := true, errcode := if s.err then s.errcode else 4, rdata := 0 }) ∧
      (∀ off, off % 4 = 0 → (inWindow off ∨ off = 0x14 ∨ off = 0x18) →
        perform (.write 32 off w) s =
          .next { s with err := true, errcode := if s.err then s.errcode else 4 }) ∧
      (∀ off, (off = 0x00 ∨ off = 0x0C ∨ off = 0x1C) →
        perform (.write 32 off w) s =
          .next { s with err := true, errcode := if s.err then s.errcode else 5 }))

/-- The polynomial window while idle (R64, R70, R71): a write of a word below 3329 replaces that coefficient
and nothing else; any other word has no effect but RANGE_VIOLATION; a read returns the coefficient
zero-extended and changes nothing else. -/
def Obligations.PolynomialWindow : Prop :=
  ∀ (s : State) (p : PReg) (j : Nat) (w : Word), s.busy = false → j < 256 →
    (w.toNat < 3329 → ∃ t, perform (.write 32 (0x1000 + 0x400 * p.val + 4 * j) w) s = .next t ∧
      t = { s with P := t.P } ∧ (coefAt (t.poly p) j).val = w.toNat ∧
      (∀ r, r ≠ p → t.poly r = s.poly r) ∧
      (∀ k, k ≠ j → coefAt (t.poly p) k = coefAt (s.poly p) k)) ∧
    (3329 ≤ w.toNat → perform (.write 32 (0x1000 + 0x400 * p.val + 4 * j) w) s =
      .next { s with err := true, errcode := if s.err then s.errcode else 3 }) ∧
    perform (.read 32 (0x1000 + 0x400 * p.val + 4 * j)) s =
      .next { s with rdata := BitVec.ofNat 32 (coefAt (s.poly p) j).val }

/-- The BUF window while idle (R38, R63): a write stores the four bytes of the word at its four indices, the
least significant byte lowest, and nothing else; a read returns them so. The premise that BUF is canonical is
the invariant of StepKeepsInvariant (log 9). -/
def Obligations.BufferWindow : Prop :=
  ∀ (s : State) (k : Nat) (w : Word), s.busy = false → s.buf.wf = true → k < 96 →
    (∃ t, perform (.write 32 (0x400 + 4 * k) w) s = .next t ∧ t = { s with buf := t.buf } ∧
      t.buf.wf = true ∧
      (∀ b, (readByte t.buf b).toNat = if b / 4 = k then bitField w (8 * (b % 4)) 8 else (readByte s.buf b).toNat) ∧
      perform (.read 32 (0x400 + 4 * k)) t = .next { t with rdata := w }) ∧
    ∃ u, perform (.read 32 (0x400 + 4 * k)) s = .next u ∧ u = { s with rdata := u.rdata } ∧
      ∀ b, b / 4 = k → bitField u.rdata (8 * (b % 4)) 8 = (readByte s.buf b).toNat

/-- The two seed windows while idle (R36, R37, R63): as the BUF window. -/
def Obligations.SeedWindows : Prop :=
  ∀ (s : State) (k : Nat) (w : Word), s.busy = false → k < 8 →
    (∃ t, perform (.write 32 (0x20 + 4 * k) w) s = .next t ∧ t = { s with rho := t.rho } ∧
      (∀ b, b < 32 → (seedAt t.rho b).toNat =
        if b / 4 = k then bitField w (8 * (b % 4)) 8 else (seedAt s.rho b).toNat) ∧
      perform (.read 32 (0x20 + 4 * k)) t = .next { t with rdata := w }) ∧
    (∃ t, perform (.write 32 (0x40 + 4 * k) w) s = .next t ∧ t = { s with sig := t.sig } ∧
      (∀ b, b < 32 → (seedAt t.sig b).toNat =
        if b / 4 = k then bitField w (8 * (b % 4)) 8 else (seedAt s.sig b).toNat) ∧
      perform (.read 32 (0x40 + 4 * k)) t = .next { t with rdata := w })

/-- Reserved bits (R69): those of CTRL, STATUS, IRQ_EN and COUNTER read 0 in every state, and a write acts as
if they were 0; a write of reserved bits alone changes nothing in CTRL and STATUS, and a write to IRQ_EN, or
while idle to COUNTER, raises no error whatever its reserved bits are. -/
def Obligations.ReservedBits : Prop :=
  ∀ (s : State) (w : Word),
    (s.readLoc .ctrl).toNat = 0 ∧ (s.readLoc .status).toNat < 16 ∧ (s.readLoc .irqEn).toNat < 4 ∧
    (s.readLoc .counter).toNat < 256 ∧
    perform (.write 32 0x04 w) s = perform (.write 32 0x04 (w &&& 0x3#32)) s ∧
    perform (.write 32 0x08 w) s = perform (.write 32 0x08 (w &&& 0xF#32)) s ∧
    perform (.write 32 0x10 w) s = perform (.write 32 0x10 (w &&& 0x3#32)) s ∧
    perform (.write 32 0x18 w) s = perform (.write 32 0x18 (w &&& 0xFF#32)) s ∧
    (w &&& 0x3#32 = 0 → perform (.write 32 0x04 w) s = .next s) ∧
    (w &&& 0xF#32 = 0 → perform (.write 32 0x08 w) s = .next s) ∧
    (∃ t, perform (.write 32 0x10 w) s = .next t ∧ t.err = s.err ∧ t.errcode = s.errcode) ∧
    (s.busy = false →
      ∃ t, perform (.write 32 0x18 w) s = .next t ∧ t.err = s.err ∧ t.errcode = s.errcode)

/-- A read that raises no error changes only what it returned, and a second one returns the same (R73). -/
def Obligations.ReadsHaveNoSideEffect : Prop :=
  ∀ (s : State) (off : Nat) (l : Loc), off % 4 = 0 → locate off = some l →
    (s.busy = false ∨ busyRefusesRead l = false) →
    ∃ t, perform (.read 32 off) s = .next t ∧ t = { s with rdata := t.rdata } ∧
      perform (.read 32 off) t = .next t

/-! ### Control and status registers (spec/10_state.md) -/

/-- STATUS, busy or not (R29, R30): a read returns BUSY, DONE, ERR and CTR_EXH in bits 0 to 3; a write clears
DONE and ERR where it writes 1 and changes nothing else, and clearing ERR makes CODE 0. -/
def Obligations.StatusWriteOneToClear : Prop :=
  ∀ (s : State) (w : Word),
    perform (.read 32 0x08) s = .next { s with
      rdata := BitVec.ofNat 32 (s.busy.toNat + 2 * s.done.toNat + 4 * s.err.toNat + 8 * s.ctrExh.toNat) } ∧
    perform (.write 32 0x08 w) s = .next { s with
      done := s.done && !w.getLsbD 1
      err := s.err && !w.getLsbD 2
      errcode := if w.getLsbD 2 then 0 else s.errcode }

/-- IRQ_EN and the interrupt line, busy or not (R31, R42): IRQ is `(DONE ∧ DONE_IE) ∨ (ERR ∧ ERR_IE)`; IRQ_EN
reads and writes its two enables; writing 1 to both cause bits of STATUS makes IRQ fall in that access; IRQ is
0 after reset. -/
def Obligations.InterruptLevel : Prop :=
  State.reset.irq = false ∧
  ∀ (s : State) (w : Word),
    (s.irq = true ↔ (s.done = true ∧ s.ieDone = true) ∨ (s.err = true ∧ s.ieErr = true)) ∧
    perform (.read 32 0x10) s =
      .next { s with rdata := BitVec.ofNat 32 (s.ieDone.toNat + 2 * s.ieErr.toNat) } ∧
    perform (.write 32 0x10 w) s = .next { s with ieDone := w.getLsbD 0, ieErr := w.getLsbD 1 } ∧
    ∃ t, perform (.write 32 0x08 0x6#32) s = .next t ∧ t.irq = false

/-- COUNTER while idle (R33): a read returns the byte zero-extended; a write stores wdata[7:0] and clears
CTR_EXH, and nothing else. -/
def Obligations.CounterRegister : Prop :=
  ∀ (s : State) (w : Word), s.busy = false →
    perform (.read 32 0x18) s = .next { s with rdata := BitVec.ofNat 32 s.counter.toNat } ∧
    perform (.write 32 0x18 w) s =
      .next { s with counter := BitVec.ofNat 8 (w.toNat % 256), ctrExh := false }

/-! ### Errors and the life of a command (spec/60_exceptions.md) -/

/-- Recording an error (R252): the first error since ERR was last 0 is kept, later ones keep ERR at 1;
clearing ERR makes CODE 0 in the same access; nothing else is recorded. The codes are the numbers of R251. -/
def Obligations.FirstErrorIsKept : Prop :=
  (∀ (s : State) (e : ErrorCode),
    s.raise e = { s with err := true, errcode := if s.err = false then e.bits else s.errcode }) ∧
  (∀ (s : State) (e e' : ErrorCode), s.err = false → ((s.raise e).raise e').errcode = e.bits) ∧
  (∀ s : State, perform (.write 32 0x08 0x4#32) s = .next { s with err := false, errcode := 0 }) ∧
  ErrorCode.illegalCmd.bits = 1 ∧ ErrorCode.invalidParameter.bits = 2 ∧ ErrorCode.rangeViolation.bits = 3 ∧
  ErrorCode.busyAccess.bits = 4 ∧ ErrorCode.badAccess.bits = 5 ∧ ErrorCode.aborted.bits = 6 ∧
  ErrorCode.counterExhausted.bits = 7

/-- Precision (R253): a host access other than an ABORT that raises an error changes no state but the error
record, what a read returned, and DONE where a command was issued. ABORT's own effect is R258's. -/
def Obligations.ErrorsChangeNothingElse : Prop :=
  ∀ (s t : State) (e : Event), (∀ n, e ≠ .engine n) → s.err = false → perform e s = .next t →
    t.err = true → (∀ w : Word, e = .write 32 0x04 w → w.getLsbD 1 = false) →
    t = { s with err := true, errcode := t.errcode, done := t.done, rdata := t.rdata } ∧
    (t.done ≠ s.done → ∃ w, e = .write 32 0x14 w) ∧
    (t.rdata ≠ s.rdata → ∃ bits off, e = .read bits off)

/-- Acceptance (R256): a word written to CMD while idle that passes every check becomes PENDING and LASTCMD,
sets BUSY and clears DONE; ERR, ERRCODE and everything else are unchanged. -/
def Obligations.IssueAccepts : Prop :=
  ∀ (s : State) (w : Word) (i : Instr), s.busy = false → validate w s = .ok i →
    perform (.write 32 0x14 w) s =
      .next { s with pending := some i, lastCmd := w, busy := true, done := false }

/-- Rejection (R255): a word written to CMD while idle that fails a check records that error and sets DONE;
BUSY, PENDING, LASTCMD and everything else are unchanged. -/
def Obligations.IssueRejects : Prop :=
  ∀ (s : State) (w : Word) (e : ErrorCode), s.busy = false → validate w s = .error e →
    perform (.write 32 0x14 w) s =
      .next { s with err := true, errcode := if s.err then s.errcode else e.bits, done := true }

/-- Precedence (R260). Host access: width and alignment, then unmapped, then BUSY_ACCESS, then read-only, then
a coefficient of 3329 or more. Command issue: ILLEGAL_CMD, then INVALID_PARAMETER, then COUNTER_EXHAUSTED for
SAMPLE_CBD, then RANGE_VIOLATION for ENCODE with d < 12 and for DECOMPRESS. -/
def Obligations.ChecksInOrder : Prop :=
  (∀ (s : State) (bits off : Nat) (w : Word), off < 0x4000 →
    perform (.write bits off w) s =
      if bits ≠ 32 ∨ off % 4 ≠ 0 then .next (s.raise .badAccess)
      else match locate off with
        | none => .next (s.raise .badAccess)
        | some l =>
          if s.busy = true ∧ (inWindow off ∨ off = 0x14 ∨ off = 0x18) then .next (s.raise .busyAccess)
          else if off = 0x00 ∨ off = 0x0C ∨ off = 0x1C ∨ (0x600 ≤ off ∧ off ≤ 0x9FC) then
            .next (s.raise .badAccess)
          else if 0x1000 ≤ off ∧ 3329 ≤ w.toNat then .next (s.raise .rangeViolation)
          else .next (s.writeLoc w l)) ∧
  (∀ (s : State) (bits off : Nat), off < 0x4000 →
    perform (.read bits off) s =
      if bits ≠ 32 ∨ off % 4 ≠ 0 then .next (s.failRead .badAccess)
      else match locate off with
        | none => .next (s.failRead .badAccess)
        | some l =>
          if s.busy = true ∧ inWindow off then .next (s.failRead .busyAccess)
          else .next { s with rdata := s.readLoc l }) ∧
  (∀ (s : State) (w : Word),
    (decode w = .error .illegalCmd → validate w s = .error .illegalCmd) ∧
    (decode w = .error .invalidParameter → validate w s = .error .invalidParameter) ∧
    (∀ i, decode w = .ok i →
      ((∃ pd eta, i = .sampleCbd pd eta) ∧ s.ctrExh = true → validate w s = .error .counterExhausted) ∧
      ((∃ pa d, i = .encode pa d ∧ d.toNat < 12 ∧
          ∃ j, j < 256 ∧ 2 ^ d.toNat ≤ (coefAt (s.poly pa) j).val) ∨
        (∃ pd pa d, i = .decompress pd pa d ∧
          ∃ j, j < 256 ∧ 2 ^ d.toNat ≤ (coefAt (s.poly pa) j).val) →
        validate w s = .error .rangeViolation) ∧
      (¬ ((∃ pd eta, i = .sampleCbd pd eta) ∧ s.ctrExh = true) →
        (∀ pa d, i = .encode pa d → d.toNat < 12 →
          ∀ j, j < 256 → (coefAt (s.poly pa) j).val < 2 ^ d.toNat) →
        (∀ pd pa d, i = .decompress pd pa d → ∀ j, j < 256 → (coefAt (s.poly pa) j).val < 2 ^ d.toNat) →
        validate w s = .ok i)))

/-- A CMD write while BUSY is not decoded: it raises BUSY_ACCESS and changes nothing else (R259). -/
def Obligations.CmdWriteWhileBusy : Prop :=
  ∀ (s : State) (w : Word), s.busy = true →
    perform (.write 32 0x14 w) s =
      .next { s with err := true, errcode := if s.err then s.errcode else 4 }

/-- Abort (R258): with ABORT = 1 and SRST = 0, a busy block drops the pending command, sets DONE and records
ABORTED, and changes nothing else; an idle block does nothing. -/
def Obligations.AbortDropsThePendingCommand : Prop :=
  ∀ (s : State) (w : Word), w.getLsbD 0 = false → w.getLsbD 1 = true →
    (s.busy = true → perform (.write 32 0x04 w) s =
      .next { s with pending := none, busy := false, done := true, err := true,
                     errcode := if s.err then s.errcode else 6 }) ∧
    (s.busy = false → perform (.write 32 0x04 w) s = .next s)

/-- Completion (R257): the engine's turn performs the pending command's meaning; a command that completes
ends idle with DONE = 1 and the error record untouched. Two clauses are the model's choice, not the spec's: a turn
with nothing pending changes nothing (log 6), and whether a SAMPLE_NTT completes is decided by the chunks
delivered by the turn, which changes nothing while they hold fewer than 256 acceptances (log 5). -/
def Obligations.EngineCompletesPendingCommand : Prop :=
  (∀ (s : State) (n : Nat), s.pending = none → perform (.engine n) s = .next s) ∧
  (∀ (s : State) (n : Nat) (i : Instr), s.pending = some i →
    perform (.engine n) s = exec i { s with xofReady := n }) ∧
  (∀ (s : State) (i : Instr), s.Completes i →
    ∃ t, exec i s = .next t ∧ t.pending = none ∧ t.busy = false ∧ t.done = true ∧
      t.err = s.err ∧ t.errcode = s.errcode) ∧
  (∀ (s : State) (pd : PReg) (b32 b33 : Byte),
    (accepted (s.xofStream (xofInput s.rho b32 b33)) s.xofReady).length < 256 →
    exec (.sampleNtt pd b32 b33) s = .next s)

/-- ABORT and completion in either order (R264): an ABORT before the completion commits no result of the
command; after a completion the ABORT changes nothing. That the engine's turn after the ABORT, with nothing
pending, changes nothing is the model's choice (log 6). -/
def Obligations.AbortAndCompletionInEitherOrder : Prop :=
  ∀ (s : State) (n : Nat) (w : Word), s.busy = true → w.getLsbD 0 = false → w.getLsbD 1 = true →
    (∃ t, perform (.write 32 0x04 w) s = .next t ∧ perform (.engine n) t = .next t ∧
      t.P = s.P ∧ t.buf = s.buf ∧ t.counter = s.counter ∧ t.ctrExh = s.ctrExh ∧ t.xofBytes = s.xofBytes) ∧
    (∀ t, perform (.engine n) s = .next t → t.busy = false → perform (.write 32 0x04 w) t = .next t)

/-- A step runs the decoded command: an issue that passes its checks, then the engine's turn, run exactly the
meaning of the command the word decodes to; the step takes the event off the agenda (log 1). -/
def Obligations.StepRunsTheDecodedCommand : Prop :=
  ∀ (s : State) (w : Word) (i : Instr) (n : Nat) (rest : List Event), s.busy = false →
    s.agenda = .write 32 0x14 w :: .engine n :: rest → decode w = .ok i → stateCheck i s = none →
    ∃ t, step s = .next t ∧
      t = { s with pending := some i, lastCmd := w, busy := true, done := false,
                   agenda := .engine n :: rest } ∧
      step t = exec i { t with agenda := rest, xofReady := n }

/-- A placed command runs in the very next step: the model's convention for loading a program (log 7). A word
that decodes and passes its checks is run; one that does not is rejected, as its issue rejects it. -/
def Obligations.PlacedCommandRunsNext : Prop :=
  ∀ (s : State) (w : Nat), s.busy = false →
    (∀ i, decodeTableWord 32 w = some i → stateCheck i s = none →
      step (s.withFetchWord 32 w) = exec i { s with
        pending := some i, lastCmd := tableWord 32 w, busy := true, done := false,
        xofReady := Config.loaderChunks }) ∧
    (∀ e, validate (tableWord 32 w) s = .error e → step (s.withFetchWord 32 w) = .next (s.reject e))

/-! ### Rules about the whole machine -/

/-- The invariant holds after reset: the spec's reset values, and the model's empty agenda and tables
(logs 1, 4, 9). -/
def Obligations.ResetMeetsInvariant : Prop := State.reset.Inv

/-- From every state that meets the invariant, every step that answers a next state keeps it (R30, R35, R41,
R184, R190, R251, R252, R256; the canonical form of BUF is the model's, log 9). -/
def Obligations.StepKeepsInvariant : Prop :=
  ∀ s t : State, s.Inv → step s = .next t → t.Inv

/-- While BUSY no host access but a CTRL write that resets or aborts changes an operand, a result, the counter
or the pending command (R72, R297): what a command reads at completion is what stood there at its issue. -/
def Obligations.OperandsFixedWhileBusy : Prop :=
  ∀ (s t : State) (e : Event), s.busy = true → (∀ n, e ≠ .engine n) → e ≠ .powerReset →
    (∀ w : Word, e = .write 32 0x04 w → w.getLsbD 0 = false ∧ w.getLsbD 1 = false) →
    perform e s = .next t →
    t.P = s.P ∧ t.buf = s.buf ∧ t.rho = s.rho ∧ t.sig = s.sig ∧ t.counter = s.counter ∧
    t.ctrExh = s.ctrExh ∧ t.xofBytes = s.xofBytes ∧ t.lastCmd = s.lastCmd ∧ t.pending = s.pending ∧
    t.busy = true

/-- The writers of a polynomial register (R25): a step that changes P[p] completes a pending command whose PD
is p, or writes a word below 3329 to p's window while idle, or resets. -/
def Obligations.OnlyItsWritersChangeRegister : Prop :=
  ∀ (s t : State) (p : PReg), step s = .next t → t.poly p ≠ s.poly p →
    ∃ (e : Event) (rest : List Event), s.agenda = e :: rest ∧
      ((∃ n i, e = .engine n ∧ s.pending = some i ∧ dest i = some p) ∨
       (∃ j w, j < 256 ∧ e = .write 32 (0x1000 + 0x400 * p.val + 4 * j) w ∧ s.busy = false ∧ w.toNat < 3329) ∨
       e = .powerReset ∨
       (∃ w, e = .write 32 0x04 w ∧ w.getLsbD 0 = true))

/-- The readers of a polynomial register (R25): a command's result does not depend on a register it does not
name as a source, whatever value that register holds. Where the command completes and the register is its PD, the
value written there is the same; otherwise the register keeps the value it held. (Whether a SAMPLE_NTT completes
is decided by the chunks delivered: the model's choice, log 5.) -/
def Obligations.OnlyItsReadersDependOnRegister : Prop :=
  ∀ (i : Instr) (s t : State) (p : PReg) (v : PolyVal), p ∉ sources i → exec i s = .next t →
    ∃ t', exec i (s.setPoly p v) = .next t' ∧ t' = { t with P := t'.P } ∧
      (∀ r, r ≠ p → t'.poly r = t.poly r) ∧
      (dest i = some p ∧ s.Completes i → t'.poly p = t.poly p) ∧
      (¬ (dest i = some p ∧ s.Completes i) → t'.poly p = v)

/-- Internal data movement (R81): only ENCODE writes BUF and only ENCODE and DECODE depend on it; no command
writes a seed; only SAMPLE_NTT depends on RHO and only SAMPLE_CBD on SIG. -/
def Obligations.InternalDataMovement : Prop :=
  ∀ (i : Instr) (s t : State), exec i s = .next t →
    t.rho = s.rho ∧ t.sig = s.sig ∧
    ((∀ pa d, i ≠ .encode pa d) → t.buf = s.buf) ∧
    (∀ m, (∀ pa d, i ≠ .encode pa d) → (∀ pd d, i ≠ .decode pd d) →
      exec i { s with buf := m } = .next { t with buf := m }) ∧
    (∀ v, (∀ pd b32 b33, i ≠ .sampleNtt pd b32 b33) →
      exec i { s with rho := v } = .next { t with rho := v }) ∧
    (∀ v, (∀ pd eta, i ≠ .sampleCbd pd eta) →
      exec i { s with sig := v } = .next { t with sig := v })

/-- The frame of every command: what a completion leaves as it was. Registers: all but PD. BUF: every byte,
but for ENCODE the bytes 0 .. 32·d − 1 it stores to. Flags: ERR, CODE and the interrupt enables, and CTR_EXH but
for SAMPLE_CBD. COUNTER but for SAMPLE_CBD, XOF_BYTES but for SAMPLE_NTT (R35), LASTCMD, the seeds, and the
model's own fields. The premise that BUF is canonical is the invariant of StepKeepsInvariant (log 9). -/
def Obligations.CommandFrames : Prop :=
  ∀ (i : Instr) (s t : State), i.wellFormed = true → s.buf.wf = true → exec i s = .next t →
    (∀ r, dest i ≠ some r → t.poly r = s.poly r) ∧
    (∀ b, (∀ pa d, i = .encode pa d → 32 * d.toNat ≤ b) → readByte t.buf b = readByte s.buf b) ∧
    t.err = s.err ∧ t.errcode = s.errcode ∧ t.ieDone = s.ieDone ∧ t.ieErr = s.ieErr ∧
    ((∀ pd eta, i ≠ .sampleCbd pd eta) → t.counter = s.counter ∧ t.ctrExh = s.ctrExh) ∧
    ((∀ pd b32 b33, i ≠ .sampleNtt pd b32 b33) → t.xofBytes = s.xofBytes) ∧
    t.lastCmd = s.lastCmd ∧ t.rho = s.rho ∧ t.sig = s.sig ∧ t.agenda = s.agenda ∧ t.rdata = s.rdata ∧
    t.xofReady = s.xofReady ∧ t.xofOracle = s.xofOracle ∧ t.prfOracle = s.prfOracle

/-! ### The mod-q unit (spec/40_modarith.md) -/

/-- NOP (R120): the only legal word is 0; any other word of OPC 0 is rejected with ILLEGAL_CMD; issued while
idle it goes BUSY; it completes without touching any register. -/
def Obligations.NopEffect : Prop :=
  (∀ s : State, exec .nop s = .next { s with pending := none, busy := false, done := true }) ∧
  (∀ w : Word, decode w = .ok .nop ↔ w = 0) ∧
  EncodingErrors 0x00 [(6, 26)] (fun _ => True) ∧
  (∀ s : State, s.busy = false → perform (.write 32 0x14 0) s =
    .next { s with pending := some .nop, lastCmd := 0, busy := true, done := false })

/-- PADD and PSUB (R121, R122): coefficient-wise sum and difference mod 3329 of the old PA and PB into PD,
nothing else but the end of the command; a 1 in [31:15] is rejected with ILLEGAL_CMD. -/
def Obligations.PaddPsubEffect : Prop :=
  (∀ (s : State) (pd pa pb : PReg),
    (∃ t, exec (.padd pd pa pb) s = .next t ∧ s.CommitsOnly t pd ∧
      ∀ j, j < 256 → (coefAt (t.poly pd) j).val =
        ((coefAt (s.poly pa) j).val + (coefAt (s.poly pb) j).val) % 3329) ∧
    (∃ t, exec (.psub pd pa pb) s = .next t ∧ s.CommitsOnly t pd ∧
      ∀ j, j < 256 → ((coefAt (t.poly pd) j).val : Int) =
        (((coefAt (s.poly pa) j).val : Int) - (coefAt (s.poly pb) j).val) % 3329)) ∧
  EncodingErrors 0x05 [(15, 17)] (fun _ => True) ∧ EncodingErrors 0x06 [(15, 17)] (fun _ => True)

/-- PCOPY and PZERO (R123, R124): the old PA, or 256 zeros, into PD, nothing else but the end of the command;
a 1 outside their fields is rejected with ILLEGAL_CMD. -/
def Obligations.PcopyPzeroEffect : Prop :=
  (∀ (s : State) (pd pa : PReg),
    (∃ t, exec (.pcopy pd pa) s = .next t ∧ s.CommitsOnly t pd ∧ t.poly pd = s.poly pa) ∧
    (∃ t, exec (.pzero pd) s = .next t ∧ s.CommitsOnly t pd ∧ ∀ j, j < 256 → coefAt (t.poly pd) j = 0)) ∧
  EncodingErrors 0x07 [(12, 3), (15, 17)] (fun _ => True) ∧
  EncodingErrors 0x08 [(9, 3), (12, 3), (15, 17)] (fun _ => True)

/-! ### The codec (spec/41_codec.md) -/

/-- BitsToBytes and BytesToBits (R150, R151, R152): where each bit goes, and that each undoes the other. -/
def Obligations.BitPacking : Prop :=
  (∀ b : List Bool, b.length % 8 = 0 →
    (bitsToBytes b).length = b.length / 8 ∧
    (∀ i, i < b.length → ((bitsToBytes b).getD (i / 8) 0).getLsbD (i % 8) = b.getD i false) ∧
    bytesToBits (bitsToBytes b) = b) ∧
  (∀ B : List Byte,
    (bytesToBits B).length = 8 * B.length ∧
    (∀ i, i < 8 * B.length → (bytesToBits B).getD i false = (B.getD (i / 8) 0).getLsbD (i % 8)) ∧
    bitsToBytes (bytesToBits B) = B)

/-- COMPRESS (R155): Compress_d of every coefficient of the old PA into PD, for every d in [1, 11]; each result
is below 2^d; nothing else but the end of the command. A 1 in [14:12] or [31:19] is rejected with ILLEGAL_CMD,
and a d outside [1, 11] with INVALID_PARAMETER. -/
def Obligations.CompressEffect : Prop :=
  (∀ (s : State) (pd pa : PReg) (d : BitVec 4), 1 ≤ d.toNat → d.toNat ≤ 11 →
    ∃ t, exec (.compress pd pa d) s = .next t ∧ s.CommitsOnly t pd ∧
      ∀ j, j < 256 →
        (coefAt (t.poly pd) j).val =
          ((coefAt (s.poly pa) j).val * 2 ^ d.toNat + 1664) / 3329 % 2 ^ d.toNat ∧
        (coefAt (t.poly pd) j).val < 2 ^ d.toNat) ∧
  EncodingErrors 0x10 [(12, 3), (19, 13)] (fun W => 1 ≤ W ∧ W ≤ 11)

/-- DECOMPRESS (R157): Decompress_d of every coefficient of the old PA into PD, for every d in [1, 11];
nothing else but the end of the command. Issued while idle with a source coefficient of 2^d or more it is
rejected with RANGE_VIOLATION and no register changes; a 1 in [14:12] or [31:19] is rejected with ILLEGAL_CMD,
and a d outside [1, 11] with INVALID_PARAMETER. The integer form of Decompress_d is the spec's own reading (R156),
and that a completion outside the domain, which no issue leads to, computes the same formula is log 8. -/
def Obligations.DecompressEffect : Prop :=
  EncodingErrors 0x11 [(12, 3), (19, 13)] (fun W => 1 ≤ W ∧ W ≤ 11) ∧
  ∀ (s : State) (pd pa : PReg) (d : BitVec 4), 1 ≤ d.toNat → d.toNat ≤ 11 →
    (∃ t, exec (.decompress pd pa d) s = .next t ∧ s.CommitsOnly t pd ∧
      ∀ j, j < 256 → (coefAt (t.poly pd) j).val =
        (3329 * (coefAt (s.poly pa) j).val + 2 ^ (d.toNat - 1)) / 2 ^ d.toNat % 3329) ∧
    (∀ j, j < 256 → 2 ^ d.toNat ≤ (coefAt (s.poly pa) j).val → s.busy = false →
      perform (.write 32 0x14 (encode (.decompress pd pa d))) s =
        .next { s with err := true, errcode := if s.err then s.errcode else 3, done := true })

/-- ENCODE (R159, R163): for every d in [1, 12], bit `k` of BUF[b] for b < 32·d becomes bit `8·b + k` of the
coefficients' bits; bytes from 32·d on, every register and everything else stay, but for the end of the
command. Issued while idle with d < 12 and a coefficient of 2^d or more it is rejected with RANGE_VIOLATION and
BUF is not written; a 1 in [8:6], [14:12] or [31:19] is rejected with ILLEGAL_CMD, and a d outside [1, 12] with
INVALID_PARAMETER. The order of a coefficient's bits is the spec's own (R159; log 10). The model's are: that BUF is
canonical before and after (log 9), and that a completion outside the domain computes the same bits (log 8). -/
def Obligations.EncodeEffect : Prop :=
  EncodingErrors 0x12 [(6, 3), (12, 3), (19, 13)] (fun W => 1 ≤ W ∧ W ≤ 12) ∧
  ∀ (s : State) (pa : PReg) (d : BitVec 4), 1 ≤ d.toNat → d.toNat ≤ 12 → s.buf.wf = true →
    (∃ t, exec (.encode pa d) s = .next t ∧
      t = { s with buf := t.buf, pending := none, busy := false, done := true } ∧ t.buf.wf = true ∧
      (∀ b, b < 32 * d.toNat → ∀ k, k < 8 →
        (readByte t.buf b).getLsbD k = encodedBit d.toNat (s.poly pa) (8 * b + k)) ∧
      (∀ b, 32 * d.toNat ≤ b → readByte t.buf b = readByte s.buf b)) ∧
    (∀ j, j < 256 → d.toNat < 12 → 2 ^ d.toNat ≤ (coefAt (s.poly pa) j).val → s.busy = false →
      perform (.write 32 0x14 (encode (.encode pa d))) s =
        .next { s with err := true, errcode := if s.err then s.errcode else 3, done := true })

/-- DECODE (R160, R165): for every d in [1, 12], coefficient i of PD becomes the number of the d bits from bit
i·d of BUF on, mod 2^d, or mod 3329 for d = 12; BUF and everything else stay, but for the end of the command.
A 1 in [14:9] or [31:19] is rejected with ILLEGAL_CMD, and a d outside [1, 12] with INVALID_PARAMETER. The order
of a field's bits is the spec's own (R160; log 10). -/
def Obligations.DecodeEffect : Prop :=
  EncodingErrors 0x13 [(9, 3), (12, 3), (19, 13)] (fun W => 1 ≤ W ∧ W ≤ 12) ∧
  ∀ (s : State) (pd : PReg) (d : BitVec 4), 1 ≤ d.toNat → d.toNat ≤ 12 →
    ∃ t, exec (.decode pd d) s = .next t ∧ s.CommitsOnly t pd ∧ t.buf = s.buf ∧
      ∀ i, i < 256 → (coefAt (t.poly pd) i).val =
        ((List.range d.toNat).map fun k =>
          (stringBit (readByte s.buf) (i * d.toNat + k)).toNat * 2 ^ k).sum %
          (if d.toNat < 12 then 2 ^ d.toNat else 3329)

/-- The lossiness laws (R158): Compress_d undoes Decompress_d on every y below 2^d; Decompress_d after
Compress_d is at most E_d away from its input, and E_d is attained. -/
def Obligations.CompressionLoss : Prop :=
  ∀ d, 1 ≤ d → d ≤ 11 →
    (∀ y : Coef, y.val < 2 ^ d → compressCoef d (decompressCoef d y) = y) ∧
    (∀ x : Coef, residueDistance (decompressCoef d (compressCoef d x)) x ≤ lossBound.getD (d - 1) 0) ∧
    (∃ x : Coef, residueDistance (decompressCoef d (compressCoef d x)) x = lossBound.getD (d - 1) 0)

/-- The codec round trip (R167): for every d in [1, 12] and every polynomial in the domain, the encoding
has 32·d bytes (R159) and decodes back; so a DECODE of the same d after an ENCODE restores the register. The
premise s.buf.wf, that BUF is canonical, is the model's (log 9) and part of the invariant of StepKeepsInvariant. -/
def Obligations.CodecRoundTrip : Prop :=
  (∀ (d : Nat) (F : PolyVal), 1 ≤ d → d ≤ 12 → (d < 12 → allBelow F (2 ^ d) = true) →
    (byteEncode d F).length = 32 * d ∧ byteDecode d (byteEncode d F) = F) ∧
  (∀ (s t : State) (pa pd : PReg) (d : BitVec 4), 1 ≤ d.toNat → d.toNat ≤ 12 → s.buf.wf = true →
    (d.toNat < 12 → allBelow (s.poly pa) (2 ^ d.toNat) = true) → exec (.encode pa d) s = .next t →
    ∃ u, exec (.decode pd d) t = .next u ∧ u.poly pd = s.poly pa)

/-- Boundary reduction at d = 12 (R166): encoding after decoding gives the byte string back exactly when every
12-bit field of it is below 3329; a field v of 3329 or more decodes to v − 3329. This is the spec's own derivation,
over its own order of a field's bits (log 10). -/
def Obligations.DecodeBoundaryReduction : Prop :=
  ∀ B : List Byte, B.length = 384 →
    (byteEncode 12 (byteDecode 12 B) = B ↔
      ∀ i, i < 256 → bitsValue (((bytesToBits B).drop (i * 12)).take 12) < 3329) ∧
    (∀ i, i < 256 → 3329 ≤ bitsValue (((bytesToBits B).drop (i * 12)).take 12) →
      (coefAt (byteDecode 12 B) i).val = bitsValue (((bytesToBits B).drop (i * 12)).take 12) - 3329)

/-! ### The samplers (spec/42_sampler.md) -/

/-- SAMPLE_NTT (R180, R182): when the chunks delivered by the engine's turn hold 256 acceptances, PD becomes the
first 256 of them in stream order and XOF_BYTES three times the least number of chunks that hold them,
saturating, at least 128 chunks (R184, the spec's own derivation); nothing else but the end of the command. The
stream is that of RHO ‖ B32 ‖ B33. A 1 in [14:9] or [31] is rejected with ILLEGAL_CMD. The model's choices: the
stream's values are the open parameter xof (log 4), and how many chunks a turn brings is the schedule's (log 5).
That a chunk is read little-endian is the spec's general knowledge (R181; log 10). -/
def Obligations.SampleNttEffect : Prop :=
  EncodingErrors 0x20 [(9, 6), (31, 1)] (fun _ => True) ∧
  ∀ (s : State) (pd : PReg) (b32 b33 : Byte),
    (∀ b, b < 34 → seedAt (xofInput s.rho b32 b33) b =
      if b < 32 then seedAt s.rho b else if b = 32 then b32 else b33) ∧
    (256 ≤ (accepted (s.xofStream (xofInput s.rho b32 b33)) s.xofReady).length →
    ∃ t m, exec (.sampleNtt pd b32 b33) s = .next t ∧
      t = { s with P := t.P, xofBytes := t.xofBytes, pending := none, busy := false, done := true } ∧
      (∀ r, r ≠ pd → t.poly r = s.poly r) ∧
      (∀ j, j < 256 → (coefAt (t.poly pd) j).val =
        (accepted (s.xofStream (xofInput s.rho b32 b33)) s.xofReady).getD j 0) ∧
      256 ≤ (accepted (s.xofStream (xofInput s.rho b32 b33)) m).length ∧
      (∀ m', m' < m → (accepted (s.xofStream (xofInput s.rho b32 b33)) m').length < 256) ∧
      t.xofBytes.toNat = min (3 * m) 0xFFFFFFFF ∧ 128 ≤ m)

/-- SAMPLE_NTT without 256 acceptances (R183): the engine's turn changes nothing but the model's chunk count
(log 5), so the command stays pending and BUSY; the result of a turn that completes it does not depend on how
many more chunks the turn brings. -/
def Obligations.SampleNttWaitsForItsStream : Prop :=
  ∀ (s : State) (pd : PReg) (b32 b33 : Byte) (n n' : Nat), s.pending = some (.sampleNtt pd b32 b33) →
    ((accepted (s.xofStream (xofInput s.rho b32 b33)) n).length < 256 →
      perform (.engine n) s = .next { s with xofReady := n }) ∧
    (256 ≤ (accepted (s.xofStream (xofInput s.rho b32 b33)) n).length → n ≤ n' →
      ∃ t, perform (.engine n) s = .next t ∧ t.pending = none ∧
        perform (.engine n') s = .next { t with xofReady := n' })

/-- SAMPLE_CBD (R186, R187, R188): for eta 2 and 3, coefficient i of PD becomes (x − y) mod 3329, x and y the
numbers of ones among the eta bits from bit 2·i·eta and the next eta bits of the PRF's answer to the eta, SIG and
COUNTER before the command; it is a residue of −eta..eta. COUNTER advances by one, but 255 stays and sets
CTR_EXH. Nothing else changes but the end of the command. The answer is the open parameter prf (log 4). A 1 in
[14:9] or [31:19] is rejected with ILLEGAL_CMD, and an eta other than 2 and 3 with INVALID_PARAMETER. The bit
index is the spec's own derivation (R186; log 10). -/
def Obligations.SampleCbdEffect : Prop :=
  EncodingErrors 0x21 [(9, 3), (12, 3), (19, 13)] (fun W => W = 2 ∨ W = 3) ∧
  ∀ (s : State) (pd : PReg) (eta : BitVec 4), (eta.toNat = 2 ∨ eta.toNat = 3) →
    ∃ t, exec (.sampleCbd pd eta) s = .next t ∧
      t = { s with P := t.P, counter := t.counter, ctrExh := t.ctrExh, pending := none, busy := false,
                   done := true } ∧
      (∀ r, r ≠ pd → t.poly r = s.poly r) ∧
      (∀ i, i < 256 → ((coefAt (t.poly pd) i).val : Int) =
        ((onesIn (seedAt (s.prfBytes eta.toNat s.sig s.counter)) (2 * i * eta.toNat) eta.toNat : Int) -
          onesIn (seedAt (s.prfBytes eta.toNat s.sig s.counter)) (2 * i * eta.toNat + eta.toNat) eta.toNat) %
          3329) ∧
      (∀ i, i < 256 →
        (coefAt (t.poly pd) i).val ≤ eta.toNat ∨ 3329 - eta.toNat ≤ (coefAt (t.poly pd) i).val) ∧
      (s.counter.toNat < 255 → t.counter.toNat = s.counter.toNat + 1 ∧ t.ctrExh = s.ctrExh) ∧
      (s.counter.toNat = 255 → t.counter.toNat = 255 ∧ t.ctrExh = true)

/-- Counter exhaustion (R190): while CTR_EXH = 1 an issue of SAMPLE_CBD is rejected with COUNTER_EXHAUSTED and
nothing else changes; a host write to COUNTER clears CTR_EXH, and the issue is then accepted. -/
def Obligations.CounterExhaustion : Prop :=
  ∀ (s : State) (w c : Word) (pd : PReg) (eta : BitVec 4), s.busy = false → s.ctrExh = true →
    decode w = .ok (.sampleCbd pd eta) →
    perform (.write 32 0x14 w) s =
      .next { s with err := true, errcode := if s.err then s.errcode else 7, done := true } ∧
    ∃ t u, perform (.write 32 0x18 c) s = .next t ∧ t.ctrExh = false ∧
      perform (.write 32 0x14 w) t = .next u ∧ u.pending = some (.sampleCbd pd eta) ∧ u.busy = true

/-- The sequential counter (R189): over any list of completed commands COUNTER advances by one for each
SAMPLE_CBD and is changed by no other command, as long as it stays at most 255. -/
def Obligations.SequentialCounter : Prop :=
  ∀ (is : List Instr) (s : State), s.counter.toNat + cbdCount is ≤ 255 →
    ∃ t, completeAll is s = .next t ∧ t.counter.toNat = s.counter.toNat + cbdCount is ∧
      t.ctrExh = s.ctrExh

/-! ### The transform engine (spec/43_transform.md) -/

/-- The tables (R211, R213, R214, R215): the closed forms of ZETA and GAMMA, the two relations that check a
transcription, the order of 17, and the inverse of 128. The root 17 is the spec's general knowledge (log 10). -/
def Obligations.TablesMatchTheirFormulas : Prop :=
  (∀ i, i < 128 → (zeta i).val = 17 ^ bitRev7 i % 3329) ∧
  (∀ i, i < 128 → (gamma i).val = 17 ^ (2 * bitRev7 i + 1) % 3329) ∧
  (∀ i, i < 64 → (gamma (2 * i + 1)).val = 3329 - (gamma (2 * i)).val) ∧
  (∀ i, i < 128 → (gamma i).val = 17 * (zeta i).val ^ 2 % 3329) ∧
  17 ^ 128 % 3329 = 3328 ∧ 128 * inv128.val % 3329 = 1 ∧ inv128.val = 3303

/-- NTT and INTT (R217, R219): the transform of the old PA into PD, nothing else but the end of the command;
the zero polynomial is transformed to zero; a 1 outside their fields is rejected with ILLEGAL_CMD. The root and the
butterflies are the spec's general knowledge (log 10). -/
def Obligations.NttInttEffect : Prop :=
  (∀ (s : State) (pd pa : PReg),
    (∃ t, exec (.ntt pd pa) s = .next t ∧ s.CommitsOnly t pd ∧ t.poly pd = ntt (s.poly pa)) ∧
    (∃ t, exec (.intt pd pa) s = .next t ∧ s.CommitsOnly t pd ∧ t.poly pd = nttInv (s.poly pa))) ∧
  ntt (mkPoly fun _ => 0) = mkPoly (fun _ => 0) ∧ nttInv (mkPoly fun _ => 0) = mkPoly (fun _ => 0) ∧
  EncodingErrors 0x01 [(12, 3), (15, 17)] (fun _ => True) ∧
  EncodingErrors 0x02 [(12, 3), (15, 17)] (fun _ => True)

/-- PMUL and PMAC (R221, R222, R223): the 128 base-case products of the old PA and PB, with
GAMMA[i] = 17^(2·BitRev7(i)+1), into PD, or added to the old PD mod 3329; nothing else but the end of the
command; a 1 in [31:15] is rejected with ILLEGAL_CMD. The constants and the pairing of coefficients are the
spec's own (log 10). -/
def Obligations.PmulPmacEffect : Prop :=
  EncodingErrors 0x03 [(15, 17)] (fun _ => True) ∧ EncodingErrors 0x04 [(15, 17)] (fun _ => True) ∧
  ∀ (s : State) (pd pa pb : PReg),
    (∃ t, exec (.pmul pd pa pb) s = .next t ∧ s.CommitsOnly t pd ∧
      ∀ i, i < 128 →
        (coefAt (t.poly pd) (2 * i)).val =
          ((coefAt (s.poly pa) (2 * i)).val * (coefAt (s.poly pb) (2 * i)).val +
            (coefAt (s.poly pa) (2 * i + 1)).val * (coefAt (s.poly pb) (2 * i + 1)).val *
              17 ^ (2 * bitRev7 i + 1)) % 3329 ∧
        (coefAt (t.poly pd) (2 * i + 1)).val =
          ((coefAt (s.poly pa) (2 * i)).val * (coefAt (s.poly pb) (2 * i + 1)).val +
            (coefAt (s.poly pa) (2 * i + 1)).val * (coefAt (s.poly pb) (2 * i)).val) % 3329) ∧
    (∃ t, exec (.pmac pd pa pb) s = .next t ∧ s.CommitsOnly t pd ∧
      ∀ i, i < 128 →
        (coefAt (t.poly pd) (2 * i)).val =
          ((coefAt (s.poly pd) (2 * i)).val +
            ((coefAt (s.poly pa) (2 * i)).val * (coefAt (s.poly pb) (2 * i)).val +
              (coefAt (s.poly pa) (2 * i + 1)).val * (coefAt (s.poly pb) (2 * i + 1)).val *
                17 ^ (2 * bitRev7 i + 1))) % 3329 ∧
        (coefAt (t.poly pd) (2 * i + 1)).val =
          ((coefAt (s.poly pd) (2 * i + 1)).val +
            ((coefAt (s.poly pa) (2 * i)).val * (coefAt (s.poly pb) (2 * i + 1)).val +
              (coefAt (s.poly pa) (2 * i + 1)).val * (coefAt (s.poly pb) (2 * i)).val)) % 3329)

/-- The transform as evaluation (from R216 and R221): coefficients 2i and 2i + 1 of NTT(f) are the remainder of
f mod X² − GAMMA[i]. It rests on the root 17, the butterflies and the pairing of coefficients, which the spec
supplies from general knowledge (log 10). -/
def Obligations.NttReducesModBaseCases : Prop :=
  ∀ (f : PolyVal) (i : Nat), i < 128 →
    (coefAt (ntt f) (2 * i)).val =
      ((List.range 128).map fun j => (coefAt f (2 * j)).val * (17 ^ (2 * bitRev7 i + 1)) ^ j).sum % 3329 ∧
    (coefAt (ntt f) (2 * i + 1)).val =
      ((List.range 128).map fun j => (coefAt f (2 * j + 1)).val * (17 ^ (2 * bitRev7 i + 1)) ^ j).sum % 3329

/-- The inverse law (R220): NTT and NTT_inv undo each other on every polynomial. The spec derives it for these
equations from R216 and R218, whose root and butterflies are its general knowledge (log 10). -/
def Obligations.TransformInverseLaw : Prop :=
  ∀ f : PolyVal, nttInv (ntt f) = f ∧ ntt (nttInv f) = f

/-- The convolution law (R224): transforming, multiplying pointwise and transforming back multiplies in
ℤ_3329[X]/(X^256 + 1). The modulus, the root, the butterflies and the pairing are the spec's general knowledge
(log 10). -/
def Obligations.ConvolutionLaw : Prop :=
  ∀ (f g : PolyVal) (k : Nat), k < 256 →
    ((coefAt (nttInv (multiplyNtts (ntt f) (ntt g))) k).val : Int) = negacyclicCoef f g k % 3329
end

