-- ==== Sys2Proof/Laws/Decode.lean ====
section
/-!
SUPPORT. What it takes for a word to select a row of the opcode table: its OPC, and zeros where the row's
mask has ones (spec/30_encoding.md R99). Later proofs about words cite these and unfold no mask.
-/

namespace Sys2Proof.Machine

/-- The word with ones in the `n` bits from `lo` on. -/
def fieldMask (lo n : Nat) : Word := BitVec.ofNat 32 (2 ^ n - 1) <<< lo

/-- Bit `j` of a field mask. -/
theorem getLsbD_fieldMask {lo n j : Nat} (hn : lo + n ≤ 32) :
    (fieldMask lo n).getLsbD j = decide (lo ≤ j ∧ j < lo + n) := by
  simp only [fieldMask, BitVec.getLsbD_shiftLeft, BitVec.getLsbD_ofNat, Nat.testBit_two_pow_sub_one]
  rw [Bool.eq_iff_iff]
  simp only [Bool.and_eq_true, Bool.not_eq_true', decide_eq_true_eq, decide_eq_false_iff_not]
  omega

/-- A field is 0 exactly when none of its bits is 1. -/
theorem bitField_eq_zero_iff {w : Word} {lo n : Nat} (hn : lo + n ≤ 32) :
    bitField w lo n = 0 ↔ w &&& fieldMask lo n = 0 := by
  constructor
  · intro h
    apply BitVec.eq_of_getLsbD_eq
    intro j hj
    rw [BitVec.getLsbD_and, getLsbD_fieldMask hn]
    by_cases hin : lo ≤ j ∧ j < lo + n
    · have := congrArg (fun x => x.testBit (j - lo)) h
      simp only [bitField, Nat.testBit_mod_two_pow, Nat.testBit_div_two_pow, Nat.zero_testBit] at this
      rw [Nat.sub_add_cancel hin.1, decide_eq_true (by omega), Bool.true_and] at this
      rw [BitVec.getLsbD, this]
      simp
    · simp [hin]
  · intro h
    apply Nat.eq_of_testBit_eq
    intro k
    simp only [bitField, Nat.testBit_mod_two_pow, Nat.testBit_div_two_pow, Nat.zero_testBit]
    by_cases hk : k < n
    · have := congrArg (fun x => x.getLsbD (lo + k)) h
      simp only [BitVec.getLsbD_and, getLsbD_fieldMask hn] at this
      rw [decide_eq_true (by omega), Bool.and_true] at this
      rw [Nat.add_comm k lo, ← BitVec.getLsbD, this]
      simp
    · simp [hk]

/-- The OPC of a word is its low six bits. -/
theorem and_63_toNat (w : Word) : (w &&& 63#32).toNat = bitField w 0 6 := by
  rw [BitVec.toNat_and]
  show w.toNat &&& (2 ^ 6 - 1) = _
  rw [Nat.and_two_pow_sub_one_eq_mod]
  simp [bitField]

/-- Every mask covers OPC. -/
theorem mask_opc (o : Op) : o.mask &&& 63#32 = 63#32 := by cases o <;> rfl

/-- A word that selects a row has its OPC. -/
theorem selects_opc {o : Op} {w : Word} (h : o.selects w = true) :
    bitField w 0 6 = o.pattern.toNat % 64 := by
  have h := eq_of_beq h
  have h2 : w &&& 63#32 = o.pattern &&& 63#32 := by
    rw [← h, BitVec.and_assoc, mask_opc]
  rw [← and_63_toNat, h2, and_63_toNat]
  simp [bitField]

/-- A word that selects a row has zeros in every field the mask covers and the pattern leaves 0. -/
theorem selects_field {o : Op} {w : Word} {lo n : Nat} (h : o.selects w = true)
    (hm : o.mask &&& fieldMask lo n = fieldMask lo n) (hp : o.pattern &&& fieldMask lo n = 0)
    (hn : lo + n ≤ 32) : bitField w lo n = 0 := by
  apply (bitField_eq_zero_iff hn).mpr
  rw [← hm, ← BitVec.and_assoc, eq_of_beq h, hp]

/-- No two rows have one OPC. -/
theorem pattern_inj {o o' : Op} (h : o.pattern.toNat % 64 = o'.pattern.toNat % 64) : o = o' := by
  cases o <;> cases o' <;> first | rfl | exact absurd h (by decide)

/-- At most one row matches a word (R100). -/
theorem selects_unique {o o' : Op} {w : Word} (h : o.selects w = true) (h' : o'.selects w = true) :
    o = o' := pattern_inj ((selects_opc h).symm.trans (selects_opc h'))

theorem mem_opcodeTable (o : Op) : o ∈ opcodeTable := by cases o <;> decide

/-- The row a word selects is the one the decoder finds. -/
theorem selectRow_eq_some {o : Op} {w : Word} : selectRow w = some o ↔ o.selects w = true := by
  constructor
  · intro h
    unfold selectRow at h
    exact List.find?_some (p := fun o : Op => o.selects w) h
  · intro h
    cases hs : selectRow w with
    | none =>
      have := List.find?_eq_none.mp hs o (mem_opcodeTable o)
      exact absurd h this
    | some o' =>
      have h' := hs
      unfold selectRow at h'
      have h' := List.find?_some (p := fun o : Op => o.selects w) h'
      rw [selects_unique h' h]

theorem selectRow_eq_none {w : Word} : selectRow w = none ↔ ∀ o : Op, o.selects w = false := by
  constructor
  · intro h o
    have := List.find?_eq_none.mp h o (mem_opcodeTable o)
    simpa using this
  · intro h
    apply List.find?_eq_none.mpr
    intro o _
    simp [h o]

/-- A word with a row's OPC and zeros in the fields that make up the rest of its mask selects it. -/
theorem selects_of_fields {o : Op} {w : Word} (fs : List (Nat × Nat))
    (hmask : o.mask = fs.foldr (fun f m => fieldMask f.1 f.2 ||| m) 63#32)
    (hlow : o.pattern &&& 63#32 = o.pattern) (hopc : bitField w 0 6 = o.pattern.toNat % 64)
    (h : ∀ f ∈ fs, f.1 + f.2 ≤ 32 ∧ bitField w f.1 f.2 = 0) : o.selects w = true := by
  have h63 : w &&& 63#32 = o.pattern := by
    apply BitVec.eq_of_toNat_eq
    rw [and_63_toNat, hopc, ← hlow, and_63_toNat]
    simp [bitField]
  have hall : w &&& fs.foldr (fun f m => fieldMask f.1 f.2 ||| m) 63#32 = o.pattern := by
    clear hmask
    induction fs with
    | nil => exact h63
    | cons f fs ih =>
      have hf := h f (by simp)
      rw [List.foldr_cons, BitVec.and_or_distrib_left, (bitField_eq_zero_iff hf.1).mp hf.2,
        ih fun g hg => h g (by simp [hg])]
      simp
  rw [Op.selects, hmask, hall]
  exact beq_self_eq_true _

/-- What the decoder does with a word that selects a row. -/
theorem decode_of_selects {o : Op} {w : Word} (h : o.selects w = true) :
    decode w = if parameterOk o (fieldW w).toNat then .ok (assemble o w) else .error .invalidParameter := by
  rw [decode, selectRow_eq_some.mpr h]

/-- A word whose OPC is a row's but which does not select that row is illegal (R101). -/
theorem decode_illegal {o : Op} {w : Word} (hopc : bitField w 0 6 = o.pattern.toNat % 64)
    (h : o.selects w = false) : decode w = .error .illegalCmd := by
  have hn : selectRow w = none := by
    apply selectRow_eq_none.mpr
    intro o'
    cases h' : o'.selects w with
    | false => rfl
    | true =>
      have := pattern_inj (hopc.symm.trans (selects_opc h'))
      rw [this, h'] at h
      exact h
  rw [decode, hn]

/-- A bit that the row of its OPC requires to be 0 makes a word illegal (R101). -/
theorem decode_illegal_of_field {o : Op} {w : Word} {lo n : Nat} (hopc : bitField w 0 6 = o.pattern.toNat % 64)
    (hm : o.mask &&& fieldMask lo n = fieldMask lo n) (hp : o.pattern &&& fieldMask lo n = 0)
    (hn : lo + n ≤ 32) (h : bitField w lo n ≠ 0) : decode w = .error .illegalCmd := by
  apply decode_illegal hopc
  cases hs : o.selects w with
  | false => rfl
  | true => exact absurd (selects_field hs hm hp hn) h

/-- The field W as a number (R94). -/
theorem fieldW_toNat (w : Word) : (fieldW w).toNat = bitField w 15 4 := by
  simp [fieldW, bitField, BitVec.extractLsb'_toNat, Nat.shiftRight_eq_div_pow]

end Sys2Proof.Machine
end

