-- ==== Sys2Proof/Laws/Memory.lean ====
section
/-!
SUPPORT. The byte array BUF: a read after a write, the canonical form, and that every operation keeps it.
-/

namespace Sys2Proof.Machine

@[simp] theorem readByte_nil (a : Nat) : readByte [] a = unlistedByte := rfl

theorem readByte_consCell (m : Memory) (k : Nat) (v : Byte) (h : readByte m k = unlistedByte) (x : Nat) :
    readByte (consCell k v m) x = if x = k then v else readByte m x := by
  unfold consCell
  split
  next hv => split <;> simp_all
  next hv => rfl

theorem wfFrom_mono {lo lo' : Nat} {m : Memory} (h : lo' ≤ lo) (hm : Memory.wfFrom lo m = true) :
    Memory.wfFrom lo' m = true := by
  cases m with
  | nil => rfl
  | cons c r =>
    obtain ⟨k, v⟩ := c
    simp only [Memory.wfFrom, Bool.and_eq_true, decide_eq_true_eq] at hm ⊢
    exact ⟨⟨⟨by omega, hm.1.1.2⟩, hm.1.2⟩, hm.2⟩

/-- Below its first index a canonical array lists nothing. -/
theorem readByte_of_lt {lo : Nat} {m : Memory} (hm : Memory.wfFrom lo m = true) {a : Nat} (h : a < lo) :
    readByte m a = unlistedByte := by
  induction m generalizing lo with
  | nil => rfl
  | cons c r ih =>
    obtain ⟨k, v⟩ := c
    simp only [Memory.wfFrom, Bool.and_eq_true, decide_eq_true_eq] at hm
    have hk : a ≠ k := by omega
    simp only [readByte, hk, if_false]
    exact ih hm.2 (by omega)

theorem wfFrom_consCell {lo a : Nat} {v : Byte} {m : Memory} (hlo : lo ≤ a) (ha : a < 384)
    (hm : Memory.wfFrom (a + 1) m = true) : Memory.wfFrom lo (consCell a v m) = true := by
  unfold consCell
  split
  next => exact wfFrom_mono (by omega) hm
  next hv => simp [Memory.wfFrom, hlo, ha, hv, hm]

/-- A write inside BUF keeps the canonical form. -/
theorem wfFrom_writeByte {lo : Nat} {m : Memory} {a : Nat} {v : Byte} (hlo : lo ≤ a) (ha : a < 384)
    (hm : Memory.wfFrom lo m = true) : Memory.wfFrom lo (writeByte m a v) = true := by
  induction m generalizing lo with
  | nil => exact wfFrom_consCell hlo ha rfl
  | cons c r ih =>
    obtain ⟨k, w⟩ := c
    have hm' := hm
    simp only [Memory.wfFrom, Bool.and_eq_true, decide_eq_true_eq] at hm
    obtain ⟨⟨⟨h1, h2⟩, h3⟩, h4⟩ := hm
    simp only [writeByte]
    split
    next hak =>
      apply wfFrom_consCell hlo ha
      simp only [Memory.wfFrom, Bool.and_eq_true, decide_eq_true_eq]
      exact ⟨⟨⟨by omega, h2⟩, h3⟩, h4⟩
    next hak =>
      split
      next hk => subst hk; exact wfFrom_consCell hlo ha h4
      next hk =>
        simp only [Memory.wfFrom, Bool.and_eq_true, decide_eq_true_eq]
        exact ⟨⟨⟨h1, h2⟩, h3⟩, ih (by omega) h4⟩

/-- A read after a write (in a canonical array): the byte written, and every other byte as before. -/
theorem readByte_writeByte {lo : Nat} {m : Memory} (hm : Memory.wfFrom lo m = true) (a x : Nat) (v : Byte) :
    readByte (writeByte m a v) x = if x = a then v else readByte m x := by
  induction m generalizing lo with
  | nil => exact readByte_consCell [] a v rfl x
  | cons c r ih =>
    obtain ⟨k, w⟩ := c
    have hm' := hm
    simp only [Memory.wfFrom, Bool.and_eq_true, decide_eq_true_eq] at hm
    obtain ⟨⟨⟨h1, h2⟩, h3⟩, h4⟩ := hm
    have hself : Memory.wfFrom k ((k, w) :: r) = true := by
      simp only [Memory.wfFrom, Bool.and_eq_true, decide_eq_true_eq]
      exact ⟨⟨⟨le_refl k, h2⟩, h3⟩, h4⟩
    simp only [writeByte]
    split
    next hak => exact readByte_consCell _ a v (readByte_of_lt hself hak) x
    next hak =>
      split
      next hk =>
        subst hk
        rw [readByte_consCell r a v (readByte_of_lt h4 (by omega)) x]
        simp only [readByte]
        split <;> simp_all
      next hk =>
        simp only [readByte]
        rw [ih h4]
        split <;> split <;> simp_all

theorem wf_writeByte {m : Memory} {a : Nat} {v : Byte} (ha : a < 384) (hm : m.wf = true) :
    Memory.wf (writeByte m a v) = true := wfFrom_writeByte (Nat.zero_le a) ha hm

/-- A run of bytes inside BUF keeps the canonical form. -/
theorem wf_writeBytes {m : Memory} {base : Nat} {bs : List Byte} (h : base + bs.length ≤ 384)
    (hm : m.wf = true) : Memory.wf (writeBytes m base bs) = true := by
  induction bs generalizing m base with
  | nil => exact hm
  | cons b bs ih =>
    simp only [List.length_cons] at h
    exact ih (by omega) (wf_writeByte (by omega) hm)

/-- A read after a run of bytes was stored: the bytes stored, and every other byte as before. -/
theorem readByte_writeBytes {m : Memory} {base : Nat} {bs : List Byte} (h : base + bs.length ≤ 384)
    (hm : m.wf = true) (x : Nat) :
    readByte (writeBytes m base bs) x =
      if base ≤ x ∧ x < base + bs.length then bs.getD (x - base) 0 else readByte m x := by
  induction bs generalizing m base with
  | nil =>
    have : ¬ (base ≤ x ∧ x < base + ([] : List Byte).length) := by simp
    simp only [writeBytes, if_neg this]
  | cons b bs ih =>
    simp only [List.length_cons] at h ⊢
    simp only [writeBytes]
    rw [ih (by omega) (wf_writeByte (by omega) hm), readByte_writeByte hm]
    by_cases hx : x = base
    · subst hx
      have h2 : x ≤ x ∧ x < x + (bs.length + 1) := by omega
      simp [h2]
    · by_cases hin : base + 1 ≤ x ∧ x < base + 1 + bs.length
      · have h2 : base ≤ x ∧ x < base + (bs.length + 1) := by omega
        have h3 : x - base = (x - (base + 1)) + 1 := by omega
        rw [if_pos hin, if_pos h2, h3, List.getD_cons_succ]
      · have h2 : ¬ (base ≤ x ∧ x < base + (bs.length + 1)) := by omega
        rw [if_neg hin, if_neg h2, if_neg hx]

/-- A word written to BUF keeps the canonical form. -/
theorem wf_putBufWord {m : Memory} {k : Nat} {w : Word} (hk : k < 96) (hm : m.wf = true) :
    Memory.wf (putBufWord m k w) = true := wf_writeBytes (by simp; omega) hm

/-- Canonical arrays that read alike are equal. -/
theorem eq_of_readByte_eq {lo : Nat} {m m' : Memory} (hm : Memory.wfFrom lo m = true)
    (hm' : Memory.wfFrom lo m' = true) (h : ∀ x, readByte m x = readByte m' x) : m = m' := by
  induction m generalizing lo m' with
  | nil =>
    cases m' with
    | nil => rfl
    | cons c r =>
      obtain ⟨k, v⟩ := c
      simp only [Memory.wfFrom, Bool.and_eq_true, decide_eq_true_eq] at hm'
      have := h k
      simp [readByte] at this
      exact absurd this.symm hm'.1.2
  | cons c r ih =>
    obtain ⟨k, v⟩ := c
    have hmw := hm
    simp only [Memory.wfFrom, Bool.and_eq_true, decide_eq_true_eq] at hm
    cases m' with
    | nil =>
      have := h k
      simp [readByte] at this
      exact absurd this hm.1.2
    | cons c' r' =>
      obtain ⟨k', v'⟩ := c'
      simp only [Memory.wfFrom, Bool.and_eq_true, decide_eq_true_eq] at hm'
      have hk : k = k' := by
        rcases Nat.lt_trichotomy k k' with hlt | heq | hgt
        · have h1 := h k
          have h2 : readByte r' k = unlistedByte := readByte_of_lt hm'.2 (by omega)
          simp only [readByte, if_true, Nat.ne_of_lt hlt, if_false, h2] at h1
          exact absurd h1 hm.1.2
        · exact heq
        · have h1 := h k'
          have h2 : readByte r k' = unlistedByte := readByte_of_lt hm.2 (by omega)
          simp only [readByte, if_true, Nat.ne_of_lt hgt, if_false, h2] at h1
          exact absurd h1.symm hm'.1.2
      subst hk
      have hv : v = v' := by simpa [readByte] using h k
      subst hv
      congr 1
      apply ih hm.2 hm'.2
      intro x
      by_cases hx : x = k
      · subst hx
        rw [readByte_of_lt hm.2 (by omega), readByte_of_lt hm'.2 (by omega)]
      · simpa [readByte, hx] using h x

end Sys2Proof.Machine
end

