-- ==== Sys2Proof/Laws/PerInstr.lean ====
section
/-!
SUPPORT. Laws stated for every command as syntax. Family `EncodesItsRow`: the word of a command selects the
row of the opcode table that carries its mnemonic (spec/30_encoding.md R92, R99): its OPC is the row's, and
every bit its format requires to be 0 is 0.
-/

namespace Sys2Proof.Laws

/-! ### Fields and masks -/

/-- PD, PA and PB stand outside every bit a mask may require. -/
theorem regFields_and (pd pa pb : PReg) (m : Word) (hd : ∀ p : PReg, placeAt 6 p.val &&& m = 0)
    (ha : ∀ p : PReg, placeAt 9 p.val &&& m = 0) (hb : ∀ p : PReg, placeAt 12 p.val &&& m = 0) :
    regFields pd pa pb &&& m = 0 := by
  rw [regFields, BitVec.and_comm, BitVec.and_or_distrib_left, BitVec.and_or_distrib_left,
    BitVec.and_comm m, BitVec.and_comm m, BitVec.and_comm m, hd, ha, hb]
  rfl

/-- A word made of a pattern and fields outside the mask selects the pattern's row. -/
theorem selects_or (o : Op) (w f : Word) (h : w &&& o.mask = o.pattern) (hf : f &&& o.mask = 0) :
    (w ||| f) &&& o.mask = o.pattern := by
  rw [BitVec.and_comm, BitVec.and_or_distrib_left, BitVec.and_comm _ w, BitVec.and_comm _ f, h, hf]
  exact BitVec.or_zero

theorem pattern_and_mask (o : Op) : o.pattern &&& o.mask = o.pattern := by cases o <;> decide

/-- A PB of 0 places nothing, and likewise PA and PD. -/
theorem placeAt_zero (lo : Nat) : placeAt lo 0 = 0 := by simp [placeAt]

theorem regFields_pd_pa (pd pa : PReg) : regFields pd pa 0 = placeAt 6 pd.val ||| placeAt 9 pa.val := by
  simp [regFields, placeAt_zero]

theorem regFields_pd (pd : PReg) : regFields pd 0 0 = placeAt 6 pd.val := by
  simp [regFields, placeAt_zero]

theorem regFields_pa (pa : PReg) : regFields 0 pa 0 = placeAt 9 pa.val := by
  simp [regFields, placeAt_zero]

/-! ### The family -/

/-- The row of a command (R99). -/
def opOf : Instr → Op
  | .nop => .nop
  | .ntt _ _ => .ntt
  | .intt _ _ => .intt
  | .pmul _ _ _ => .pmul
  | .pmac _ _ _ => .pmac
  | .padd _ _ _ => .padd
  | .psub _ _ _ => .psub
  | .pcopy _ _ => .pcopy
  | .pzero _ => .pzero
  | .compress _ _ _ => .compress
  | .decompress _ _ _ => .decompress
  | .encode _ _ => .encode
  | .decode _ _ => .decode
  | .sampleNtt _ _ _ => .sampleNtt
  | .sampleCbd _ _ => .sampleCbd

namespace EncodesItsRow

/-- The command's word selects its own row. -/
def Statement (i : Instr) : Prop := encode i &&& (opOf i).mask = (opOf i).pattern

/-- A command of format FDAB (R92). -/
theorem of_three (o : Op) (pd pa pb : PReg) (hd : ∀ p : PReg, placeAt 6 p.val &&& o.mask = 0)
    (ha : ∀ p : PReg, placeAt 9 p.val &&& o.mask = 0) (hb : ∀ p : PReg, placeAt 12 p.val &&& o.mask = 0) :
    (o.pattern ||| regFields pd pa pb) &&& o.mask = o.pattern :=
  selects_or o _ _ (pattern_and_mask o) (regFields_and pd pa pb o.mask hd ha hb)

/-- A command of format FDA (R92). -/
theorem of_two (o : Op) (pd pa : PReg) (hd : ∀ p : PReg, placeAt 6 p.val &&& o.mask = 0)
    (ha : ∀ p : PReg, placeAt 9 p.val &&& o.mask = 0) :
    (o.pattern ||| regFields pd pa 0) &&& o.mask = o.pattern := by
  rw [regFields_pd_pa, ← BitVec.or_assoc]
  exact selects_or o _ _ (selects_or o _ _ (pattern_and_mask o) (hd pd)) (ha pa)

/-- A command of format FDAW (R92). -/
theorem of_two_w (o : Op) (pd pa : PReg) (d : BitVec 4) (hd : ∀ p : PReg, placeAt 6 p.val &&& o.mask = 0)
    (ha : ∀ p : PReg, placeAt 9 p.val &&& o.mask = 0)
    (hw : ∀ d : BitVec 4, placeAt 15 d.toNat &&& o.mask = 0) :
    (o.pattern ||| regFields pd pa 0 ||| placeAt 15 d.toNat) &&& o.mask = o.pattern :=
  selects_or o _ _ (of_two o pd pa hd ha) (hw d)

/-- A command of format FD (R92). -/
theorem of_pd (o : Op) (pd : PReg) (hd : ∀ p : PReg, placeAt 6 p.val &&& o.mask = 0) :
    (o.pattern ||| regFields pd 0 0) &&& o.mask = o.pattern := by
  rw [regFields_pd]
  exact selects_or o _ _ (pattern_and_mask o) (hd pd)

/-- A command of format FDW (R92). -/
theorem of_pd_w (o : Op) (pd : PReg) (d : BitVec 4) (hd : ∀ p : PReg, placeAt 6 p.val &&& o.mask = 0)
    (hw : ∀ d : BitVec 4, placeAt 15 d.toNat &&& o.mask = 0) :
    (o.pattern ||| regFields pd 0 0 ||| placeAt 15 d.toNat) &&& o.mask = o.pattern :=
  selects_or o _ _ (of_pd o pd hd) (hw d)

/-- A command of format FAW (R92). -/
theorem of_pa_w (o : Op) (pa : PReg) (d : BitVec 4) (ha : ∀ p : PReg, placeAt 9 p.val &&& o.mask = 0)
    (hw : ∀ d : BitVec 4, placeAt 15 d.toNat &&& o.mask = 0) :
    (o.pattern ||| regFields 0 pa 0 ||| placeAt 15 d.toNat) &&& o.mask = o.pattern := by
  rw [regFields_pa]
  exact selects_or o _ _ (selects_or o _ _ (pattern_and_mask o) (ha pa)) (hw d)

theorem nop : Statement .nop := pattern_and_mask .nop

theorem ntt (pd pa : PReg) : Statement (.ntt pd pa) := of_two .ntt pd pa (by decide) (by decide)

theorem intt (pd pa : PReg) : Statement (.intt pd pa) := of_two .intt pd pa (by decide) (by decide)

theorem pmul (pd pa pb : PReg) : Statement (.pmul pd pa pb) :=
  of_three .pmul pd pa pb (by decide) (by decide) (by decide)

theorem pmac (pd pa pb : PReg) : Statement (.pmac pd pa pb) :=
  of_three .pmac pd pa pb (by decide) (by decide) (by decide)

theorem padd (pd pa pb : PReg) : Statement (.padd pd pa pb) :=
  of_three .padd pd pa pb (by decide) (by decide) (by decide)

theorem psub (pd pa pb : PReg) : Statement (.psub pd pa pb) :=
  of_three .psub pd pa pb (by decide) (by decide) (by decide)

theorem pcopy (pd pa : PReg) : Statement (.pcopy pd pa) := of_two .pcopy pd pa (by decide) (by decide)

theorem pzero (pd : PReg) : Statement (.pzero pd) := of_pd .pzero pd (by decide)

theorem compress (pd pa : PReg) (d : BitVec 4) : Statement (.compress pd pa d) :=
  of_two_w .compress pd pa d (by decide) (by decide) (by decide)

theorem decompress (pd pa : PReg) (d : BitVec 4) : Statement (.decompress pd pa d) :=
  of_two_w .decompress pd pa d (by decide) (by decide) (by decide)

theorem encode (pa : PReg) (d : BitVec 4) : Statement (.encode pa d) :=
  of_pa_w .encode pa d (by decide) (by decide)

theorem decode (pd : PReg) (d : BitVec 4) : Statement (.decode pd d) :=
  of_pd_w .decode pd d (by decide) (by decide)

/-- An 8-bit field at bit `lo` stands outside a mask whose bits `lo` to `lo + 7` are 0. -/
theorem byteField_and (lo : Nat) (b : Byte) (m : Word)
    (hm : ∀ i, lo ≤ i → i < lo + 8 → m.getLsbD i = false) : placeAt lo b.toNat &&& m = 0 := by
  apply BitVec.eq_of_getLsbD_eq
  intro i hi
  by_cases h : lo ≤ i ∧ i < lo + 8
  · simp [hm i h.1 h.2]
  · have hz : (placeAt lo b.toNat).getLsbD i = false := by
      by_cases h1 : i < lo
      · simp [placeAt, h1]
      · have h2 : b.getLsbD (i - lo) = false := BitVec.getLsbD_of_ge _ _ (by omega)
        simp [placeAt, h2]
    simp [hz]

theorem sampleNtt (pd : PReg) (b32 b33 : Byte) : Statement (.sampleNtt pd b32 b33) := by
  refine selects_or .sampleNtt _ _ (selects_or .sampleNtt _ _ (of_pd .sampleNtt pd (by decide)) ?_) ?_
  · exact byteField_and 15 b32 _ (fun i h1 h2 => by interval_cases i <;> decide)
  · exact byteField_and 23 b33 _ (fun i h1 h2 => by interval_cases i <;> decide)

theorem sampleCbd (pd : PReg) (eta : BitVec 4) : Statement (.sampleCbd pd eta) :=
  of_pd_w .sampleCbd pd eta (by decide) (by decide)

end EncodesItsRow

end Sys2Proof.Laws
end

