-- ==== Sys2Proof/Laws/Poly.lean ====
section
/-!
SUPPORT. The mod-q primitives as arithmetic of the 3329 residues, and the laws of reading, writing and
building a polynomial value.
-/

namespace Sys2Proof.Machine

/-! ### Arithmetic (spec/00_scope.md R17) -/

@[simp] theorem reduceNat_val (n : Nat) : (reduceNat n).val = n % 3329 := rfl

theorem reduceNat_eq_of_lt (n : Nat) (h : n < 3329) : (reduceNat n).val = n := Nat.mod_eq_of_lt h

theorem reduceInt_val (z : Int) : ((reduceInt z).val : Int) = z % 3329 := by
  have h0 : 0 ≤ z % 3329 := Int.emod_nonneg z (by decide)
  have h1 : z % 3329 < 3329 := Int.emod_lt_of_pos z (by decide)
  simp only [reduceInt, reduceNat_val]
  omega

theorem addq_val (a b : Coef) : (addq a b).val = (a.val + b.val) % 3329 := rfl

theorem mulq_val (a b : Coef) : (mulq a b).val = a.val * b.val % 3329 := rfl

theorem subq_val (a b : Coef) : ((subq a b).val : Int) = ((a.val : Int) - b.val) % 3329 :=
  reduceInt_val _

/-- `addq` is the ring's addition. -/
theorem addq_eq_add (a b : Coef) : addq a b = a + b := by
  apply Fin.ext; rw [addq_val, Fin.val_add]

/-- `mulq` is the ring's multiplication. -/
theorem mulq_eq_mul (a b : Coef) : mulq a b = a * b := by
  apply Fin.ext; rw [mulq_val, Fin.val_mul]

/-- `subq` is the ring's subtraction. -/
theorem subq_eq_sub (a b : Coef) : subq a b = a - b := by
  apply Fin.ext
  have h := subq_val a b
  have ha := a.isLt
  have hb := b.isLt
  rw [Fin.sub_def]
  show (subq a b).val = (3329 - b.val + a.val) % 3329
  omega

/-! ### Polynomial values -/

theorem coefAt_lt (f : PolyVal) (j : Nat) (h : j < 256) : coefAt f j = f[j] := by
  simp [coefAt, h]

/-- Two polynomial values with the same 256 coefficients are equal. -/
theorem poly_ext {f g : PolyVal} (h : ∀ j, j < 256 → coefAt f j = coefAt g j) : f = g := by
  apply Vector.ext
  intro j hj
  have := h j hj
  rwa [coefAt_lt f j hj, coefAt_lt g j hj] at this

theorem coefAt_tabulate (f : Nat → Coef) (j : Nat) (h : j < 256) : coefAt (tabulate 256 f) j = f j := by
  simp [coefAt, tabulate, Vector.toList, h]

@[simp] theorem coefAt_mkPoly (f : Nat → Coef) (j : Nat) (h : j < 256) : coefAt (mkPoly f) j = f j :=
  coefAt_tabulate f j h

@[simp] theorem toList_putCoef (f : PolyVal) (j : Nat) (c : Coef) :
    (putCoef f j c).toList = f.toList.set j c := rfl

theorem coefAt_putCoef_self (f : PolyVal) (j : Nat) (c : Coef) (h : j < 256) :
    coefAt (putCoef f j c) j = c := by
  simp [coefAt, h]

theorem coefAt_putCoef_ne (f : PolyVal) (j k : Nat) (c : Coef) (h : k ≠ j) :
    coefAt (putCoef f j c) k = coefAt f k := by
  simp [coefAt, List.getElem?_set_ne (Ne.symm h)]

/-- The domain check says that every coefficient is below the bound. -/
theorem allBelow_iff (f : PolyVal) (bound : Nat) :
    allBelow f bound = true ↔ ∀ j, j < 256 → (coefAt f j).val < bound := by
  simp only [allBelow, List.all_eq_true, decide_eq_true_eq]
  constructor
  · intro h j hj
    rw [coefAt_lt f j hj]
    exact h _ (by simp)
  · intro h c hc
    obtain ⟨j, hj, rfl⟩ := List.getElem_of_mem hc
    have hj' : j < 256 := by simpa using hj
    have := h j hj'
    rw [coefAt_lt f j hj'] at this
    simpa using this

end Sys2Proof.Machine
end

