-- ==== Sys2Proof/Laws/Sampler.lean ====
section
/-!
SUPPORT. What the loop of the rejection sampler computes (spec/42_sampler.md R180): the first 256 accepted
candidates, and the least number of chunks that hold them. Later proofs cite `sampleNtt_eq_none`,
`sampleNtt_eq_some` and `execSampleNtt_cases`, and unfold no loop.
-/

namespace Sys2Proof.Machine

variable (X : Nat → Byte)

/-- The accepted candidates of the first `m` chunks as coefficients, at most 256 of them. -/
def firstAccepted (m : Nat) : List Coef := ((accepted X m).take 256).map reduceNat

@[simp] theorem accepted_zero : accepted X 0 = [] := rfl

theorem accepted_succ (m : Nat) :
    accepted X (m + 1) = accepted X m ++ (chunkCandidates X m).filter (· < 3329) := by
  simp only [accepted, List.range_succ, List.flatMap_append, List.flatMap_cons, List.flatMap_nil,
    List.append_nil]

theorem length_accepted_succ_le (m : Nat) : (accepted X (m + 1)).length ≤ (accepted X m).length + 2 := by
  rw [accepted_succ, List.length_append]
  have := List.length_filter_le (· < 3329) (chunkCandidates X m)
  simp only [chunkCandidates, List.length_cons, List.length_nil] at this ⊢
  omega

/-- More chunks hold no fewer acceptances. -/
theorem length_accepted_mono {m n : Nat} (h : m ≤ n) : (accepted X m).length ≤ (accepted X n).length := by
  induction h with
  | refl => exact le_refl _
  | step _ ih => rw [accepted_succ, List.length_append]; omega

/-- A chunk yields at most two acceptances (R184). -/
theorem length_accepted_le (m : Nat) : (accepted X m).length ≤ 2 * m := by
  induction m with
  | zero => exact le_refl _
  | succ m ih => have := length_accepted_succ_le X m; omega

/-- Every accepted value is below 3329. -/
theorem lt_of_mem_accepted {m v : Nat} (h : v ∈ accepted X m) : v < 3329 := by
  simp only [accepted, List.mem_flatMap, List.mem_filter, decide_eq_true_eq] at h
  obtain ⟨_, _, _, h⟩ := h
  exact h

/-- One test of the loop, on a list cut at 256. -/
theorem acceptCandidate_take (L : List Nat) (d : Nat) :
    acceptCandidate ((L.take 256).map reduceNat) d =
      ((L ++ [d].filter (· < 3329)).take 256).map reduceNat := by
  unfold acceptCandidate
  by_cases hd : d < 3329
  · have hf : [d].filter (· < 3329) = [d] := by simp [hd]
    rw [hf]
    by_cases hL : L.length < 256
    · rw [if_pos ⟨hd, by rw [List.length_map, List.length_take]; omega⟩,
        List.take_of_length_le (by omega), List.take_of_length_le (by simp; omega), List.map_append]
      rfl
    · rw [if_neg (by rw [List.length_map, List.length_take]; omega), List.take_append_of_le_length (by omega)]
  · have hf : [d].filter (· < 3329) = [] := by simp [hd]
    rw [if_neg (fun h => hd h.1), hf, List.append_nil]

/-- One turn of the loop takes the next chunk's acceptances. -/
theorem takeChunk_firstAccepted (m : Nat) :
    takeChunk X (3 * m) (firstAccepted X m) = firstAccepted X (m + 1) := by
  unfold takeChunk firstAccepted
  rw [acceptCandidate_take, acceptCandidate_take, accepted_succ, List.append_assoc, ← List.filter_append]
  rfl

theorem length_firstAccepted (m : Nat) : (firstAccepted X m).length = min 256 (accepted X m).length := by
  rw [firstAccepted, List.length_map, List.length_take]

/-- The loop runs out of chunks. -/
theorem sampleLoop_eq_none (n m : Nat) (h : (accepted X (m + n)).length < 256) :
    sampleLoop X n (3 * m) (firstAccepted X m) = none := by
  induction n generalizing m with
  | zero => rw [sampleLoop, if_pos (by rw [length_firstAccepted]; rw [Nat.add_zero] at h; omega)]
  | succ n ih =>
    have hm := length_accepted_mono X (Nat.le_add_right m (n + 1))
    rw [sampleLoop, if_pos (by rw [length_firstAccepted]; omega), takeChunk_firstAccepted]
    exact ih (m + 1) (by rwa [Nat.add_right_comm, Nat.add_assoc])

/-- The loop ends at the least number `k` of chunks that hold 256 acceptances. -/
theorem sampleLoop_eq_some (n m k : Nat) (hmk : m ≤ k) (hk : k ≤ m + n)
    (h : 256 ≤ (accepted X k).length) (hlt : ∀ j, j < k → (accepted X j).length < 256) :
    sampleLoop X n (3 * m) (firstAccepted X m) = some (firstAccepted X k, 3 * k) := by
  induction n generalizing m with
  | zero =>
    obtain rfl : k = m := by omega
    rw [sampleLoop, if_neg (by rw [length_firstAccepted]; omega)]
  | succ n ih =>
    by_cases hm : m = k
    · subst hm
      rw [sampleLoop, if_neg (by rw [length_firstAccepted]; omega)]
    · have := hlt m (by omega)
      rw [sampleLoop, if_pos (by rw [length_firstAccepted]; omega), takeChunk_firstAccepted]
      exact ih (m + 1) (by omega) (by omega)

/-- SampleNTT of chunks that hold fewer than 256 acceptances has no result yet (R183; log 5). -/
theorem sampleNtt_eq_none {n : Nat} (h : (accepted X n).length < 256) : sampleNtt X n = none :=
  sampleLoop_eq_none X n 0 (by rwa [Nat.zero_add])

/-- SampleNTT of chunks that hold 256 acceptances: the first 256, and the bytes of the least number of chunks
that hold them. -/
theorem sampleNtt_eq_some {n k : Nat} (hk : k ≤ n) (h : 256 ≤ (accepted X k).length)
    (hlt : ∀ j, j < k → (accepted X j).length < 256) : sampleNtt X n = some (firstAccepted X k, 3 * k) :=
  sampleLoop_eq_some X n 0 k (Nat.zero_le k) (by omega) h hlt

/-- There is such a least number, and it is at least 128 (R184). -/
theorem exists_least_chunks {n : Nat} (h : 256 ≤ (accepted X n).length) :
    ∃ k, k ≤ n ∧ 128 ≤ k ∧ 256 ≤ (accepted X k).length ∧ ∀ j, j < k → (accepted X j).length < 256 := by
  classical
  have hex : ∃ k, 256 ≤ (accepted X k).length := ⟨n, h⟩
  have hs := Nat.find_spec hex
  have hb := length_accepted_le X (Nat.find hex)
  exact ⟨Nat.find hex, Nat.find_min' hex h, by omega, hs, fun j hj => by have := Nat.find_min hex hj; omega⟩

/-- Everything SAMPLE_NTT can do: it completes with the first 256 acceptances, or changes nothing (R182, R183). -/
theorem execSampleNtt_cases (s : State) (pd : PReg) (b32 b33 : Byte) :
    (s.Completes (.sampleNtt pd b32 b33) ∧ ∃ k, k ≤ s.xofReady ∧ 128 ≤ k ∧
      256 ≤ (accepted (s.xofStream (xofInput s.rho b32 b33)) k).length ∧
      (∀ j, j < k → (accepted (s.xofStream (xofInput s.rho b32 b33)) j).length < 256) ∧
      exec (.sampleNtt pd b32 b33) s =
        .next (s.commitSample pd (firstAccepted (s.xofStream (xofInput s.rho b32 b33)) k) (3 * k))) ∨
    (¬ s.Completes (.sampleNtt pd b32 b33) ∧ exec (.sampleNtt pd b32 b33) s = .next s) := by
  by_cases h : 256 ≤ (accepted (s.xofStream (xofInput s.rho b32 b33)) s.xofReady).length
  · refine .inl ⟨fun _ _ _ he => by cases he; exact h, ?_⟩
    obtain ⟨k, hk, h128, h1, h2⟩ := exists_least_chunks _ h
    exact ⟨k, hk, h128, h1, h2, by simp only [exec, execSampleNtt, sampleNtt_eq_some _ hk h1 h2]⟩
  · refine .inr ⟨fun hc => h (hc _ _ _ rfl), ?_⟩
    simp only [exec, execSampleNtt, sampleNtt_eq_none _ (Nat.lt_of_not_le h)]

/-- Every command but SAMPLE_NTT completes at the engine's turn (R257). -/
theorem completes_of_ne (s : State) {i : Instr} (h : ∀ pd b32 b33, i ≠ .sampleNtt pd b32 b33) :
    s.Completes i := fun pd b32 b33 he => absurd he (h pd b32 b33)

end Sys2Proof.Machine
end

