-- ==== Sys2Proof/Laws/State.lean ====
section
/-!
SUPPORT. One lemma for each field and each update of State: what the update does to the field. Each is true
by `rfl` (the conditional updates after one case split), so that no later proof unfolds a record update.
-/

namespace Sys2Proof.Machine

variable (s : State)

/-! ### `State.setPoly` -/

@[simp] theorem setPoly_P (p : PReg) (v : PolyVal) : (s.setPoly p v).P = s.P.set p.val v p.isLt := rfl
@[simp] theorem setPoly_buf (p : PReg) (v : PolyVal) : (s.setPoly p v).buf = s.buf := rfl
@[simp] theorem setPoly_rho (p : PReg) (v : PolyVal) : (s.setPoly p v).rho = s.rho := rfl
@[simp] theorem setPoly_sig (p : PReg) (v : PolyVal) : (s.setPoly p v).sig = s.sig := rfl
@[simp] theorem setPoly_counter (p : PReg) (v : PolyVal) : (s.setPoly p v).counter = s.counter := rfl
@[simp] theorem setPoly_ctrExh (p : PReg) (v : PolyVal) : (s.setPoly p v).ctrExh = s.ctrExh := rfl
@[simp] theorem setPoly_busy (p : PReg) (v : PolyVal) : (s.setPoly p v).busy = s.busy := rfl
@[simp] theorem setPoly_done (p : PReg) (v : PolyVal) : (s.setPoly p v).done = s.done := rfl
@[simp] theorem setPoly_err (p : PReg) (v : PolyVal) : (s.setPoly p v).err = s.err := rfl
@[simp] theorem setPoly_errcode (p : PReg) (v : PolyVal) : (s.setPoly p v).errcode = s.errcode := rfl
@[simp] theorem setPoly_ieDone (p : PReg) (v : PolyVal) : (s.setPoly p v).ieDone = s.ieDone := rfl
@[simp] theorem setPoly_ieErr (p : PReg) (v : PolyVal) : (s.setPoly p v).ieErr = s.ieErr := rfl
@[simp] theorem setPoly_lastCmd (p : PReg) (v : PolyVal) : (s.setPoly p v).lastCmd = s.lastCmd := rfl
@[simp] theorem setPoly_xofBytes (p : PReg) (v : PolyVal) : (s.setPoly p v).xofBytes = s.xofBytes := rfl
@[simp] theorem setPoly_pending (p : PReg) (v : PolyVal) : (s.setPoly p v).pending = s.pending := rfl
@[simp] theorem setPoly_agenda (p : PReg) (v : PolyVal) : (s.setPoly p v).agenda = s.agenda := rfl
@[simp] theorem setPoly_rdata (p : PReg) (v : PolyVal) : (s.setPoly p v).rdata = s.rdata := rfl
@[simp] theorem setPoly_xofReady (p : PReg) (v : PolyVal) : (s.setPoly p v).xofReady = s.xofReady := rfl
@[simp] theorem setPoly_xofOracle (p : PReg) (v : PolyVal) : (s.setPoly p v).xofOracle = s.xofOracle := rfl
@[simp] theorem setPoly_prfOracle (p : PReg) (v : PolyVal) : (s.setPoly p v).prfOracle = s.prfOracle := rfl

/-! ### `State.setBuf` -/

@[simp] theorem setBuf_P (m : Memory) : (s.setBuf m).P = s.P := rfl
@[simp] theorem setBuf_buf (m : Memory) : (s.setBuf m).buf = m := rfl
@[simp] theorem setBuf_rho (m : Memory) : (s.setBuf m).rho = s.rho := rfl
@[simp] theorem setBuf_sig (m : Memory) : (s.setBuf m).sig = s.sig := rfl
@[simp] theorem setBuf_counter (m : Memory) : (s.setBuf m).counter = s.counter := rfl
@[simp] theorem setBuf_ctrExh (m : Memory) : (s.setBuf m).ctrExh = s.ctrExh := rfl
@[simp] theorem setBuf_busy (m : Memory) : (s.setBuf m).busy = s.busy := rfl
@[simp] theorem setBuf_done (m : Memory) : (s.setBuf m).done = s.done := rfl
@[simp] theorem setBuf_err (m : Memory) : (s.setBuf m).err = s.err := rfl
@[simp] theorem setBuf_errcode (m : Memory) : (s.setBuf m).errcode = s.errcode := rfl
@[simp] theorem setBuf_ieDone (m : Memory) : (s.setBuf m).ieDone = s.ieDone := rfl
@[simp] theorem setBuf_ieErr (m : Memory) : (s.setBuf m).ieErr = s.ieErr := rfl
@[simp] theorem setBuf_lastCmd (m : Memory) : (s.setBuf m).lastCmd = s.lastCmd := rfl
@[simp] theorem setBuf_xofBytes (m : Memory) : (s.setBuf m).xofBytes = s.xofBytes := rfl
@[simp] theorem setBuf_pending (m : Memory) : (s.setBuf m).pending = s.pending := rfl
@[simp] theorem setBuf_agenda (m : Memory) : (s.setBuf m).agenda = s.agenda := rfl
@[simp] theorem setBuf_rdata (m : Memory) : (s.setBuf m).rdata = s.rdata := rfl
@[simp] theorem setBuf_xofReady (m : Memory) : (s.setBuf m).xofReady = s.xofReady := rfl
@[simp] theorem setBuf_xofOracle (m : Memory) : (s.setBuf m).xofOracle = s.xofOracle := rfl
@[simp] theorem setBuf_prfOracle (m : Memory) : (s.setBuf m).prfOracle = s.prfOracle := rfl

/-! ### `State.raise` -/

@[simp] theorem raise_P (e : ErrorCode) : (s.raise e).P = s.P := rfl
@[simp] theorem raise_buf (e : ErrorCode) : (s.raise e).buf = s.buf := rfl
@[simp] theorem raise_rho (e : ErrorCode) : (s.raise e).rho = s.rho := rfl
@[simp] theorem raise_sig (e : ErrorCode) : (s.raise e).sig = s.sig := rfl
@[simp] theorem raise_counter (e : ErrorCode) : (s.raise e).counter = s.counter := rfl
@[simp] theorem raise_ctrExh (e : ErrorCode) : (s.raise e).ctrExh = s.ctrExh := rfl
@[simp] theorem raise_busy (e : ErrorCode) : (s.raise e).busy = s.busy := rfl
@[simp] theorem raise_done (e : ErrorCode) : (s.raise e).done = s.done := rfl
@[simp] theorem raise_err (e : ErrorCode) : (s.raise e).err = true := rfl
@[simp] theorem raise_errcode (e : ErrorCode) : (s.raise e).errcode = if s.err then s.errcode else e.bits := rfl
@[simp] theorem raise_ieDone (e : ErrorCode) : (s.raise e).ieDone = s.ieDone := rfl
@[simp] theorem raise_ieErr (e : ErrorCode) : (s.raise e).ieErr = s.ieErr := rfl
@[simp] theorem raise_lastCmd (e : ErrorCode) : (s.raise e).lastCmd = s.lastCmd := rfl
@[simp] theorem raise_xofBytes (e : ErrorCode) : (s.raise e).xofBytes = s.xofBytes := rfl
@[simp] theorem raise_pending (e : ErrorCode) : (s.raise e).pending = s.pending := rfl
@[simp] theorem raise_agenda (e : ErrorCode) : (s.raise e).agenda = s.agenda := rfl
@[simp] theorem raise_rdata (e : ErrorCode) : (s.raise e).rdata = s.rdata := rfl
@[simp] theorem raise_xofReady (e : ErrorCode) : (s.raise e).xofReady = s.xofReady := rfl
@[simp] theorem raise_xofOracle (e : ErrorCode) : (s.raise e).xofOracle = s.xofOracle := rfl
@[simp] theorem raise_prfOracle (e : ErrorCode) : (s.raise e).prfOracle = s.prfOracle := rfl

/-! ### `State.accept` -/

@[simp] theorem accept_P (w : Word) (i : Instr) : (s.accept w i).P = s.P := rfl
@[simp] theorem accept_buf (w : Word) (i : Instr) : (s.accept w i).buf = s.buf := rfl
@[simp] theorem accept_rho (w : Word) (i : Instr) : (s.accept w i).rho = s.rho := rfl
@[simp] theorem accept_sig (w : Word) (i : Instr) : (s.accept w i).sig = s.sig := rfl
@[simp] theorem accept_counter (w : Word) (i : Instr) : (s.accept w i).counter = s.counter := rfl
@[simp] theorem accept_ctrExh (w : Word) (i : Instr) : (s.accept w i).ctrExh = s.ctrExh := rfl
@[simp] theorem accept_busy (w : Word) (i : Instr) : (s.accept w i).busy = true := rfl
@[simp] theorem accept_done (w : Word) (i : Instr) : (s.accept w i).done = false := rfl
@[simp] theorem accept_err (w : Word) (i : Instr) : (s.accept w i).err = s.err := rfl
@[simp] theorem accept_errcode (w : Word) (i : Instr) : (s.accept w i).errcode = s.errcode := rfl
@[simp] theorem accept_ieDone (w : Word) (i : Instr) : (s.accept w i).ieDone = s.ieDone := rfl
@[simp] theorem accept_ieErr (w : Word) (i : Instr) : (s.accept w i).ieErr = s.ieErr := rfl
@[simp] theorem accept_lastCmd (w : Word) (i : Instr) : (s.accept w i).lastCmd = w := rfl
@[simp] theorem accept_xofBytes (w : Word) (i : Instr) : (s.accept w i).xofBytes = s.xofBytes := rfl
@[simp] theorem accept_pending (w : Word) (i : Instr) : (s.accept w i).pending = some i := rfl
@[simp] theorem accept_agenda (w : Word) (i : Instr) : (s.accept w i).agenda = s.agenda := rfl
@[simp] theorem accept_rdata (w : Word) (i : Instr) : (s.accept w i).rdata = s.rdata := rfl
@[simp] theorem accept_xofReady (w : Word) (i : Instr) : (s.accept w i).xofReady = s.xofReady := rfl
@[simp] theorem accept_xofOracle (w : Word) (i : Instr) : (s.accept w i).xofOracle = s.xofOracle := rfl
@[simp] theorem accept_prfOracle (w : Word) (i : Instr) : (s.accept w i).prfOracle = s.prfOracle := rfl

/-! ### `State.reject` -/

@[simp] theorem reject_P (e : ErrorCode) : (s.reject e).P = s.P := rfl
@[simp] theorem reject_buf (e : ErrorCode) : (s.reject e).buf = s.buf := rfl
@[simp] theorem reject_rho (e : ErrorCode) : (s.reject e).rho = s.rho := rfl
@[simp] theorem reject_sig (e : ErrorCode) : (s.reject e).sig = s.sig := rfl
@[simp] theorem reject_counter (e : ErrorCode) : (s.reject e).counter = s.counter := rfl
@[simp] theorem reject_ctrExh (e : ErrorCode) : (s.reject e).ctrExh = s.ctrExh := rfl
@[simp] theorem reject_busy (e : ErrorCode) : (s.reject e).busy = s.busy := rfl
@[simp] theorem reject_done (e : ErrorCode) : (s.reject e).done = true := rfl
@[simp] theorem reject_err (e : ErrorCode) : (s.reject e).err = true := rfl
@[simp] theorem reject_errcode (e : ErrorCode) : (s.reject e).errcode = if s.err then s.errcode else e.bits := rfl
@[simp] theorem reject_ieDone (e : ErrorCode) : (s.reject e).ieDone = s.ieDone := rfl
@[simp] theorem reject_ieErr (e : ErrorCode) : (s.reject e).ieErr = s.ieErr := rfl
@[simp] theorem reject_lastCmd (e : ErrorCode) : (s.reject e).lastCmd = s.lastCmd := rfl
@[simp] theorem reject_xofBytes (e : ErrorCode) : (s.reject e).xofBytes = s.xofBytes := rfl
@[simp] theorem reject_pending (e : ErrorCode) : (s.reject e).pending = s.pending := rfl
@[simp] theorem reject_agenda (e : ErrorCode) : (s.reject e).agenda = s.agenda := rfl
@[simp] theorem reject_rdata (e : ErrorCode) : (s.reject e).rdata = s.rdata := rfl
@[simp] theorem reject_xofReady (e : ErrorCode) : (s.reject e).xofReady = s.xofReady := rfl
@[simp] theorem reject_xofOracle (e : ErrorCode) : (s.reject e).xofOracle = s.xofOracle := rfl
@[simp] theorem reject_prfOracle (e : ErrorCode) : (s.reject e).prfOracle = s.prfOracle := rfl

/-! ### `State.complete` -/

@[simp] theorem complete_P : s.complete.P = s.P := rfl
@[simp] theorem complete_buf : s.complete.buf = s.buf := rfl
@[simp] theorem complete_rho : s.complete.rho = s.rho := rfl
@[simp] theorem complete_sig : s.complete.sig = s.sig := rfl
@[simp] theorem complete_counter : s.complete.counter = s.counter := rfl
@[simp] theorem complete_ctrExh : s.complete.ctrExh = s.ctrExh := rfl
@[simp] theorem complete_busy : s.complete.busy = false := rfl
@[simp] theorem complete_done : s.complete.done = true := rfl
@[simp] theorem complete_err : s.complete.err = s.err := rfl
@[simp] theorem complete_errcode : s.complete.errcode = s.errcode := rfl
@[simp] theorem complete_ieDone : s.complete.ieDone = s.ieDone := rfl
@[simp] theorem complete_ieErr : s.complete.ieErr = s.ieErr := rfl
@[simp] theorem complete_lastCmd : s.complete.lastCmd = s.lastCmd := rfl
@[simp] theorem complete_xofBytes : s.complete.xofBytes = s.xofBytes := rfl
@[simp] theorem complete_pending : s.complete.pending = none := rfl
@[simp] theorem complete_agenda : s.complete.agenda = s.agenda := rfl
@[simp] theorem complete_rdata : s.complete.rdata = s.rdata := rfl
@[simp] theorem complete_xofReady : s.complete.xofReady = s.xofReady := rfl
@[simp] theorem complete_xofOracle : s.complete.xofOracle = s.xofOracle := rfl
@[simp] theorem complete_prfOracle : s.complete.prfOracle = s.prfOracle := rfl

/-! ### `State.abort` -/

@[simp] theorem abort_P : s.abort.P = s.P := rfl
@[simp] theorem abort_buf : s.abort.buf = s.buf := rfl
@[simp] theorem abort_rho : s.abort.rho = s.rho := rfl
@[simp] theorem abort_sig : s.abort.sig = s.sig := rfl
@[simp] theorem abort_counter : s.abort.counter = s.counter := rfl
@[simp] theorem abort_ctrExh : s.abort.ctrExh = s.ctrExh := rfl
@[simp] theorem abort_busy : s.abort.busy = false := rfl
@[simp] theorem abort_done : s.abort.done = true := rfl
@[simp] theorem abort_err : s.abort.err = true := rfl
@[simp] theorem abort_errcode : s.abort.errcode = if s.err then s.errcode else ErrorCode.bits .aborted := rfl
@[simp] theorem abort_ieDone : s.abort.ieDone = s.ieDone := rfl
@[simp] theorem abort_ieErr : s.abort.ieErr = s.ieErr := rfl
@[simp] theorem abort_lastCmd : s.abort.lastCmd = s.lastCmd := rfl
@[simp] theorem abort_xofBytes : s.abort.xofBytes = s.xofBytes := rfl
@[simp] theorem abort_pending : s.abort.pending = none := rfl
@[simp] theorem abort_agenda : s.abort.agenda = s.agenda := rfl
@[simp] theorem abort_rdata : s.abort.rdata = s.rdata := rfl
@[simp] theorem abort_xofReady : s.abort.xofReady = s.xofReady := rfl
@[simp] theorem abort_xofOracle : s.abort.xofOracle = s.xofOracle := rfl
@[simp] theorem abort_prfOracle : s.abort.prfOracle = s.prfOracle := rfl

/-! ### `State.commitPoly` -/

@[simp] theorem commitPoly_P (p : PReg) (v : PolyVal) : (s.commitPoly p v).P = s.P.set p.val v p.isLt := rfl
@[simp] theorem commitPoly_buf (p : PReg) (v : PolyVal) : (s.commitPoly p v).buf = s.buf := rfl
@[simp] theorem commitPoly_rho (p : PReg) (v : PolyVal) : (s.commitPoly p v).rho = s.rho := rfl
@[simp] theorem commitPoly_sig (p : PReg) (v : PolyVal) : (s.commitPoly p v).sig = s.sig := rfl
@[simp] theorem commitPoly_counter (p : PReg) (v : PolyVal) : (s.commitPoly p v).counter = s.counter := rfl
@[simp] theorem commitPoly_ctrExh (p : PReg) (v : PolyVal) : (s.commitPoly p v).ctrExh = s.ctrExh := rfl
@[simp] theorem commitPoly_busy (p : PReg) (v : PolyVal) : (s.commitPoly p v).busy = false := rfl
@[simp] theorem commitPoly_done (p : PReg) (v : PolyVal) : (s.commitPoly p v).done = true := rfl
@[simp] theorem commitPoly_err (p : PReg) (v : PolyVal) : (s.commitPoly p v).err = s.err := rfl
@[simp] theorem commitPoly_errcode (p : PReg) (v : PolyVal) : (s.commitPoly p v).errcode = s.errcode := rfl
@[simp] theorem commitPoly_ieDone (p : PReg) (v : PolyVal) : (s.commitPoly p v).ieDone = s.ieDone := rfl
@[simp] theorem commitPoly_ieErr (p : PReg) (v : PolyVal) : (s.commitPoly p v).ieErr = s.ieErr := rfl
@[simp] theorem commitPoly_lastCmd (p : PReg) (v : PolyVal) : (s.commitPoly p v).lastCmd = s.lastCmd := rfl
@[simp] theorem commitPoly_xofBytes (p : PReg) (v : PolyVal) : (s.commitPoly p v).xofBytes = s.xofBytes := rfl
@[simp] theorem commitPoly_pending (p : PReg) (v : PolyVal) : (s.commitPoly p v).pending = none := rfl
@[simp] theorem commitPoly_agenda (p : PReg) (v : PolyVal) : (s.commitPoly p v).agenda = s.agenda := rfl
@[simp] theorem commitPoly_rdata (p : PReg) (v : PolyVal) : (s.commitPoly p v).rdata = s.rdata := rfl
@[simp] theorem commitPoly_xofReady (p : PReg) (v : PolyVal) : (s.commitPoly p v).xofReady = s.xofReady := rfl
@[simp] theorem commitPoly_xofOracle (p : PReg) (v : PolyVal) : (s.commitPoly p v).xofOracle = s.xofOracle := rfl
@[simp] theorem commitPoly_prfOracle (p : PReg) (v : PolyVal) : (s.commitPoly p v).prfOracle = s.prfOracle := rfl

/-! ### `State.clearDone` -/

@[simp] theorem clearDone_P : s.clearDone.P = s.P := rfl
@[simp] theorem clearDone_buf : s.clearDone.buf = s.buf := rfl
@[simp] theorem clearDone_rho : s.clearDone.rho = s.rho := rfl
@[simp] theorem clearDone_sig : s.clearDone.sig = s.sig := rfl
@[simp] theorem clearDone_counter : s.clearDone.counter = s.counter := rfl
@[simp] theorem clearDone_ctrExh : s.clearDone.ctrExh = s.ctrExh := rfl
@[simp] theorem clearDone_busy : s.clearDone.busy = s.busy := rfl
@[simp] theorem clearDone_done : s.clearDone.done = false := rfl
@[simp] theorem clearDone_err : s.clearDone.err = s.err := rfl
@[simp] theorem clearDone_errcode : s.clearDone.errcode = s.errcode := rfl
@[simp] theorem clearDone_ieDone : s.clearDone.ieDone = s.ieDone := rfl
@[simp] theorem clearDone_ieErr : s.clearDone.ieErr = s.ieErr := rfl
@[simp] theorem clearDone_lastCmd : s.clearDone.lastCmd = s.lastCmd := rfl
@[simp] theorem clearDone_xofBytes : s.clearDone.xofBytes = s.xofBytes := rfl
@[simp] theorem clearDone_pending : s.clearDone.pending = s.pending := rfl
@[simp] theorem clearDone_agenda : s.clearDone.agenda = s.agenda := rfl
@[simp] theorem clearDone_rdata : s.clearDone.rdata = s.rdata := rfl
@[simp] theorem clearDone_xofReady : s.clearDone.xofReady = s.xofReady := rfl
@[simp] theorem clearDone_xofOracle : s.clearDone.xofOracle = s.xofOracle := rfl
@[simp] theorem clearDone_prfOracle : s.clearDone.prfOracle = s.prfOracle := rfl

/-! ### `State.clearErr` -/

@[simp] theorem clearErr_P : s.clearErr.P = s.P := rfl
@[simp] theorem clearErr_buf : s.clearErr.buf = s.buf := rfl
@[simp] theorem clearErr_rho : s.clearErr.rho = s.rho := rfl
@[simp] theorem clearErr_sig : s.clearErr.sig = s.sig := rfl
@[simp] theorem clearErr_counter : s.clearErr.counter = s.counter := rfl
@[simp] theorem clearErr_ctrExh : s.clearErr.ctrExh = s.ctrExh := rfl
@[simp] theorem clearErr_busy : s.clearErr.busy = s.busy := rfl
@[simp] theorem clearErr_done : s.clearErr.done = s.done := rfl
@[simp] theorem clearErr_err : s.clearErr.err = false := rfl
@[simp] theorem clearErr_errcode : s.clearErr.errcode = 0 := rfl
@[simp] theorem clearErr_ieDone : s.clearErr.ieDone = s.ieDone := rfl
@[simp] theorem clearErr_ieErr : s.clearErr.ieErr = s.ieErr := rfl
@[simp] theorem clearErr_lastCmd : s.clearErr.lastCmd = s.lastCmd := rfl
@[simp] theorem clearErr_xofBytes : s.clearErr.xofBytes = s.xofBytes := rfl
@[simp] theorem clearErr_pending : s.clearErr.pending = s.pending := rfl
@[simp] theorem clearErr_agenda : s.clearErr.agenda = s.agenda := rfl
@[simp] theorem clearErr_rdata : s.clearErr.rdata = s.rdata := rfl
@[simp] theorem clearErr_xofReady : s.clearErr.xofReady = s.xofReady := rfl
@[simp] theorem clearErr_xofOracle : s.clearErr.xofOracle = s.xofOracle := rfl
@[simp] theorem clearErr_prfOracle : s.clearErr.prfOracle = s.prfOracle := rfl

/-! ### `State.writeIrqEn` -/

@[simp] theorem writeIrqEn_P (w : Word) : (s.writeIrqEn w).P = s.P := rfl
@[simp] theorem writeIrqEn_buf (w : Word) : (s.writeIrqEn w).buf = s.buf := rfl
@[simp] theorem writeIrqEn_rho (w : Word) : (s.writeIrqEn w).rho = s.rho := rfl
@[simp] theorem writeIrqEn_sig (w : Word) : (s.writeIrqEn w).sig = s.sig := rfl
@[simp] theorem writeIrqEn_counter (w : Word) : (s.writeIrqEn w).counter = s.counter := rfl
@[simp] theorem writeIrqEn_ctrExh (w : Word) : (s.writeIrqEn w).ctrExh = s.ctrExh := rfl
@[simp] theorem writeIrqEn_busy (w : Word) : (s.writeIrqEn w).busy = s.busy := rfl
@[simp] theorem writeIrqEn_done (w : Word) : (s.writeIrqEn w).done = s.done := rfl
@[simp] theorem writeIrqEn_err (w : Word) : (s.writeIrqEn w).err = s.err := rfl
@[simp] theorem writeIrqEn_errcode (w : Word) : (s.writeIrqEn w).errcode = s.errcode := rfl
@[simp] theorem writeIrqEn_ieDone (w : Word) : (s.writeIrqEn w).ieDone = w.getLsbD 0 := rfl
@[simp] theorem writeIrqEn_ieErr (w : Word) : (s.writeIrqEn w).ieErr = w.getLsbD 1 := rfl
@[simp] theorem writeIrqEn_lastCmd (w : Word) : (s.writeIrqEn w).lastCmd = s.lastCmd := rfl
@[simp] theorem writeIrqEn_xofBytes (w : Word) : (s.writeIrqEn w).xofBytes = s.xofBytes := rfl
@[simp] theorem writeIrqEn_pending (w : Word) : (s.writeIrqEn w).pending = s.pending := rfl
@[simp] theorem writeIrqEn_agenda (w : Word) : (s.writeIrqEn w).agenda = s.agenda := rfl
@[simp] theorem writeIrqEn_rdata (w : Word) : (s.writeIrqEn w).rdata = s.rdata := rfl
@[simp] theorem writeIrqEn_xofReady (w : Word) : (s.writeIrqEn w).xofReady = s.xofReady := rfl
@[simp] theorem writeIrqEn_xofOracle (w : Word) : (s.writeIrqEn w).xofOracle = s.xofOracle := rfl
@[simp] theorem writeIrqEn_prfOracle (w : Word) : (s.writeIrqEn w).prfOracle = s.prfOracle := rfl

/-! ### `State.writeCounter` -/

@[simp] theorem writeCounter_P (w : Word) : (s.writeCounter w).P = s.P := rfl
@[simp] theorem writeCounter_buf (w : Word) : (s.writeCounter w).buf = s.buf := rfl
@[simp] theorem writeCounter_rho (w : Word) : (s.writeCounter w).rho = s.rho := rfl
@[simp] theorem writeCounter_sig (w : Word) : (s.writeCounter w).sig = s.sig := rfl
@[simp] theorem writeCounter_counter (w : Word) : (s.writeCounter w).counter = w.extractLsb' 0 8 := rfl
@[simp] theorem writeCounter_ctrExh (w : Word) : (s.writeCounter w).ctrExh = false := rfl
@[simp] theorem writeCounter_busy (w : Word) : (s.writeCounter w).busy = s.busy := rfl
@[simp] theorem writeCounter_done (w : Word) : (s.writeCounter w).done = s.done := rfl
@[simp] theorem writeCounter_err (w : Word) : (s.writeCounter w).err = s.err := rfl
@[simp] theorem writeCounter_errcode (w : Word) : (s.writeCounter w).errcode = s.errcode := rfl
@[simp] theorem writeCounter_ieDone (w : Word) : (s.writeCounter w).ieDone = s.ieDone := rfl
@[simp] theorem writeCounter_ieErr (w : Word) : (s.writeCounter w).ieErr = s.ieErr := rfl
@[simp] theorem writeCounter_lastCmd (w : Word) : (s.writeCounter w).lastCmd = s.lastCmd := rfl
@[simp] theorem writeCounter_xofBytes (w : Word) : (s.writeCounter w).xofBytes = s.xofBytes := rfl
@[simp] theorem writeCounter_pending (w : Word) : (s.writeCounter w).pending = s.pending := rfl
@[simp] theorem writeCounter_agenda (w : Word) : (s.writeCounter w).agenda = s.agenda := rfl
@[simp] theorem writeCounter_rdata (w : Word) : (s.writeCounter w).rdata = s.rdata := rfl
@[simp] theorem writeCounter_xofReady (w : Word) : (s.writeCounter w).xofReady = s.xofReady := rfl
@[simp] theorem writeCounter_xofOracle (w : Word) : (s.writeCounter w).xofOracle = s.xofOracle := rfl
@[simp] theorem writeCounter_prfOracle (w : Word) : (s.writeCounter w).prfOracle = s.prfOracle := rfl

/-! ### `State.failRead` -/

@[simp] theorem failRead_P (e : ErrorCode) : (s.failRead e).P = s.P := rfl
@[simp] theorem failRead_buf (e : ErrorCode) : (s.failRead e).buf = s.buf := rfl
@[simp] theorem failRead_rho (e : ErrorCode) : (s.failRead e).rho = s.rho := rfl
@[simp] theorem failRead_sig (e : ErrorCode) : (s.failRead e).sig = s.sig := rfl
@[simp] theorem failRead_counter (e : ErrorCode) : (s.failRead e).counter = s.counter := rfl
@[simp] theorem failRead_ctrExh (e : ErrorCode) : (s.failRead e).ctrExh = s.ctrExh := rfl
@[simp] theorem failRead_busy (e : ErrorCode) : (s.failRead e).busy = s.busy := rfl
@[simp] theorem failRead_done (e : ErrorCode) : (s.failRead e).done = s.done := rfl
@[simp] theorem failRead_err (e : ErrorCode) : (s.failRead e).err = true := rfl
@[simp] theorem failRead_errcode (e : ErrorCode) : (s.failRead e).errcode = if s.err then s.errcode else e.bits := rfl
@[simp] theorem failRead_ieDone (e : ErrorCode) : (s.failRead e).ieDone = s.ieDone := rfl
@[simp] theorem failRead_ieErr (e : ErrorCode) : (s.failRead e).ieErr = s.ieErr := rfl
@[simp] theorem failRead_lastCmd (e : ErrorCode) : (s.failRead e).lastCmd = s.lastCmd := rfl
@[simp] theorem failRead_xofBytes (e : ErrorCode) : (s.failRead e).xofBytes = s.xofBytes := rfl
@[simp] theorem failRead_pending (e : ErrorCode) : (s.failRead e).pending = s.pending := rfl
@[simp] theorem failRead_agenda (e : ErrorCode) : (s.failRead e).agenda = s.agenda := rfl
@[simp] theorem failRead_rdata (e : ErrorCode) : (s.failRead e).rdata = 0 := rfl
@[simp] theorem failRead_xofReady (e : ErrorCode) : (s.failRead e).xofReady = s.xofReady := rfl
@[simp] theorem failRead_xofOracle (e : ErrorCode) : (s.failRead e).xofOracle = s.xofOracle := rfl
@[simp] theorem failRead_prfOracle (e : ErrorCode) : (s.failRead e).prfOracle = s.prfOracle := rfl

/-! ### `State.commitSample` -/

@[simp] theorem commitSample_P (p : PReg) (a : List Coef) (k : Nat) : (s.commitSample p a k).P = s.P.set p.val (mkPoly fun j => a.getD j 0) p.isLt := rfl
@[simp] theorem commitSample_buf (p : PReg) (a : List Coef) (k : Nat) : (s.commitSample p a k).buf = s.buf := rfl
@[simp] theorem commitSample_rho (p : PReg) (a : List Coef) (k : Nat) : (s.commitSample p a k).rho = s.rho := rfl
@[simp] theorem commitSample_sig (p : PReg) (a : List Coef) (k : Nat) : (s.commitSample p a k).sig = s.sig := rfl
@[simp] theorem commitSample_counter (p : PReg) (a : List Coef) (k : Nat) : (s.commitSample p a k).counter = s.counter := rfl
@[simp] theorem commitSample_ctrExh (p : PReg) (a : List Coef) (k : Nat) : (s.commitSample p a k).ctrExh = s.ctrExh := rfl
@[simp] theorem commitSample_busy (p : PReg) (a : List Coef) (k : Nat) : (s.commitSample p a k).busy = false := rfl
@[simp] theorem commitSample_done (p : PReg) (a : List Coef) (k : Nat) : (s.commitSample p a k).done = true := rfl
@[simp] theorem commitSample_err (p : PReg) (a : List Coef) (k : Nat) : (s.commitSample p a k).err = s.err := rfl
@[simp] theorem commitSample_errcode (p : PReg) (a : List Coef) (k : Nat) : (s.commitSample p a k).errcode = s.errcode := rfl
@[simp] theorem commitSample_ieDone (p : PReg) (a : List Coef) (k : Nat) : (s.commitSample p a k).ieDone = s.ieDone := rfl
@[simp] theorem commitSample_ieErr (p : PReg) (a : List Coef) (k : Nat) : (s.commitSample p a k).ieErr = s.ieErr := rfl
@[simp] theorem commitSample_lastCmd (p : PReg) (a : List Coef) (k : Nat) : (s.commitSample p a k).lastCmd = s.lastCmd := rfl
@[simp] theorem commitSample_xofBytes (p : PReg) (a : List Coef) (k : Nat) : (s.commitSample p a k).xofBytes = saturate32 k := rfl
@[simp] theorem commitSample_pending (p : PReg) (a : List Coef) (k : Nat) : (s.commitSample p a k).pending = none := rfl
@[simp] theorem commitSample_agenda (p : PReg) (a : List Coef) (k : Nat) : (s.commitSample p a k).agenda = s.agenda := rfl
@[simp] theorem commitSample_rdata (p : PReg) (a : List Coef) (k : Nat) : (s.commitSample p a k).rdata = s.rdata := rfl
@[simp] theorem commitSample_xofReady (p : PReg) (a : List Coef) (k : Nat) : (s.commitSample p a k).xofReady = s.xofReady := rfl
@[simp] theorem commitSample_xofOracle (p : PReg) (a : List Coef) (k : Nat) : (s.commitSample p a k).xofOracle = s.xofOracle := rfl
@[simp] theorem commitSample_prfOracle (p : PReg) (a : List Coef) (k : Nat) : (s.commitSample p a k).prfOracle = s.prfOracle := rfl

/-! ### `State.resetBlock` -/

@[simp] theorem resetBlock_P : s.resetBlock.P = State.reset.P := rfl
@[simp] theorem resetBlock_buf : s.resetBlock.buf = State.reset.buf := rfl
@[simp] theorem resetBlock_rho : s.resetBlock.rho = State.reset.rho := rfl
@[simp] theorem resetBlock_sig : s.resetBlock.sig = State.reset.sig := rfl
@[simp] theorem resetBlock_counter : s.resetBlock.counter = State.reset.counter := rfl
@[simp] theorem resetBlock_ctrExh : s.resetBlock.ctrExh = State.reset.ctrExh := rfl
@[simp] theorem resetBlock_busy : s.resetBlock.busy = State.reset.busy := rfl
@[simp] theorem resetBlock_done : s.resetBlock.done = State.reset.done := rfl
@[simp] theorem resetBlock_err : s.resetBlock.err = State.reset.err := rfl
@[simp] theorem resetBlock_errcode : s.resetBlock.errcode = State.reset.errcode := rfl
@[simp] theorem resetBlock_ieDone : s.resetBlock.ieDone = State.reset.ieDone := rfl
@[simp] theorem resetBlock_ieErr : s.resetBlock.ieErr = State.reset.ieErr := rfl
@[simp] theorem resetBlock_lastCmd : s.resetBlock.lastCmd = State.reset.lastCmd := rfl
@[simp] theorem resetBlock_xofBytes : s.resetBlock.xofBytes = State.reset.xofBytes := rfl
@[simp] theorem resetBlock_pending : s.resetBlock.pending = State.reset.pending := rfl
@[simp] theorem resetBlock_agenda : s.resetBlock.agenda = s.agenda := rfl
@[simp] theorem resetBlock_rdata : s.resetBlock.rdata = s.rdata := rfl
@[simp] theorem resetBlock_xofReady : s.resetBlock.xofReady = s.xofReady := rfl
@[simp] theorem resetBlock_xofOracle : s.resetBlock.xofOracle = s.xofOracle := rfl
@[simp] theorem resetBlock_prfOracle : s.resetBlock.prfOracle = s.prfOracle := rfl

/-! ### `State.advanceCounter` -/

@[simp] theorem advanceCounter_P : s.advanceCounter.P = s.P := by
  unfold State.advanceCounter; split <;> rfl
@[simp] theorem advanceCounter_buf : s.advanceCounter.buf = s.buf := by
  unfold State.advanceCounter; split <;> rfl
@[simp] theorem advanceCounter_rho : s.advanceCounter.rho = s.rho := by
  unfold State.advanceCounter; split <;> rfl
@[simp] theorem advanceCounter_sig : s.advanceCounter.sig = s.sig := by
  unfold State.advanceCounter; split <;> rfl
@[simp] theorem advanceCounter_busy : s.advanceCounter.busy = s.busy := by
  unfold State.advanceCounter; split <;> rfl
@[simp] theorem advanceCounter_done : s.advanceCounter.done = s.done := by
  unfold State.advanceCounter; split <;> rfl
@[simp] theorem advanceCounter_err : s.advanceCounter.err = s.err := by
  unfold State.advanceCounter; split <;> rfl
@[simp] theorem advanceCounter_errcode : s.advanceCounter.errcode = s.errcode := by
  unfold State.advanceCounter; split <;> rfl
@[simp] theorem advanceCounter_ieDone : s.advanceCounter.ieDone = s.ieDone := by
  unfold State.advanceCounter; split <;> rfl
@[simp] theorem advanceCounter_ieErr : s.advanceCounter.ieErr = s.ieErr := by
  unfold State.advanceCounter; split <;> rfl
@[simp] theorem advanceCounter_lastCmd : s.advanceCounter.lastCmd = s.lastCmd := by
  unfold State.advanceCounter; split <;> rfl
@[simp] theorem advanceCounter_xofBytes : s.advanceCounter.xofBytes = s.xofBytes := by
  unfold State.advanceCounter; split <;> rfl
@[simp] theorem advanceCounter_pending : s.advanceCounter.pending = s.pending := by
  unfold State.advanceCounter; split <;> rfl
@[simp] theorem advanceCounter_agenda : s.advanceCounter.agenda = s.agenda := by
  unfold State.advanceCounter; split <;> rfl
@[simp] theorem advanceCounter_rdata : s.advanceCounter.rdata = s.rdata := by
  unfold State.advanceCounter; split <;> rfl
@[simp] theorem advanceCounter_xofReady : s.advanceCounter.xofReady = s.xofReady := by
  unfold State.advanceCounter; split <;> rfl
@[simp] theorem advanceCounter_xofOracle : s.advanceCounter.xofOracle = s.xofOracle := by
  unfold State.advanceCounter; split <;> rfl
@[simp] theorem advanceCounter_prfOracle : s.advanceCounter.prfOracle = s.prfOracle := by
  unfold State.advanceCounter; split <;> rfl

theorem advanceCounter_counter :
    s.advanceCounter.counter = if s.counter = 255 then 255 else s.counter + 1 := by
  unfold State.advanceCounter
  split
  next h => simpa using h
  next h => rfl

theorem advanceCounter_ctrExh :
    s.advanceCounter.ctrExh = if s.counter = 255 then true else s.ctrExh := by
  unfold State.advanceCounter; split <;> rfl

/-! ### `State.writeStatus` -/

@[simp] theorem writeStatus_P (w : Word) : (s.writeStatus w).P = s.P := by
  simp only [State.writeStatus]; split <;> split <;> rfl
@[simp] theorem writeStatus_buf (w : Word) : (s.writeStatus w).buf = s.buf := by
  simp only [State.writeStatus]; split <;> split <;> rfl
@[simp] theorem writeStatus_rho (w : Word) : (s.writeStatus w).rho = s.rho := by
  simp only [State.writeStatus]; split <;> split <;> rfl
@[simp] theorem writeStatus_sig (w : Word) : (s.writeStatus w).sig = s.sig := by
  simp only [State.writeStatus]; split <;> split <;> rfl
@[simp] theorem writeStatus_counter (w : Word) : (s.writeStatus w).counter = s.counter := by
  simp only [State.writeStatus]; split <;> split <;> rfl
@[simp] theorem writeStatus_ctrExh (w : Word) : (s.writeStatus w).ctrExh = s.ctrExh := by
  simp only [State.writeStatus]; split <;> split <;> rfl
@[simp] theorem writeStatus_busy (w : Word) : (s.writeStatus w).busy = s.busy := by
  simp only [State.writeStatus]; split <;> split <;> rfl
@[simp] theorem writeStatus_ieDone (w : Word) : (s.writeStatus w).ieDone = s.ieDone := by
  simp only [State.writeStatus]; split <;> split <;> rfl
@[simp] theorem writeStatus_ieErr (w : Word) : (s.writeStatus w).ieErr = s.ieErr := by
  simp only [State.writeStatus]; split <;> split <;> rfl
@[simp] theorem writeStatus_lastCmd (w : Word) : (s.writeStatus w).lastCmd = s.lastCmd := by
  simp only [State.writeStatus]; split <;> split <;> rfl
@[simp] theorem writeStatus_xofBytes (w : Word) : (s.writeStatus w).xofBytes = s.xofBytes := by
  simp only [State.writeStatus]; split <;> split <;> rfl
@[simp] theorem writeStatus_pending (w : Word) : (s.writeStatus w).pending = s.pending := by
  simp only [State.writeStatus]; split <;> split <;> rfl
@[simp] theorem writeStatus_agenda (w : Word) : (s.writeStatus w).agenda = s.agenda := by
  simp only [State.writeStatus]; split <;> split <;> rfl
@[simp] theorem writeStatus_rdata (w : Word) : (s.writeStatus w).rdata = s.rdata := by
  simp only [State.writeStatus]; split <;> split <;> rfl
@[simp] theorem writeStatus_xofReady (w : Word) : (s.writeStatus w).xofReady = s.xofReady := by
  simp only [State.writeStatus]; split <;> split <;> rfl
@[simp] theorem writeStatus_xofOracle (w : Word) : (s.writeStatus w).xofOracle = s.xofOracle := by
  simp only [State.writeStatus]; split <;> split <;> rfl
@[simp] theorem writeStatus_prfOracle (w : Word) : (s.writeStatus w).prfOracle = s.prfOracle := by
  simp only [State.writeStatus]; split <;> split <;> rfl

theorem writeStatus_done (w : Word) :
    (s.writeStatus w).done = if w.getLsbD 1 then false else s.done := by
  simp only [State.writeStatus]; split <;> split <;> rfl

theorem writeStatus_err (w : Word) : (s.writeStatus w).err = if w.getLsbD 2 then false else s.err := by
  simp only [State.writeStatus]; split <;> split <;> rfl

theorem writeStatus_errcode (w : Word) :
    (s.writeStatus w).errcode = if w.getLsbD 2 then 0 else s.errcode := by
  simp only [State.writeStatus]; split <;> split <;> rfl

/-! ### The polynomial registers -/

@[simp] theorem setPoly_poly_self (p : PReg) (v : PolyVal) : (s.setPoly p v).poly p = v := by
  simp [State.poly, State.setPoly]

theorem setPoly_poly_ne (p r : PReg) (v : PolyVal) (h : r ≠ p) : (s.setPoly p v).poly r = s.poly r := by
  have : p.val ≠ r.val := fun e => h (Fin.ext e.symm)
  simp [State.poly, State.setPoly, this]

@[simp] theorem commitPoly_poly_self (p : PReg) (v : PolyVal) : (s.commitPoly p v).poly p = v :=
  setPoly_poly_self s p v

theorem commitPoly_poly_ne (p r : PReg) (v : PolyVal) (h : r ≠ p) :
    (s.commitPoly p v).poly r = s.poly r := setPoly_poly_ne s p r v h

/-- A register's value depends on the register file alone. -/
theorem poly_congr {s t : State} (h : t.P = s.P) (p : PReg) : t.poly p = s.poly p := by
  simp [State.poly, h]

end Sys2Proof.Machine
end

