-- ==== Sys2Proof/Laws/Step.lean ====
section
/-!
SUPPORT. What can happen, said once: the shapes a completion can have, what a host access can do, what an
event can do, and what a step can do. Later proofs cite these and unfold none of the functions.
-/

namespace Sys2Proof.Machine

/-! ### Completion -/

/-- Everything the completion of a command can do (spec/60_exceptions.md R257). -/
theorem exec_cases {i : Instr} {s t : State} (h : exec i s = .next t) :
    (i = .nop ∧ t = s.complete) ∨
    (∃ pd v, dest i = some pd ∧ t = s.commitPoly pd v) ∨
    (∃ pa d, i = .encode pa d ∧
      t = (s.setBuf (writeBytes s.buf 0 (byteEncode (widthOf d) (s.poly pa)))).complete) ∨
    (∃ pd b32 b33, i = .sampleNtt pd b32 b33 ∧
      ((∃ a k, sampleNtt (s.xofStream (xofInput s.rho b32 b33)) s.xofReady = some (a, k) ∧
          t = s.commitSample pd a k) ∨
        (sampleNtt (s.xofStream (xofInput s.rho b32 b33)) s.xofReady = none ∧ t = s))) ∨
    (∃ pd eta v, i = .sampleCbd pd eta ∧ t = s.advanceCounter.commitPoly pd v) := by
  cases i with
  | nop => exact .inl ⟨rfl, (Host.Outcome.next.inj h).symm⟩
  | encode pa d => exact .inr (.inr (.inl ⟨pa, d, rfl, (Host.Outcome.next.inj h).symm⟩))
  | sampleNtt pd b32 b33 =>
    refine .inr (.inr (.inr (.inl ⟨pd, b32, b33, rfl, ?_⟩)))
    have h := Host.Outcome.next.inj h
    cases hs : sampleNtt (s.xofStream (xofInput s.rho b32 b33)) s.xofReady with
    | none => rw [hs] at h; exact .inr ⟨rfl, h.symm⟩
    | some ak => obtain ⟨a, k⟩ := ak; rw [hs] at h; exact .inl ⟨a, k, rfl, h.symm⟩
  | sampleCbd pd eta =>
    exact .inr (.inr (.inr (.inr ⟨pd, eta, _, rfl, (Host.Outcome.next.inj h).symm⟩)))
  | _ => exact .inr (.inl ⟨_, _, rfl, (Host.Outcome.next.inj h).symm⟩)

/-- A completion always answers a next state. -/
theorem exec_next (i : Instr) (s : State) : ∃ t, exec i s = .next t := by
  cases i <;> exact ⟨_, rfl⟩

/-! ### Locations -/

/-- A mapped POLY offset names its register and coefficient (spec/20_memory.md R61). -/
theorem locate_poly (p : PReg) (j : Nat) (hj : j < 256) :
    locate (0x1000 + 0x400 * p.val + 4 * j) = some (.poly p j) := by
  have hp := p.isLt
  have h1 : (0x1000 + 0x400 * p.val + 4 * j - 0x1000) / 4 / 256 = p.val := by omega
  have h2 : (0x1000 + 0x400 * p.val + 4 * j - 0x1000) / 4 % 256 = j := by omega
  have hf : addressMap.find? (·.holds (0x1000 + 0x400 * p.val + 4 * j)) =
      some ⟨0x1000, 0x2FFC, fun k => .poly (Fin.ofNat 8 (k / 256)) (k % 256)⟩ := by
    simp only [addressMap, Region.holds, List.find?_cons]
    repeat rw [decide_eq_false (by omega)]
    rw [decide_eq_true (by omega)]
  simp only [locate, hf, Option.map_some, h1, h2]
  congr
  exact Fin.ext (Nat.mod_eq_of_lt hp)

theorem locate_buf (k : Nat) (hk : k < 96) : locate (0x400 + 4 * k) = some (.buf k) := by
  have h1 : (0x400 + 4 * k - 0x400) / 4 = k := by omega
  have hf : addressMap.find? (·.holds (0x400 + 4 * k)) = some ⟨0x0400, 0x057C, .buf⟩ := by
    simp only [addressMap, Region.holds, List.find?_cons]
    repeat rw [decide_eq_false (by omega)]
    rw [decide_eq_true (by omega)]
  simp only [locate, hf, Option.map_some, h1]

theorem locate_seedRho (k : Nat) (hk : k < 8) : locate (0x20 + 4 * k) = some (.seedRho k) := by
  have h1 : (0x20 + 4 * k - 0x20) / 4 = k := by omega
  have hf : addressMap.find? (·.holds (0x20 + 4 * k)) = some ⟨0x0020, 0x003C, .seedRho⟩ := by
    simp only [addressMap, Region.holds, List.find?_cons]
    repeat rw [decide_eq_false (by omega)]
    rw [decide_eq_true (by omega)]
  simp only [locate, hf, Option.map_some, h1]

theorem locate_seedPrf (k : Nat) (hk : k < 8) : locate (0x40 + 4 * k) = some (.seedPrf k) := by
  have h1 : (0x40 + 4 * k - 0x40) / 4 = k := by omega
  have hf : addressMap.find? (·.holds (0x40 + 4 * k)) = some ⟨0x0040, 0x005C, .seedPrf⟩ := by
    simp only [addressMap, Region.holds, List.find?_cons]
    repeat rw [decide_eq_false (by omega)]
    rw [decide_eq_true (by omega)]
  simp only [locate, hf, Option.map_some, h1]

theorem locate_zeta (i : Nat) (hi : i < 128) : locate (0x600 + 4 * i) = some (.zeta i) := by
  have h1 : (0x600 + 4 * i - 0x600) / 4 = i := by omega
  have hf : addressMap.find? (·.holds (0x600 + 4 * i)) = some ⟨0x0600, 0x07FC, .zeta⟩ := by
    simp only [addressMap, Region.holds, List.find?_cons]
    repeat rw [decide_eq_false (by omega)]
    rw [decide_eq_true (by omega)]
  simp only [locate, hf, Option.map_some, h1]

theorem locate_gamma (i : Nat) (hi : i < 128) : locate (0x800 + 4 * i) = some (.gamma i) := by
  have h1 : (0x800 + 4 * i - 0x800) / 4 = i := by omega
  have hf : addressMap.find? (·.holds (0x800 + 4 * i)) = some ⟨0x0800, 0x09FC, .gamma⟩ := by
    simp only [addressMap, Region.holds, List.find?_cons]
    repeat rw [decide_eq_false (by omega)]
    rw [decide_eq_true (by omega)]
  simp only [locate, hf, Option.map_some, h1]

/-- A location that can stand in the address map: word indices within the window's size (R61). -/
def Loc.inRange : Loc → Prop
  | .seedRho k => k < 8
  | .seedPrf k => k < 8
  | .buf k => k < 96
  | .zeta i => i < 128
  | .gamma i => i < 128
  | .poly _ j => j < 256
  | _ => True

/-- Every mapped offset names a location of the map. -/
theorem locate_inRange {off : Nat} {l : Loc} (h : locate off = some l) : l.inRange := by
  rw [locate, Option.map_eq_some_iff] at h
  obtain ⟨r, hr, rfl⟩ := h
  have hm := List.mem_of_find?_eq_some hr
  have hh := List.find?_some hr
  simp only [Region.holds, decide_eq_true_eq] at hh
  simp only [addressMap, List.mem_cons, List.not_mem_nil, or_false] at hm
  rcases hm with rfl | rfl | rfl | rfl | rfl | rfl | rfl | rfl | rfl | rfl | rfl | rfl | rfl | rfl <;>
    first
    | trivial
    | (simp only [Loc.inRange] at hh ⊢; omega)

/-- What an access reaches is a location of the map. -/
theorem target_inRange {bits off : Nat} {l : Loc} (h : target bits off = some l) : l.inRange := by
  unfold target at h
  split at h
  · exact locate_inRange h
  · cases h

/-- The byte offset of a location (R61). -/
def Loc.offset : Loc → Nat
  | .id => 0x00
  | .ctrl => 0x04
  | .status => 0x08
  | .errcode => 0x0C
  | .irqEn => 0x10
  | .cmd => 0x14
  | .counter => 0x18
  | .xofBytes => 0x1C
  | .seedRho k => 0x20 + 4 * k
  | .seedPrf k => 0x40 + 4 * k
  | .buf k => 0x400 + 4 * k
  | .zeta i => 0x600 + 4 * i
  | .gamma i => 0x800 + 4 * i
  | .poly p j => 0x1000 + 0x400 * p.val + 4 * j

/-- An access that reaches a location is 32 bits wide and at that location's offset. -/
theorem target_offset {bits off : Nat} {l : Loc} (h : target bits off = some l) :
    bits = 32 ∧ off = l.offset := by
  unfold target at h
  split at h
  next ha =>
    refine ⟨ha.1, ?_⟩
    have ha := ha.2
    rw [locate, Option.map_eq_some_iff] at h
    obtain ⟨r, hr, rfl⟩ := h
    have hm := List.mem_of_find?_eq_some hr
    have hh := List.find?_some hr
    simp only [Region.holds, decide_eq_true_eq] at hh
    simp only [addressMap, List.mem_cons, List.not_mem_nil, or_false] at hm
    rcases hm with rfl | rfl | rfl | rfl | rfl | rfl | rfl | rfl | rfl | rfl | rfl | rfl | rfl | rfl <;>
      simp only [Loc.offset, Fin.val_ofNat] at hh ⊢ <;> omega
  next => cases h

theorem target_of_locate {off : Nat} {l : Loc} (ha : off % 4 = 0) (h : locate off = some l) :
    target 32 off = some l := by
  rw [target, if_pos ⟨rfl, ha⟩, h]

/-! The control and status registers (spec/20_memory.md R61). -/

@[simp] theorem target_id : target 32 0x00 = some .id := rfl
@[simp] theorem target_ctrl : target 32 0x04 = some .ctrl := rfl
@[simp] theorem target_status : target 32 0x08 = some .status := rfl
@[simp] theorem target_errcode : target 32 0x0C = some .errcode := rfl
@[simp] theorem target_irqEn : target 32 0x10 = some .irqEn := rfl
@[simp] theorem target_cmd : target 32 0x14 = some .cmd := rfl
@[simp] theorem target_counter : target 32 0x18 = some .counter := rfl
@[simp] theorem target_xofBytes : target 32 0x1C = some .xofBytes := rfl

/-- A mapped offset lies inside the aperture, and no two aligned offsets reach one location. -/
theorem locate_lt {off : Nat} {l : Loc} (h : locate off = some l) : off < apertureBytes := by
  rw [locate, Option.map_eq_some_iff] at h
  obtain ⟨r, hr, rfl⟩ := h
  have hm := List.mem_of_find?_eq_some hr
  have hh := List.find?_some hr
  simp only [Region.holds, decide_eq_true_eq] at hh
  simp only [addressMap, List.mem_cons, List.not_mem_nil, or_false] at hm
  rcases hm with rfl | rfl | rfl | rfl | rfl | rfl | rfl | rfl | rfl | rfl | rfl | rfl | rfl | rfl <;>
    (simp only [apertureBytes] at hh ⊢; omega)

theorem target_lt {bits off : Nat} {l : Loc} (h : target bits off = some l) : off < apertureBytes := by
  unfold target at h
  split at h
  · exact locate_lt h
  · cases h

/-! ### Host accesses -/

/-- A write to CMD while idle is an issue. -/
theorem perform_cmd {s : State} (h : s.busy = false) (w : Word) :
    perform (.write 32 0x14 w) s = .next (s.issue w) := by
  simp [perform, hostEvent, apertureBytes, State.hostWrite, target_cmd, h, State.writeLoc]

/-- A write that reaches a location: refused while busy where R72 says so, else the location's own effect. -/
theorem perform_write {bits off : Nat} {l : Loc} (h : target bits off = some l) (s : State) (w : Word) :
    perform (.write bits off w) s =
      .next (if s.busy && busyRefusesWrite l then s.raise .busyAccess else s.writeLoc w l) := by
  simp only [perform, hostEvent, if_pos (target_lt h), State.hostWrite, h]

/-- A read that reaches a location. -/
theorem perform_read {bits off : Nat} {l : Loc} (h : target bits off = some l) (s : State) :
    perform (.read bits off) s =
      .next (if s.busy && busyRefusesRead l then s.failRead .busyAccess
        else { s with rdata := s.readLoc l }) := by
  simp only [perform, hostEvent, if_pos (target_lt h), State.hostRead, h]

/-- Everything a host write can do (spec/60_exceptions.md R260). -/
theorem hostWrite_cases (s : State) (bits off : Nat) (w : Word) :
    (target bits off = none ∧ s.hostWrite bits off w = s.raise .badAccess) ∨
    (∃ l, target bits off = some l ∧ s.busy = true ∧ busyRefusesWrite l = true ∧
      s.hostWrite bits off w = s.raise .busyAccess) ∨
    (∃ l, target bits off = some l ∧ (s.busy = false ∨ busyRefusesWrite l = false) ∧
      s.hostWrite bits off w = s.writeLoc w l) := by
  unfold State.hostWrite
  cases ht : target bits off with
  | none => exact .inl ⟨rfl, rfl⟩
  | some l =>
    cases hb : s.busy <;> cases hr : busyRefusesWrite l
    · exact .inr (.inr ⟨l, rfl, .inl rfl, by simp [hr]⟩)
    · exact .inr (.inr ⟨l, rfl, .inl rfl, by simp⟩)
    · exact .inr (.inr ⟨l, rfl, .inr hr, by simp [hr]⟩)
    · exact .inr (.inl ⟨l, rfl, rfl, hr, by simp [hr]⟩)

/-- Everything a host read can do (spec/60_exceptions.md R260). -/
theorem hostRead_cases (s : State) (bits off : Nat) :
    (target bits off = none ∧ s.hostRead bits off = s.failRead .badAccess) ∨
    (∃ l, target bits off = some l ∧ s.busy = true ∧ busyRefusesRead l = true ∧
      s.hostRead bits off = s.failRead .busyAccess) ∨
    (∃ l, target bits off = some l ∧ (s.busy = false ∨ busyRefusesRead l = false) ∧
      s.hostRead bits off = { s with rdata := s.readLoc l }) := by
  unfold State.hostRead
  cases ht : target bits off with
  | none => exact .inl ⟨rfl, rfl⟩
  | some l =>
    cases hb : s.busy <;> cases hr : busyRefusesRead l
    · exact .inr (.inr ⟨l, rfl, .inl rfl, by simp⟩)
    · exact .inr (.inr ⟨l, rfl, .inl rfl, by simp⟩)
    · exact .inr (.inr ⟨l, rfl, .inr hr, by simp [hr]⟩)
    · exact .inr (.inl ⟨l, rfl, rfl, hr, by simp [hr]⟩)

/-- The checks that depend on the state read the register file and CTR_EXH alone. -/
theorem stateCheck_congr {s t : State} (hP : t.P = s.P) (hc : t.ctrExh = s.ctrExh) (i : Instr) :
    stateCheck i t = stateCheck i s := by
  cases i <;> simp only [stateCheck, poly_congr hP, hc]

theorem validate_congr {s t : State} (hP : t.P = s.P) (hc : t.ctrExh = s.ctrExh) (w : Word) :
    validate w t = validate w s := by
  simp only [validate, stateCheck_congr hP hc]

/-- A word passes its checks when it decodes and its command passes those that depend on the state. -/
theorem validate_ok_iff (w : Word) (s : State) (i : Instr) :
    validate w s = .ok i ↔ decode w = .ok i ∧ stateCheck i s = none := by
  unfold validate
  cases hd : decode w with
  | error e => simp
  | ok j =>
    simp only [Except.ok.injEq]
    constructor
    · intro h
      cases hc : stateCheck j s with
      | some e => simp [hc] at h
      | none => simp only [hc, Except.ok.injEq] at h; subst h; exact ⟨rfl, hc⟩
    · rintro ⟨rfl, hc⟩; simp [hc]

theorem issue_of_ok {s : State} {w : Word} {i : Instr} (h : validate w s = .ok i) :
    s.issue w = s.accept w i := by simp [State.issue, h]

theorem issue_of_error {s : State} {w : Word} {e : ErrorCode} (h : validate w s = .error e) :
    s.issue w = s.reject e := by simp [State.issue, h]

/-- An issue accepts a word that passes its checks, and rejects any other (R255, R256). -/
theorem issue_cases (s : State) (w : Word) :
    (∃ i, decode w = .ok i ∧ stateCheck i s = none ∧ s.issue w = s.accept w i) ∨
    (∃ e, validate w s = .error e ∧ s.issue w = s.reject e) := by
  cases hv : validate w s with
  | error e => exact .inr ⟨e, rfl, issue_of_error hv⟩
  | ok i =>
    obtain ⟨hd, hc⟩ := (validate_ok_iff w s i).mp hv
    exact .inl ⟨i, hd, hc, issue_of_ok hv⟩

/-- A write to CTRL resets, aborts, or does nothing (spec/10_state.md R28). -/
theorem writeCtrl_cases (s : State) (w : Word) :
    (w.getLsbD 0 = true ∧ s.writeCtrl w = s.resetBlock) ∨
    (w.getLsbD 0 = false ∧ w.getLsbD 1 = true ∧ s.busy = true ∧ s.writeCtrl w = s.abort) ∨
    (w.getLsbD 0 = false ∧ (w.getLsbD 1 = false ∨ s.busy = false) ∧ s.writeCtrl w = s) := by
  unfold State.writeCtrl
  cases h0 : w.getLsbD 0
  · cases h1 : w.getLsbD 1
    · exact .inr (.inr ⟨rfl, .inl rfl, by simp⟩)
    · cases hb : s.busy
      · exact .inr (.inr ⟨rfl, .inr rfl, by simp⟩)
      · exact .inr (.inl ⟨rfl, rfl, rfl, by simp⟩)
  · exact .inl ⟨rfl, by simp⟩

/-- A coefficient write stores the word or records RANGE_VIOLATION (spec/20_memory.md R70). -/
theorem writeCoef_cases (s : State) (p : PReg) (j : Nat) (w : Word) :
    (w.toNat < 3329 ∧ s.writeCoef p j w = s.setPoly p (putCoef (s.poly p) j (reduceNat w.toNat))) ∨
    (3329 ≤ w.toNat ∧ s.writeCoef p j w = s.raise .rangeViolation) := by
  unfold State.writeCoef
  by_cases h : w.toNat < 3329
  · exact .inl ⟨h, if_pos h⟩
  · exact .inr ⟨by omega, if_neg h⟩

/-! ### Events and steps -/

/-- Everything an event can do (spec/10_state.md R20). -/
theorem perform_cases {e : Event} {s t : State} (h : perform e s = .next t) :
    (∃ bits off, e = .read bits off ∧ off < apertureBytes ∧ t = s.hostRead bits off) ∨
    (∃ bits off w, e = .write bits off w ∧ off < apertureBytes ∧ t = s.hostWrite bits off w) ∨
    (∃ n, e = .engine n ∧ s.pending = none ∧ t = s) ∨
    (∃ n i, e = .engine n ∧ s.pending = some i ∧ exec i { s with xofReady := n } = .next t) ∨
    (e = .powerReset ∧ t = s.resetBlock) := by
  cases e with
  | read bits off =>
    simp only [perform, hostEvent] at h
    split at h
    next ho => exact .inl ⟨bits, off, rfl, ho, (Host.Outcome.next.inj h).symm⟩
    next => cases h
  | write bits off w =>
    simp only [perform, hostEvent] at h
    split at h
    next ho => exact .inr (.inl ⟨bits, off, w, rfl, ho, (Host.Outcome.next.inj h).symm⟩)
    next => cases h
  | engine n =>
    simp only [perform, engineTurn] at h
    cases hp : s.pending with
    | none =>
      rw [hp] at h
      exact .inr (.inr (.inl ⟨n, rfl, rfl, (Host.Outcome.next.inj h).symm⟩))
    | some i => rw [hp] at h; exact .inr (.inr (.inr (.inl ⟨n, i, rfl, rfl, h⟩)))
  | powerReset => exact .inr (.inr (.inr (.inr ⟨rfl, (Host.Outcome.next.inj h).symm⟩)))

/-- A step performs the next event, or nothing when none is left. -/
theorem step_cases {s t : State} (h : step s = .next t) :
    (s.agenda = [] ∧ t = s) ∨
    (∃ e rest, s.agenda = e :: rest ∧ perform e { s with agenda := rest } = .next t) := by
  unfold step turn at h
  cases ha : s.agenda with
  | nil => rw [ha] at h; exact .inl ⟨rfl, (Host.Outcome.next.inj h).symm⟩
  | cons e rest => rw [ha] at h; exact .inr ⟨e, rest, rfl, h⟩

/-- A step whose agenda begins with `e` performs `e`. -/
theorem step_of_agenda {s : State} {e : Event} {rest : List Event} (h : s.agenda = e :: rest) :
    step s = perform e { s with agenda := rest } := by
  unfold step turn
  rw [h]

end Sys2Proof.Machine
end

