-- ==== Sys2Proof/Laws/Transform.lean ====
section
/-!
SUPPORT. What the loops of the transforms compute, coefficient by coefficient: the butterflies of one level
act on disjoint pairs, so a level is a function of the level's input (spec/43_transform.md R216, R218).
-/

namespace Sys2Proof.Machine

/-! ### One butterfly -/

theorem coefAt_butterfly (z : Coef) (len : Nat) (g : PolyVal) (j x : Nat) (hlen : 0 < len)
    (hj : j + len < 256) :
    coefAt (butterfly z len g j) x =
      if x = j then addq (coefAt g j) (mulq z (coefAt g (j + len)))
      else if x = j + len then subq (coefAt g j) (mulq z (coefAt g (j + len)))
      else coefAt g x := by
  simp only [butterfly]
  split
  next h => subst h; rw [coefAt_putCoef_self _ _ _ (by omega)]
  next h =>
    rw [coefAt_putCoef_ne _ _ _ _ h]
    split
    next h' => subst h'; rw [coefAt_putCoef_self _ _ _ hj]
    next h' => rw [coefAt_putCoef_ne _ _ _ _ h']

theorem coefAt_butterflyInv (z : Coef) (len : Nat) (f : PolyVal) (j x : Nat) (hlen : 0 < len)
    (hj : j + len < 256) :
    coefAt (butterflyInv z len f j) x =
      if x = j then addq (coefAt f j) (coefAt f (j + len))
      else if x = j + len then mulq z (subq (coefAt f (j + len)) (coefAt f j))
      else coefAt f x := by
  have hne : j + len ≠ j := by omega
  simp only [butterflyInv]
  split
  next h => subst h; rw [coefAt_putCoef_ne _ _ _ _ (by omega), coefAt_putCoef_self _ _ _ (by omega)]
  next h =>
    split
    next h' => subst h'; rw [coefAt_putCoef_self _ _ _ hj]
    next h' => rw [coefAt_putCoef_ne _ _ _ _ h', coefAt_putCoef_ne _ _ _ _ h]

/-! ### One block -/

theorem coefAt_nttBlock_upto (z : Coef) (len start : Nat) (g : PolyVal) (n : Nat) (hn : n ≤ len)
    (hs : start + 2 * len ≤ 256) (x : Nat) :
    coefAt ((List.range' start n).foldl (butterfly z len) g) x =
      if start ≤ x ∧ x < start + n then addq (coefAt g x) (mulq z (coefAt g (x + len)))
      else if start + len ≤ x ∧ x < start + len + n then
        subq (coefAt g (x - len)) (mulq z (coefAt g x))
      else coefAt g x := by
  induction n generalizing x with
  | zero =>
    have h1 : ¬ (start ≤ x ∧ x < start + 0) := by omega
    have h2 : ¬ (start + len ≤ x ∧ x < start + len + 0) := by omega
    rw [if_neg h1, if_neg h2]; rfl
  | succ n ih =>
    have hlen : 0 < len := by omega
    rw [List.range'_concat, List.foldl_append]
    simp only [List.foldl_cons, List.foldl_nil, one_mul]
    rw [coefAt_butterfly _ _ _ _ _ hlen (by omega)]
    rw [ih (by omega) (start + n), ih (by omega) (start + n + len), ih (by omega) x]
    rw [if_neg (by omega : ¬ (start ≤ start + n ∧ start + n < start + n)),
      if_neg (by omega : ¬ (start + len ≤ start + n ∧ start + n < start + len + n)),
      if_neg (by omega : ¬ (start ≤ start + n + len ∧ start + n + len < start + n)),
      if_neg (by omega : ¬ (start + len ≤ start + n + len ∧ start + n + len < start + len + n))]
    by_cases hx : x = start + n
    · rw [if_pos hx, if_pos (by omega), hx]
    · rw [if_neg hx]
      by_cases hx2 : x = start + n + len
      · rw [if_pos hx2, if_neg (by omega), if_pos (by omega), hx2, Nat.add_sub_cancel]
      · rw [if_neg hx2]
        by_cases h1 : start ≤ x ∧ x < start + n
        · rw [if_pos h1, if_pos (by omega)]
        · rw [if_neg h1, if_neg (by omega : ¬ (start ≤ x ∧ x < start + (n + 1)))]
          by_cases h2 : start + len ≤ x ∧ x < start + len + n
          · rw [if_pos h2, if_pos (by omega)]
          · rw [if_neg h2, if_neg (by omega)]

theorem coefAt_inttBlock_upto (z : Coef) (len start : Nat) (f : PolyVal) (n : Nat) (hn : n ≤ len)
    (hs : start + 2 * len ≤ 256) (x : Nat) :
    coefAt ((List.range' start n).foldl (butterflyInv z len) f) x =
      if start ≤ x ∧ x < start + n then addq (coefAt f x) (coefAt f (x + len))
      else if start + len ≤ x ∧ x < start + len + n then
        mulq z (subq (coefAt f x) (coefAt f (x - len)))
      else coefAt f x := by
  induction n generalizing x with
  | zero =>
    have h1 : ¬ (start ≤ x ∧ x < start + 0) := by omega
    have h2 : ¬ (start + len ≤ x ∧ x < start + len + 0) := by omega
    rw [if_neg h1, if_neg h2]; rfl
  | succ n ih =>
    have hlen : 0 < len := by omega
    rw [List.range'_concat, List.foldl_append]
    simp only [List.foldl_cons, List.foldl_nil, one_mul]
    rw [coefAt_butterflyInv _ _ _ _ _ hlen (by omega)]
    rw [ih (by omega) (start + n), ih (by omega) (start + n + len), ih (by omega) x]
    rw [if_neg (by omega : ¬ (start ≤ start + n ∧ start + n < start + n)),
      if_neg (by omega : ¬ (start + len ≤ start + n ∧ start + n < start + len + n)),
      if_neg (by omega : ¬ (start ≤ start + n + len ∧ start + n + len < start + n)),
      if_neg (by omega : ¬ (start + len ≤ start + n + len ∧ start + n + len < start + len + n))]
    by_cases hx : x = start + n
    · rw [if_pos hx, if_pos (by omega), hx]
    · rw [if_neg hx]
      by_cases hx2 : x = start + n + len
      · rw [if_pos hx2, if_neg (by omega), if_pos (by omega), hx2, Nat.add_sub_cancel]
      · rw [if_neg hx2]
        by_cases h1 : start ≤ x ∧ x < start + n
        · rw [if_pos h1, if_pos (by omega)]
        · rw [if_neg h1, if_neg (by omega : ¬ (start ≤ x ∧ x < start + (n + 1)))]
          by_cases h2 : start + len ≤ x ∧ x < start + len + n
          · rw [if_pos h2, if_pos (by omega)]
          · rw [if_neg h2, if_neg (by omega)]

/-! ### One level -/

/-- Coefficient `x` of a forward level's result: a butterfly's lower or upper half, by where `x` stands in
its block `x / (2·len)`. -/
def nttLevelCoef (len i : Nat) (g : PolyVal) (x : Nat) : Coef :=
  if x % (2 * len) < len then
    addq (coefAt g x) (mulq (zeta (i + x / (2 * len))) (coefAt g (x + len)))
  else subq (coefAt g (x - len)) (mulq (zeta (i + x / (2 * len))) (coefAt g x))

/-- Coefficient `x` of an inverse level's result. -/
def inttLevelCoef (len i : Nat) (f : PolyVal) (x : Nat) : Coef :=
  if x % (2 * len) < len then addq (coefAt f x) (coefAt f (x + len))
  else mulq (zeta (i - x / (2 * len))) (subq (coefAt f x) (coefAt f (x - len)))

/-- Where an index stands relative to block `b`: its quotient and remainder by the block's length. -/
theorem block_position (len b x : Nat) (h1 : 2 * len * b ≤ x) (h2 : x < 2 * len * b + 2 * len) :
    x / (2 * len) = b ∧ x % (2 * len) = x - 2 * len * b := by
  have hlen : 0 < 2 * len := by omega
  have hdiv : x / (2 * len) = b := by
    apply Nat.div_eq_of_lt_le
    · rw [Nat.mul_comm]; exact h1
    · rw [Nat.succ_mul, Nat.mul_comm b]; exact h2
  refine ⟨hdiv, ?_⟩
  have := Nat.div_add_mod x (2 * len)
  rw [hdiv] at this
  omega

theorem coefAt_nttLevel_upto (len i : Nat) (g : PolyVal) (m : Nat) (hlen : 0 < len)
    (hm : 2 * len * m ≤ 256) (x : Nat) :
    coefAt ((List.range m).foldl (fun g b => nttBlock (zeta (i + b)) len (2 * len * b) g) g) x =
      if x < 2 * len * m then nttLevelCoef len i g x else coefAt g x := by
  induction m generalizing x with
  | zero => simp
  | succ m ih =>
    have hmul : 2 * len * (m + 1) = 2 * len * m + 2 * len := Nat.mul_succ _ _
    have ih := ih (by omega)
    rw [List.range_succ, List.foldl_append]
    simp only [List.foldl_cons, List.foldl_nil]
    rw [nttBlock, coefAt_nttBlock_upto _ _ _ _ _ (le_refl len) (by omega), hmul]
    by_cases h0 : x < 2 * len * m
    · rw [if_neg (by omega), if_neg (by omega), if_pos (by omega), ih, if_pos h0]
    · by_cases h1 : x < 2 * len * m + len
      · obtain ⟨hd, hr⟩ := block_position len m x (by omega) (by omega)
        rw [if_pos (by omega), if_pos (by omega), ih, if_neg h0, ih, if_neg (by omega), nttLevelCoef,
          if_pos (by omega), hd]
      · by_cases h2 : x < 2 * len * m + 2 * len
        · obtain ⟨hd, hr⟩ := block_position len m x (by omega) (by omega)
          rw [if_neg (by omega), if_pos (by omega), if_pos h2, ih, if_neg (by omega), ih,
            if_neg (by omega), nttLevelCoef, if_neg (by omega), hd]
        · rw [if_neg (by omega), if_neg (by omega), if_neg h2, ih, if_neg h0]

theorem coefAt_inttLevel_upto (len i : Nat) (f : PolyVal) (m : Nat) (hlen : 0 < len)
    (hm : 2 * len * m ≤ 256) (x : Nat) :
    coefAt ((List.range m).foldl (fun f b => inttBlock (zeta (i - b)) len (2 * len * b) f) f) x =
      if x < 2 * len * m then inttLevelCoef len i f x else coefAt f x := by
  induction m generalizing x with
  | zero => simp
  | succ m ih =>
    have hmul : 2 * len * (m + 1) = 2 * len * m + 2 * len := Nat.mul_succ _ _
    have ih := ih (by omega)
    rw [List.range_succ, List.foldl_append]
    simp only [List.foldl_cons, List.foldl_nil]
    rw [inttBlock, coefAt_inttBlock_upto _ _ _ _ _ (le_refl len) (by omega), hmul]
    by_cases h0 : x < 2 * len * m
    · rw [if_neg (by omega), if_neg (by omega), if_pos (by omega), ih, if_pos h0]
    · by_cases h1 : x < 2 * len * m + len
      · obtain ⟨hd, hr⟩ := block_position len m x (by omega) (by omega)
        rw [if_pos (by omega), if_pos (by omega), ih, if_neg h0, ih, if_neg (by omega), inttLevelCoef,
          if_pos (by omega)]
      · by_cases h2 : x < 2 * len * m + 2 * len
        · obtain ⟨hd, hr⟩ := block_position len m x (by omega) (by omega)
          rw [if_neg (by omega), if_pos (by omega), if_pos h2, ih, if_neg (by omega), ih,
            if_neg (by omega), inttLevelCoef, if_neg (by omega), hd]
        · rw [if_neg (by omega), if_neg (by omega), if_neg h2, ih, if_neg h0]

/-- What one forward level computes: `2·len` divides 256. -/
theorem coefAt_nttLevel (len i : Nat) (g : PolyVal) (hlen : 0 < len) (hdiv : 2 * len * (128 / len) = 256)
    (x : Nat) (hx : x < 256) : coefAt (nttLevel len i g) x = nttLevelCoef len i g x := by
  rw [nttLevel, coefAt_nttLevel_upto _ _ _ _ hlen (by omega), hdiv, if_pos hx]

/-- What one inverse level computes. -/
theorem coefAt_inttLevel (len i : Nat) (f : PolyVal) (hlen : 0 < len) (hdiv : 2 * len * (128 / len) = 256)
    (x : Nat) (hx : x < 256) : coefAt (inttLevel len i f) x = inttLevelCoef len i f x := by
  rw [inttLevel, coefAt_inttLevel_upto _ _ _ _ hlen (by omega), hdiv, if_pos hx]

/-! ### The seven levels -/

/-- The forward transform's levels, with the twiddle index each starts at (R216, R212). -/
theorem ntt_levels (f : PolyVal) :
    ntt f = nttLevel 2 64 (nttLevel 4 32 (nttLevel 8 16 (nttLevel 16 8
      (nttLevel 32 4 (nttLevel 64 2 (nttLevel 128 1 f)))))) := by
  simp only [ntt, List.foldl_cons, List.foldl_nil, Nat.reduceDiv, Nat.reduceAdd]

/-- The inverse transform's levels, with the twiddle index each starts at (R218, R212). -/
theorem inttLevels_levels (g : PolyVal) :
    inttLevels g = inttLevel 128 1 (inttLevel 64 3 (inttLevel 32 7 (inttLevel 16 15
      (inttLevel 8 31 (inttLevel 4 63 (inttLevel 2 127 g)))))) := by
  simp only [inttLevels, List.foldl_cons, List.foldl_nil, Nat.reduceDiv, Nat.reduceSub]

theorem coefAt_nttInv (g : PolyVal) (j : Nat) (h : j < 256) :
    coefAt (nttInv g) j = mulq (coefAt (inttLevels g) j) inv128 := coefAt_mkPoly _ j h

theorem coefAt_multiplyNtts (a b : PolyVal) (j : Nat) (h : j < 256) :
    coefAt (multiplyNtts a b) j =
      if j % 2 = 0 then baseMulLow a b (j / 2) else baseMulHigh a b (j / 2) := coefAt_mkPoly _ j h

/-! ### Coefficient by coefficient -/

/-- One forward level on coefficient functions: `nttLevelCoef` with the level's input as a function. -/
def nttLevelFn (len i : Nat) (g : Nat → Coef) (x : Nat) : Coef :=
  if x % (2 * len) < len then addq (g x) (mulq (zeta (i + x / (2 * len))) (g (x + len)))
  else subq (g (x - len)) (mulq (zeta (i + x / (2 * len))) (g x))

/-- One inverse level on coefficient functions. -/
def inttLevelFn (len i : Nat) (f : Nat → Coef) (x : Nat) : Coef :=
  if x % (2 * len) < len then addq (f x) (f (x + len))
  else mulq (zeta (i - x / (2 * len))) (subq (f x) (f (x - len)))

/-- The lengths of the seven levels (R216, R218). -/
def levelLengths : List Nat := [128, 64, 32, 16, 8, 4, 2]

theorem level_partner {len x : Nat} (hlen : len ∈ levelLengths) (hx : x < 256) :
    (x % (2 * len) < len → x + len < 256) ∧ x - len < 256 := by
  simp only [levelLengths, List.mem_cons, List.not_mem_nil, or_false] at hlen
  rcases hlen with rfl | rfl | rfl | rfl | rfl | rfl | rfl <;> omega

theorem level_divides {len : Nat} (hlen : len ∈ levelLengths) :
    0 < len ∧ 2 * len * (128 / len) = 256 := by
  simp only [levelLengths, List.mem_cons, List.not_mem_nil, or_false] at hlen
  rcases hlen with rfl | rfl | rfl | rfl | rfl | rfl | rfl <;> decide

theorem coefAt_nttLevel_fn {len : Nat} (hlen : len ∈ levelLengths) (i : Nat) {g : PolyVal} {G : Nat → Coef}
    (hG : ∀ x, x < 256 → coefAt g x = G x) (x : Nat) (hx : x < 256) :
    coefAt (nttLevel len i g) x = nttLevelFn len i G x := by
  rw [coefAt_nttLevel _ _ _ (level_divides hlen).1 (level_divides hlen).2 _ hx, nttLevelCoef, nttLevelFn]
  split
  next h => rw [hG _ hx, hG _ ((level_partner hlen hx).1 h)]
  next => rw [hG _ hx, hG _ (level_partner hlen hx).2]

theorem coefAt_inttLevel_fn {len : Nat} (hlen : len ∈ levelLengths) (i : Nat) {f : PolyVal} {F : Nat → Coef}
    (hF : ∀ x, x < 256 → coefAt f x = F x) (x : Nat) (hx : x < 256) :
    coefAt (inttLevel len i f) x = inttLevelFn len i F x := by
  rw [coefAt_inttLevel _ _ _ (level_divides hlen).1 (level_divides hlen).2 _ hx, inttLevelCoef, inttLevelFn]
  split
  next h => rw [hF _ hx, hF _ ((level_partner hlen hx).1 h)]
  next => rw [hF _ hx, hF _ (level_partner hlen hx).2]

/-- The forward transform, coefficient by coefficient, as seven levels on coefficient functions. -/
theorem coefAt_ntt (f : PolyVal) {F : Nat → Coef} (hF : ∀ x, x < 256 → coefAt f x = F x) (x : Nat)
    (hx : x < 256) :
    coefAt (ntt f) x = nttLevelFn 2 64 (nttLevelFn 4 32 (nttLevelFn 8 16 (nttLevelFn 16 8
      (nttLevelFn 32 4 (nttLevelFn 64 2 (nttLevelFn 128 1 F)))))) x := by
  rw [ntt_levels]
  exact coefAt_nttLevel_fn (by decide) _ (coefAt_nttLevel_fn (by decide) _ (coefAt_nttLevel_fn (by decide) _
    (coefAt_nttLevel_fn (by decide) _ (coefAt_nttLevel_fn (by decide) _ (coefAt_nttLevel_fn (by decide) _
    (coefAt_nttLevel_fn (by decide) _ hF)))))) x hx

/-- The inverse transform, coefficient by coefficient, as seven levels and the scaling. -/
theorem coefAt_nttInv_fn (g : PolyVal) {G : Nat → Coef} (hG : ∀ x, x < 256 → coefAt g x = G x) (x : Nat)
    (hx : x < 256) :
    coefAt (nttInv g) x = mulq (inttLevelFn 128 1 (inttLevelFn 64 3 (inttLevelFn 32 7 (inttLevelFn 16 15
      (inttLevelFn 8 31 (inttLevelFn 4 63 (inttLevelFn 2 127 G)))))) x) inv128 := by
  rw [coefAt_nttInv _ _ hx, inttLevels_levels]
  refine congrArg (mulq · inv128) ?_
  exact coefAt_inttLevel_fn (by decide) _ (coefAt_inttLevel_fn (by decide) _ (coefAt_inttLevel_fn (by decide) _
    (coefAt_inttLevel_fn (by decide) _ (coefAt_inttLevel_fn (by decide) _ (coefAt_inttLevel_fn (by decide) _
    (coefAt_inttLevel_fn (by decide) _ hG)))))) x hx
end Sys2Proof.Machine
end

