-- ==== Sys2Proof/Tests/Slice0.lean ====
section
/-!
SUPPORT. Tests of the model on small states, and for each obligation with hypotheses a state and operands
that meet them. Expected values are those of spec/95_test_vectors.md, named T1 to T7 as there, or are worked
out by hand from the rule named; none was read off the model.
-/

namespace Sys2Proof.Tests

open Sys2Proof Sys2Proof.Machine

/-! ### Helpers -/

/-- The polynomial that begins with the listed coefficients, the rest 0. -/
def polyOf (l : List Nat) : PolyVal := mkPoly fun j => reduceNat (l.getD j 0)

theorem coefAt_polyOf (l : List Nat) (x : Nat) (hx : x < 256) :
    coefAt (polyOf l) x = reduceNat (l.getD x 0) := coefAt_mkPoly _ x hx

/-- The state after reset with register `p` holding the listed coefficients. -/
def withP (p : PReg) (l : List Nat) : State := State.reset.setPoly p (polyOf l)

/-- The state after reset with a command accepted. -/
def pendingOn (w : Word) (i : Instr) : State := State.reset.accept w i

/-- The state after reset with BUF beginning with the listed bytes. -/
def withBuf (l : List Byte) : State := { State.reset with buf := writeBytes [] 0 l }

/-- The state after reset in which the XOF stream of RHO ‖ 1 ‖ 2 begins with the listed bytes, and the port
has delivered the listed number of chunks. -/
def withXof (chunks : Nat) (bytes : List Byte) : State :=
  { State.reset with xofReady := chunks, xofOracle := [⟨xofInput State.reset.rho 1 2, bytes⟩] }

/-- The state after reset with COUNTER at `c`, where the PRF's answer for it is the listed bytes. -/
def withPrf (eta : Nat) (c : Byte) (bytes : List Byte) : State :=
  { State.reset with counter := c, prfOracle := [⟨eta, State.reset.sig, c, bytes⟩] }

theorem withXof_stream (chunks : Nat) (bytes : List Byte) (k : Nat) (h : k < bytes.length) :
    (withXof chunks bytes).xofStream (xofInput (withXof chunks bytes).rho 1 2) k = bytes.getD k 0 := by
  have h1 : (withXof chunks bytes).xofStream (xofInput (withXof chunks bytes).rho 1 2) k =
      bytes.getD k (Config.xof (xofInput State.reset.rho 1 2) k) := by
    unfold State.xofStream withXof
    rw [List.find?_cons_of_pos (by exact decide_eq_true rfl)]
  rw [h1]
  simp only [List.getD_eq_getElem?_getD, List.getElem?_eq_getElem h, Option.getD_some]

theorem withXof_zeros (chunks n k : Nat) (h : k < n) :
    (withXof chunks (List.replicate n 0)).xofStream
      (xofInput (withXof chunks (List.replicate n 0)).rho 1 2) k = 0 := by
  rw [withXof_stream _ _ _ (by rw [List.length_replicate]; omega), List.getD_eq_getElem?_getD,
    List.getElem?_replicate, if_pos h]
  rfl

theorem withPrf_bytes (eta : Nat) (c : Byte) (bytes : List Byte) (h : bytes.length = 64 * eta) :
    ((withPrf eta c bytes).prfBytes eta (withPrf eta c bytes).sig c).toList = bytes := by
  unfold State.prfBytes withPrf
  rw [List.find?_cons_of_pos (by exact decide_eq_true ⟨rfl, rfl, rfl⟩)]
  apply List.ext_getElem?
  intro k
  simp only [tabulate, Vector.toList, List.getElem?_map]
  by_cases hk : k < 64 * eta
  · rw [List.getElem?_range hk, List.getElem?_eq_getElem (by omega), Option.map_some,
      List.getD_eq_getElem?_getD, List.getElem?_eq_getElem (by omega), Option.getD_some]
  · rw [List.getElem?_eq_none (by rw [List.length_range]; omega), List.getElem?_eq_none (by omega)]
    rfl

theorem acceptCandidate_zeros (m : Nat) (h : m < 256) :
    acceptCandidate (List.replicate m 0) 0 = List.replicate (m + 1) 0 := by
  rw [acceptCandidate, if_pos ⟨by decide, by rw [List.length_replicate]; exact h⟩, List.replicate_succ']
  rfl

/-- The loop of R180 on zero bytes: two acceptances a chunk. -/
theorem sampleLoop_zeros (X : Nat → Byte) (j : Nat) : ∀ n k m, m + 2 * j = 256 → j ≤ n →
    (∀ x, x < k + 3 * j → X x = 0) →
    sampleLoop X n k (List.replicate m 0) = some (List.replicate 256 0, k + 3 * j) := by
  induction j with
  | zero =>
    intro n k m hm _ _
    obtain rfl : m = 256 := by omega
    cases n <;> rw [sampleLoop, if_neg (by rw [List.length_replicate]; omega)] <;> rfl
  | succ j ih =>
    intro n k m hm hn hX
    obtain ⟨n, rfl⟩ : ∃ n', n = n' + 1 := ⟨n - 1, by omega⟩
    have hc : takeChunk X k (List.replicate m 0) = List.replicate (m + 2) 0 := by
      rw [takeChunk, hX k (by omega), hX (k + 1) (by omega), hX (k + 2) (by omega)]
      show acceptCandidate (acceptCandidate _ 0) 0 = _
      rw [acceptCandidate_zeros _ (by omega), acceptCandidate_zeros _ (by omega)]
    rw [sampleLoop, if_pos (by rw [List.length_replicate]; omega), hc,
      ih n (k + 3) (m + 2) (by omega) (by omega) (fun x hx => hX x (by omega))]
    congr 2
    omega

/-- Zero bytes are accepted, two values a chunk. -/
theorem accepted_zeros (X : Nat → Byte) (n : Nat) (h : ∀ x, x < 3 * n → X x = 0) :
    (accepted X n).length = 2 * n := by
  induction n with
  | zero => rfl
  | succ n ih =>
    have hs : accepted X (n + 1) = accepted X n ++ (chunkCandidates X n).filter (· < 3329) := by
      simp only [accepted, List.range_succ, List.flatMap_append, List.flatMap_cons, List.flatMap_nil,
        List.append_nil]
    have hc : (chunkCandidates X n).filter (· < 3329) = [0, 0] := by
      simp only [chunkCandidates, h (3 * n) (by omega), h (3 * n + 1) (by omega), h (3 * n + 2) (by omega)]
      rfl
    rw [hs, hc, List.length_append, ih (fun x hx => h x (by omega))]
    rfl

/-! ### Well-formedness: an ill-formed term for each check (R95, R96) -/

theorem test_wf_compress_refuses_width_0 : (Instr.compress 1 2 0).wellFormed = false := by decide
theorem test_wf_compress_refuses_width_12 : (Instr.compress 1 2 12).wellFormed = false := by decide
theorem test_wf_decompress_refuses_width_12 : (Instr.decompress 1 2 12).wellFormed = false := by decide
theorem test_wf_encode_refuses_width_0 : (Instr.encode 1 0).wellFormed = false := by decide
theorem test_wf_encode_refuses_width_13 : (Instr.encode 1 13).wellFormed = false := by decide
theorem test_wf_decode_refuses_width_13 : (Instr.decode 1 13).wellFormed = false := by decide
theorem test_wf_sampleCbd_refuses_eta_1 : (Instr.sampleCbd 1 1).wellFormed = false := by decide
theorem test_wf_sampleCbd_refuses_eta_4 : (Instr.sampleCbd 1 4).wellFormed = false := by decide
theorem test_wf_accepts_the_bounds :
    (Instr.compress 1 2 11).wellFormed = true ∧ (Instr.encode 1 12).wellFormed = true ∧
    (Instr.sampleCbd 1 3).wellFormed = true := by decide

/-! ### Decoding: one word for each row, field by field from bit 31 down (R91, R92; words of T1) -/

theorem test_decode_nop : decode (0#17 ++ 0#3 ++ 0#3 ++ 0#3 ++ 0x00#6) = .ok .nop := rfl
theorem test_decode_ntt : decode (0#17 ++ 0#3 ++ 0#3 ++ 1#3 ++ 0x01#6) = .ok (.ntt 1 0) := rfl
theorem test_decode_intt : decode (0#17 ++ 0#3 ++ 2#3 ++ 3#3 ++ 0x02#6) = .ok (.intt 3 2) := rfl
theorem test_decode_pmul : decode (0#17 ++ 1#3 ++ 1#3 ++ 2#3 ++ 0x03#6) = .ok (.pmul 2 1 1) := rfl
theorem test_decode_pmac : decode (0#17 ++ 6#3 ++ 5#3 ++ 7#3 ++ 0x04#6) = .ok (.pmac 7 5 6) := rfl
theorem test_decode_padd : decode (0#17 ++ 2#3 ++ 1#3 ++ 0#3 ++ 0x05#6) = .ok (.padd 0 1 2) := rfl
theorem test_decode_psub : decode (0#17 ++ 2#3 ++ 1#3 ++ 0#3 ++ 0x06#6) = .ok (.psub 0 1 2) := rfl
theorem test_decode_pcopy : decode (0#17 ++ 0#3 ++ 3#3 ++ 4#3 ++ 0x07#6) = .ok (.pcopy 4 3) := rfl
theorem test_decode_pzero : decode (0#17 ++ 0#3 ++ 0#3 ++ 7#3 ++ 0x08#6) = .ok (.pzero 7) := rfl
theorem test_decode_compress :
    decode (0#13 ++ 10#4 ++ 0#3 ++ 0#3 ++ 1#3 ++ 0x10#6) = .ok (.compress 1 0 10) := rfl
theorem test_decode_decompress :
    decode (0#13 ++ 11#4 ++ 0#3 ++ 0#3 ++ 1#3 ++ 0x11#6) = .ok (.decompress 1 0 11) := rfl
theorem test_decode_encode : decode (0#13 ++ 1#4 ++ 0#3 ++ 2#3 ++ 0#3 ++ 0x12#6) = .ok (.encode 2 1) := rfl
theorem test_decode_decode : decode (0#13 ++ 12#4 ++ 0#3 ++ 0#3 ++ 0#3 ++ 0x13#6) = .ok (.decode 0 12) := rfl
theorem test_decode_sampleNtt :
    decode (0#1 ++ 2#8 ++ 1#8 ++ 0#3 ++ 0#3 ++ 5#3 ++ 0x20#6) = .ok (.sampleNtt 5 1 2) := rfl
theorem test_decode_sampleCbd :
    decode (0#13 ++ 3#4 ++ 0#3 ++ 0#3 ++ 2#3 ++ 0x21#6) = .ok (.sampleCbd 2 3) := rfl

/-- The words of T1 for the same rows, as numbers. -/
theorem test_decode_words_of_T1 :
    decode 0x00000041#32 = .ok (.ntt 1 0) ∧ decode 0x00001283#32 = .ok (.pmul 2 1 1) ∧
    decode 0x00002205#32 = .ok (.padd 0 1 2) ∧ decode 0x00002206#32 = .ok (.psub 0 1 2) ∧
    decode 0x00000707#32 = .ok (.pcopy 4 3) ∧ decode 0x00050050#32 = .ok (.compress 1 0 10) ∧
    decode 0x00008051#32 = .ok (.decompress 1 0 1) ∧ decode 0x00060012#32 = .ok (.encode 0 12) ∧
    decode 0x00008013#32 = .ok (.decode 0 1) ∧ decode 0x7FFF8020#32 = .ok (.sampleNtt 0 255 255) ∧
    decode 0x00010021#32 = .ok (.sampleCbd 0 2) :=
  ⟨rfl, rfl, rfl, rfl, rfl, rfl, rfl, rfl, rfl, rfl, rfl⟩

theorem test_decode_illegal_words_of_T1 :
    decode 0x00000009#32 = .error .illegalCmd ∧ decode 0x0000003F#32 = .error .illegalCmd ∧
    decode 0x00000040#32 = .error .illegalCmd ∧ decode 0x00008001#32 = .error .illegalCmd ∧
    decode 0x00008052#32 = .error .illegalCmd ∧ decode 0x80000020#32 = .error .illegalCmd ∧
    decode 0x00000220#32 = .error .illegalCmd :=
  ⟨rfl, rfl, rfl, rfl, rfl, rfl, rfl⟩

theorem test_decode_invalid_words_of_T1 :
    decode 0x00000010#32 = .error .invalidParameter ∧ decode 0x00078011#32 = .error .invalidParameter ∧
    decode 0x00000012#32 = .error .invalidParameter ∧ decode 0x00068013#32 = .error .invalidParameter ∧
    decode 0x00008021#32 = .error .invalidParameter ∧ decode 0x00020021#32 = .error .invalidParameter :=
  ⟨rfl, rfl, rfl, rfl, rfl, rfl⟩

/-! ### The mod-q unit (T2) -/

theorem test_nop_leaves_registers :
    ∃ t, exec .nop (pendingOn 0 .nop) = .next t ∧ t.P = State.reset.P ∧ t.done = true ∧ t.busy = false :=
  ⟨_, rfl, rfl, rfl, rfl⟩

theorem test_padd_reduces :
    ∃ t, exec (.padd 1 2 3) ((withP 2 [3000, 3328]).setPoly 3 (polyOf [500, 3328])) = .next t ∧
      coefAt (t.poly 1) 0 = 171 ∧ coefAt (t.poly 1) 1 = 3327 :=
  ⟨_, rfl, by decide +kernel, by decide +kernel⟩

theorem test_padd_in_place :
    ∃ t, exec (.padd 0 0 0) (withP 0 [2000]) = .next t ∧ coefAt (t.poly 0) 0 = 671 :=
  ⟨_, rfl, by decide +kernel⟩

/-- PA minus PB, not PB minus PA. -/
theorem test_psub_order :
    ∃ t, exec (.psub 1 2 3) ((withP 2 [5, 0]).setPoly 3 (polyOf [10, 3328])) = .next t ∧
      coefAt (t.poly 1) 0 = 3324 ∧ coefAt (t.poly 1) 1 = 1 :=
  ⟨_, rfl, by decide +kernel, by decide +kernel⟩

theorem test_pcopy_direction :
    ∃ t, exec (.pcopy 4 3) (withP 3 [7]) = .next t ∧ coefAt (t.poly 4) 0 = 7 ∧ coefAt (t.poly 3) 0 = 7 :=
  ⟨_, rfl, by decide +kernel, by decide +kernel⟩

theorem test_pzero_clears :
    ∃ t, exec (.pzero 7) (withP 7 [1, 2]) = .next t ∧ coefAt (t.poly 7) 0 = 0 ∧ coefAt (t.poly 7) 1 = 0 :=
  ⟨_, rfl, by decide +kernel, by decide +kernel⟩

/-! ### The codec (T3, T4, T5) -/

/-- 833 rounds up at d = 1, and 2497 wraps to 0 (T3). -/
theorem test_compress_1 :
    ∃ t, exec (.compress 1 0 1) (withP 0 [832, 833, 2496, 2497]) = .next t ∧
      (coefAt (t.poly 1) 0, coefAt (t.poly 1) 1, coefAt (t.poly 1) 2, coefAt (t.poly 1) 3) = (0, 1, 1, 0) :=
  ⟨_, rfl, by decide +kernel⟩

theorem test_compress_11 :
    ∃ t, exec (.compress 1 0 11) (withP 0 [1, 417, 3328]) = .next t ∧
      (coefAt (t.poly 1) 0, coefAt (t.poly 1) 1, coefAt (t.poly 1) 2) = (1, 257, 2047) :=
  ⟨_, rfl, by decide +kernel⟩

theorem test_decompress_1 :
    ∃ t, exec (.decompress 1 0 1) (withP 0 [0, 1]) = .next t ∧
      (coefAt (t.poly 1) 0, coefAt (t.poly 1) 1) = (0, 1665) :=
  ⟨_, rfl, by decide +kernel⟩

theorem test_decompress_11 :
    ∃ t, exec (.decompress 1 0 11) (withP 0 [1, 2047]) = .next t ∧
      (coefAt (t.poly 1) 0, coefAt (t.poly 1) 1) = (2, 3327) :=
  ⟨_, rfl, by decide +kernel⟩

/-- The bytes of ENCODE at d = 11 and d = 12 (T5). -/
theorem test_encode_11 :
    ∃ t, exec (.encode 1 11) (withP 1 [1, 2047]) = .next t ∧ readBytes t.buf 4 = [0x01, 0xF8, 0x3F, 0x00] :=
  ⟨_, rfl, by decide +kernel⟩

theorem test_encode_12 :
    ∃ t, exec (.encode 1 12) (withP 1 [0xABC, 0x123]) = .next t ∧ readBytes t.buf 3 = [0xBC, 0x3A, 0x12] :=
  ⟨_, rfl, by decide +kernel⟩

theorem test_decode_1 :
    ∃ t, exec (.decode 1 1) (withBuf [0xA5]) = .next t ∧
      (List.range 8).map (coefAt (t.poly 1)) = [1, 0, 1, 0, 0, 1, 0, 1] :=
  ⟨_, rfl, by decide +kernel⟩

/-- The reduction mod 3329 at d = 12 (T5). -/
theorem test_decode_12 :
    ∃ t, exec (.decode 1 12) (withBuf [0xFF, 0xFF, 0xFF, 0x00, 0xD0, 0xFF]) = .next t ∧
      (List.range 4).map (coefAt (t.poly 1)) = [766, 766, 0, 764] :=
  ⟨_, rfl, by decide +kernel⟩

/-! ### The samplers (T6) -/

/-- The all-zero stream: 128 chunks, two acceptances each. -/
theorem test_sampleNtt_zeros :
    ∃ t, exec (.sampleNtt 0 1 2) (withXof 128 (List.replicate 384 0)) = .next t ∧
      coefAt (t.poly 0) 255 = 0 ∧ t.xofBytes = 384 ∧ t.done = true := by
  have h : sampleNtt ((withXof 128 (List.replicate 384 0)).xofStream
      (xofInput (withXof 128 (List.replicate 384 0)).rho 1 2)) 128 = some (List.replicate 256 0, 384) :=
    sampleLoop_zeros _ 128 128 0 0 rfl (Nat.le_refl _) fun x hx => withXof_zeros _ _ _ (by omega)
  refine ⟨_, congrArg Host.Outcome.next (by
    rw [show (withXof 128 (List.replicate 384 0)).xofReady = 128 from rfl, h]), ?_, by decide +kernel, rfl⟩
  simp only [State.commitSample, commitPoly_poly_self]
  decide +kernel

/-- Without 256 acceptances the command does not complete (T6, the last row). -/
theorem test_sampleNtt_waits :
    ∃ t, exec (.sampleNtt 0 1 2) { withXof 2 (List.replicate 6 0xFF) with busy := true } = .next t ∧
      t.busy = true ∧ t.done = false :=
  ⟨_, rfl, by decide +kernel, by decide +kernel⟩

/-- The chunks of T6: where the candidates' bits lie, and the boundary between 3328 and 3329. -/
theorem test_takeChunk :
    takeChunk (fun k => [0x01, 0x23, 0x45].getD k 0) 0 [] = [769, 1106] ∧
    takeChunk (fun k => [0x00, 0x1D, 0xD0].getD k 0) 0 [] = [3328] ∧
    takeChunk (fun k => [0xFF, 0x0F, 0x00].getD k 0) 0 [] = [0] := by decide +kernel

/-- The second candidate of the chunk that fills the register is discarded (R180; T6, the 0x1D row). -/
theorem test_sampleLoop_stops_at_256 :
    sampleLoop (fun _ => 0) 1 384 (List.replicate 255 0) = some (List.replicate 256 0, 387) := by
  decide +kernel

/-- The sampled value and the counter's end: 255 stays and CTR_EXH is set (T6). -/
theorem test_sampleCbd_2 :
    ∃ t, exec (.sampleCbd 0 2) (withPrf 2 255 ([0x0C] ++ List.replicate 127 0)) = .next t ∧
      coefAt (t.poly 0) 0 = 3327 ∧ t.counter = 255 ∧ t.ctrExh = true := by
  refine ⟨_, rfl, ?_, by decide +kernel, by decide +kernel⟩
  rw [commitPoly_poly_self]
  have h := withPrf_bytes 2 255 ([0x0C] ++ List.replicate 127 0)
    (by rw [List.length_append, List.length_replicate]; rfl)
  show coefAt (samplePolyCbd 2 ((withPrf 2 255 _).prfBytes 2 (withPrf 2 255 _).sig 255).toList) 0 = 3327
  rw [h]
  decide +kernel

theorem test_sampleCbd_3 :
    ∃ t, exec (.sampleCbd 2 3) (withPrf 3 2 ([0x38] ++ List.replicate 191 0)) = .next t ∧
      coefAt (t.poly 2) 0 = 3326 ∧ t.counter = 3 ∧ t.ctrExh = false := by
  refine ⟨_, rfl, ?_, by decide +kernel, by decide +kernel⟩
  rw [commitPoly_poly_self]
  have h := withPrf_bytes 3 2 ([0x38] ++ List.replicate 191 0)
    (by rw [List.length_append, List.length_replicate]; rfl)
  show coefAt (samplePolyCbd 3 ((withPrf 3 2 _).prfBytes 3 (withPrf 3 2 _).sig 2).toList) 0 = 3326
  rw [h]
  decide +kernel

/-! ### The transform engine (T7) -/

/-- f[j] = j: the first and the fourth last coefficient. -/
theorem test_ntt :
    ∃ t, exec (.ntt 1 1) (State.reset.setPoly 1 (mkPoly reduceNat)) = .next t ∧
      coefAt (t.poly 1) 0 = 2429 ∧ coefAt (t.poly 1) 252 = 2502 := by
  refine ⟨_, rfl, ?_, ?_⟩ <;>
    rw [commitPoly_poly_self, setPoly_poly_self, coefAt_ntt _ (coefAt_mkPoly reduceNat) _ (by decide)] <;>
    decide +kernel

theorem test_intt :
    ∃ t, exec (.intt 2 1) (withP 1 [1]) = .next t ∧
      coefAt (t.poly 2) 0 = 3303 ∧ coefAt (t.poly 2) 2 = 2740 := by
  refine ⟨_, rfl, ?_, ?_⟩ <;>
    rw [commitPoly_poly_self, withP, setPoly_poly_self, coefAt_nttInv_fn _ (coefAt_polyOf _) _ (by decide)] <;>
    decide +kernel

theorem test_pmul :
    ∃ t, exec (.pmul 0 1 2) ((withP 1 [1, 2, 1, 1]).setPoly 2 (polyOf [3, 4, 1, 1])) = .next t ∧
      (List.range 4).map (coefAt (t.poly 0)) = [139, 10, 3313, 2] :=
  ⟨_, rfl, by decide +kernel⟩

theorem test_pmac :
    ∃ t, exec (.pmac 0 1 2) (((withP 1 [1, 2]).setPoly 2 (polyOf [3, 4])).setPoly 0 (polyOf [3300])) = .next t ∧
      coefAt (t.poly 0) 0 = 110 ∧ coefAt (t.poly 0) 1 = 10 :=
  ⟨_, rfl, by decide +kernel, by decide +kernel⟩

theorem test_table_entries :
    zeta 64 = 17 ∧ zeta 127 = 2154 ∧ gamma 3 = 568 ∧ gamma 127 = 1175 ∧ bitRev7 1 = 64 ∧ bitRev7 3 = 96 := by
  decide +kernel

/-! ### The host interface (Part 3) -/

/-- Program 6: a rejected command sets DONE and ERR, and the next error does not replace the code. -/
theorem test_first_error_is_kept :
    ∃ t u, perform (.write 32 0x14 0x00060210) State.reset = .next t ∧ t.statusWord = 0x6 ∧ t.errcode = 2 ∧
      perform (.write 32 0x14 0x00000009) t = .next u ∧ u.errcode = 2 ∧ u.lastCmd = 0 :=
  ⟨_, _, rfl, rfl, rfl, rfl, rfl, rfl⟩

/-- Program 6: the out-of-range coefficient write raises ERR but not DONE, and writes nothing. -/
theorem test_poly_write_range :
    ∃ t, perform (.write 32 0x1000 3329) State.reset = .next t ∧ t.statusWord = 0x4 ∧ t.errcode = 3 ∧
      t.P = State.reset.P :=
  ⟨_, rfl, rfl, rfl, rfl⟩

/-- Program 6: the domain check of ENCODE at d = 1. -/
theorem test_encode_range :
    ∃ t, perform (.write 32 0x14 0x00008012) (withP 0 [2]) = .next t ∧ t.errcode = 3 ∧ t.busy = false ∧
      t.buf = [] :=
  ⟨_, rfl, by decide +kernel, by decide +kernel, by decide +kernel⟩

/-- Program 6: the last word of the aperture is unmapped. -/
theorem test_unmapped_write :
    ∃ t, perform (.write 32 0x3FFC 0) State.reset = .next t ∧ t.statusWord = 0x4 ∧ t.errcode = 5 :=
  ⟨_, rfl, rfl, rfl⟩

/-- Program 3: BUF[0..3] = 01 80 00 00. -/
theorem test_buf_byte_order :
    ∃ t, perform (.write 32 0x400 0x00008001) State.reset = .next t ∧
      readBytes t.buf 4 = [0x01, 0x80, 0x00, 0x00] ∧ t.buf = [(0, 0x01), (1, 0x80)] :=
  ⟨_, rfl, by decide +kernel, by decide +kernel⟩

/-- R61: P3 stands at 0x1C00 (Program 1), and SEED_PRF's second word at 0x44 is SIG[4..7]. -/
theorem test_windows :
    (∃ t, perform (.read 32 0x1C04) (withP 3 [1, 2, 1]) = .next t ∧ t.rdata = 2) ∧
    ∃ t, perform (.write 32 0x44 0x44332211) State.reset = .next t ∧
      (List.range 6).map (seedAt t.sig) = [0, 0, 0, 0, 0x11, 0x22] :=
  ⟨⟨_, rfl, by decide +kernel⟩, ⟨_, rfl, by decide +kernel⟩⟩

/-- Program 5: an ABORT of a pending command. -/
theorem test_abort :
    ∃ t, perform (.write 32 0x04 0x2) (pendingOn 0x00800060 (.sampleNtt 1 0 1)) = .next t ∧
      t.statusWord = 0x6 ∧ t.errcode = 6 ∧ t.lastCmd = 0x00800060 :=
  ⟨_, rfl, rfl, rfl, rfl⟩

/-- Program 7: the read of a window while busy returns 0 with BUSY_ACCESS; STATUS can be read. -/
theorem test_busy_read :
    (∃ t, perform (.read 32 0x1000) (pendingOn 1 (.ntt 0 0)) = .next t ∧ t.rdata = 0 ∧ t.errcode = 4) ∧
    ∃ t, perform (.read 32 0x08) (pendingOn 1 (.ntt 0 0)) = .next t ∧ t.rdata = 1 ∧ t.err = false :=
  ⟨⟨_, rfl, rfl, rfl⟩, ⟨_, rfl, rfl, rfl⟩⟩

/-- A placed command runs in the next step. -/
theorem test_placed_command :
    ∃ t, step (State.reset.withFetchWord 32 0x000001C8) = .next t ∧ t.done = true ∧
      t.lastCmd = 0x000001C8 ∧ t.agenda = [] :=
  ⟨_, rfl, by decide +kernel, by decide +kernel, by decide +kernel⟩

/-! ### Witnesses: for each obligation with hypotheses, inputs that meet them, clause by clause -/

theorem witness_DecodeOfEncode :
    (Instr.compress 7 7 1).wellFormed = true ∧ (Instr.decompress 0 7 11).wellFormed = true ∧
    (Instr.encode 7 12).wellFormed = true ∧ (Instr.decode 7 1).wellFormed = true ∧
    (Instr.sampleCbd 7 2).wellFormed = true ∧ (Instr.sampleNtt 7 255 255).wellFormed = true := by decide

theorem witness_EncodeOfDecode : decode 0x7FFF81E0#32 = .ok (.sampleNtt 7 255 255) := rfl

theorem witness_DecoderFollowsProcedure :
    (∀ o ∈ opcodeTable, o.selects o.pattern = true) ∧ (∀ o ∈ opcodeTable, o.selects 0x3F#32 = false) ∧
    Op.compress.selects 0x00060210#32 = true ∧ Op.sampleCbd.selects 0x000180A1#32 = true := by decide

theorem witness_IllegalWordsAreRejected :
    State.reset.busy = false ∧ decode 0x00000009#32 = .error .illegalCmd ∧
    decode 0x0000000F#32 = .error .illegalCmd ∧ decode 0x00000014#32 = .error .illegalCmd ∧
    decode 0x00000022#32 = .error .illegalCmd ∧ decode 0x00000030#32 = .error .illegalCmd ∧
    decode 0x80000020#32 = .error .illegalCmd := ⟨rfl, rfl, rfl, rfl, rfl, rfl, rfl⟩

theorem witness_ResetRestoresEveryField :
    (0x1#32).getLsbD 0 = true ∧ (0x3#32).getLsbD 0 = true := by decide

theorem witness_BadAccessHasNoEffect :
    (0x3FFF < 0x4000 ∧ ((32 : Nat) ≠ 32 ∨ 0x3FFF % 4 ≠ 0)) ∧ (0 < 0x4000 ∧ ((8 : Nat) ≠ 32 ∨ 0 % 4 ≠ 0)) := by
  decide

theorem witness_UnmappedOffsetsAreBadAccesses :
    ∀ off ∈ [0x60, 0x3FC, 0x580, 0x5FC, 0xA00, 0xFFC, 0x3000, 0x3FFC], off % 4 = 0 ∧ unmapped off := by
  decide

theorem witness_ApertureIsCoveredWithoutAliasing :
    (0x3FFC < 0x4000 ∧ 0x3FFC % 4 = 0) ∧ locate 0x2FFC = some (.poly 7 255) ∧ 0x4000 ≤ 0x4000 :=
  ⟨by decide, rfl, by decide⟩

theorem witness_ReadOnlyLocations :
    State.reset.busy = false ∧
    (∀ off ∈ [0x00, 0x0C, 0x1C, 0x600, 0x7FC, 0x800, 0x9FC], off % 4 = 0 ∧
      (off = 0x00 ∨ off = 0x0C ∨ off = 0x1C ∨ (0x600 ≤ off ∧ off ≤ 0x7FC) ∨ (0x800 ≤ off ∧ off ≤ 0x9FC))) ∧
    127 < 128 := ⟨rfl, by decide, by decide⟩

theorem witness_AccessWhileBusy :
    (pendingOn 0 .nop).busy = true ∧ locate 0x00 = some .id ∧ locate 0x1C = some .xofBytes ∧
    ∀ off ∈ [0x20, 0x3C, 0x40, 0x5C, 0x400, 0x57C, 0x600, 0x7FC, 0x800, 0x9FC, 0x1000, 0x2FFC],
      off % 4 = 0 ∧ inWindow off := ⟨rfl, rfl, rfl, by decide⟩

theorem witness_PolynomialWindow :
    State.reset.busy = false ∧ 255 < 256 ∧ (3328#32).toNat < 3329 ∧ 3329 ≤ (3329#32).toNat :=
  ⟨rfl, by decide, by decide, by decide⟩

theorem witness_BufferWindow :
    (withBuf [1, 2]).busy = false ∧ (withBuf [1, 2]).buf.wf = true ∧ 95 < 96 :=
  ⟨rfl, by decide +kernel, by decide⟩

theorem witness_SeedWindows : State.reset.busy = false ∧ 7 < 8 := ⟨rfl, by decide⟩

theorem witness_ReservedBits :
    0xFFFFFFFC#32 &&& 0x3#32 = 0 ∧ 0xFFFFFFF0#32 &&& 0xF#32 = 0 ∧ State.reset.busy = false :=
  ⟨by decide, by decide, rfl⟩

theorem witness_ReadsHaveNoSideEffect :
    (0x2FFC % 4 = 0 ∧ locate 0x2FFC = some (.poly 7 255) ∧ State.reset.busy = false) ∧
    (0x08 % 4 = 0 ∧ locate 0x08 = some .status ∧ busyRefusesRead .status = false) :=
  ⟨⟨rfl, rfl, rfl⟩, ⟨rfl, rfl, rfl⟩⟩

theorem witness_CounterRegister : (withPrf 2 255 []).busy = false := rfl

theorem witness_FirstErrorIsKept : State.reset.err = false := rfl

theorem witness_ErrorsChangeNothingElse :
    State.reset.err = false ∧
    (∃ t, perform (.read 16 0x00) State.reset = .next t ∧ t.err = true) ∧
    (∃ t, perform (.write 32 0x14 0x3F) State.reset = .next t ∧ t.err = true ∧ t.done = true) ∧
    ∃ t, perform (.write 32 0x1000 3329) State.reset = .next t ∧ t.err = true :=
  ⟨rfl, ⟨_, rfl, rfl⟩, ⟨_, rfl, rfl, rfl⟩, ⟨_, rfl, rfl⟩⟩

theorem witness_IssueAccepts :
    State.reset.busy = false ∧ validate 0x000180A1#32 State.reset = .ok (.sampleCbd 2 3) := ⟨rfl, rfl⟩

theorem witness_IssueRejects :
    State.reset.busy = false ∧ validate 0x00000009#32 State.reset = .error .illegalCmd ∧
    validate 0x00060210#32 State.reset = .error .invalidParameter ∧
    validate 0x00010021#32 { State.reset with ctrExh := true } = .error .counterExhausted :=
  ⟨rfl, rfl, rfl, rfl⟩

/-- A source coefficient at the bound 2^d, for ENCODE and DECOMPRESS. -/
theorem witness_ChecksInOrder :
    decode 0x00008012#32 = .ok (.encode 0 1) ∧ 2 ^ 1 ≤ (coefAt ((withP 0 [2]).poly 0) 0).val ∧
    decode 0x00058011#32 = .ok (.decompress 0 0 11) ∧ 2 ^ 11 ≤ (coefAt ((withP 0 [2048]).poly 0) 0).val ∧
    decode 0x00010021#32 = .ok (.sampleCbd 0 2) ∧ ({ State.reset with ctrExh := true } : State).ctrExh = true ∧
    decode 0x00060012#32 = .ok (.encode 0 12) ∧ decode 0x3F#32 = .error .illegalCmd ∧
    decode 0x00000010#32 = .error .invalidParameter ∧ (pendingOn 0 .nop).busy = true ∧ inWindow 0x2FFC ∧
    0x3FFF < 0x4000 ∧ locate 0x3FFC = none :=
  ⟨rfl, by decide +kernel, rfl, by decide +kernel, rfl, rfl, rfl, rfl, rfl, rfl, by decide, by decide, rfl⟩

theorem witness_CmdWriteWhileBusy : (pendingOn 0 .nop).busy = true := rfl

theorem witness_AbortDropsThePendingCommand :
    (0x2#32).getLsbD 0 = false ∧ (0x2#32).getLsbD 1 = true ∧ (pendingOn 0 .nop).busy = true ∧
    State.reset.busy = false := ⟨by decide, by decide, rfl, rfl⟩

/-- The clause on 256 acceptances is met by `witness_SampleNttEffect`. -/
theorem witness_EngineCompletesPendingCommand :
    State.reset.pending = none ∧ (pendingOn 1 (.ntt 0 0)).pending = some (.ntt 0 0) ∧
    State.reset.Completes .nop ∧
    (accepted (State.reset.xofStream (xofInput State.reset.rho 1 2)) State.reset.xofReady).length < 256 :=
  ⟨rfl, rfl, fun _ _ _ h => (nomatch h), by decide⟩

theorem witness_AbortAndCompletionInEitherOrder :
    (pendingOn 0 .nop).busy = true ∧ (0x2#32).getLsbD 0 = false ∧ (0x2#32).getLsbD 1 = true ∧
    ∃ t, perform (.engine 0) (pendingOn 0 .nop) = .next t ∧ t.busy = false :=
  ⟨rfl, by decide, by decide, _, rfl, rfl⟩

theorem witness_StepRunsTheDecodedCommand :
    ∃ s : State, s.busy = false ∧ s.agenda = [.write 32 0x14 0x000180A1#32, .engine 0] ∧
      decode 0x000180A1#32 = .ok (.sampleCbd 2 3) ∧ stateCheck (.sampleCbd 2 3) s = none :=
  ⟨{ State.reset with agenda := [.write 32 0x14 0x000180A1#32, .engine 0] }, rfl, rfl, rfl, rfl⟩

theorem witness_PlacedCommandRunsNext :
    State.reset.busy = false ∧ decodeTableWord 32 0x1C8 = some (.pzero 7) ∧
    stateCheck (.pzero 7) State.reset = none ∧
    validate (tableWord 32 0x10) State.reset = .error .invalidParameter := ⟨rfl, rfl, rfl, rfl⟩

theorem reset_inv : State.reset.Inv :=
  ⟨rfl, by decide, by decide, by decide, by decide, by decide, by decide, rfl, fun _ h => nomatch h⟩

/-- A state with something to do meets the invariant, and its step answers a next state. -/
theorem witness_StepKeepsInvariant :
    ∃ s t : State, s.Inv ∧ step s = .next t ∧ t.busy = true :=
  ⟨{ State.reset with agenda := [.write 32 0x14 0] }, _,
    ⟨rfl, by decide, by decide, by decide, by decide, by decide, by decide, rfl, fun _ h => nomatch h⟩,
    rfl, rfl⟩

theorem witness_OperandsFixedWhileBusy :
    (pendingOn 0 .nop).busy = true ∧ (0xFFFFFFFC#32).getLsbD 0 = false ∧ (0xFFFFFFFC#32).getLsbD 1 = false ∧
    (∃ t, perform (.write 32 0x04 0xFFFFFFFC#32) (pendingOn 0 .nop) = .next t) ∧
    ∃ t, perform (.write 32 0x1000 7) (pendingOn 0 .nop) = .next t :=
  ⟨rfl, by decide, by decide, ⟨_, rfl⟩, ⟨_, rfl⟩⟩

/-- The four ways a register changes. -/
theorem witness_OnlyItsWritersChangeRegister :
    (∃ t, step { withP 3 [7] with pending := some (.pcopy 4 3), agenda := [.engine 0] } = .next t ∧
      coefAt (t.poly 4) 0 = 7) ∧
    (∃ t, step { State.reset with agenda := [.write 32 0x2FFC 3328] } = .next t ∧
      coefAt (t.poly 7) 255 = 3328) ∧
    (∃ t, step { withP 3 [7] with agenda := [.powerReset] } = .next t ∧ coefAt (t.poly 3) 0 = 0) ∧
    ∃ t, step { withP 3 [7] with agenda := [.write 32 0x04 1] } = .next t ∧ coefAt (t.poly 3) 0 = 0 :=
  ⟨⟨_, rfl, by decide +kernel⟩, ⟨_, rfl, by decide +kernel⟩, ⟨_, rfl, by decide +kernel⟩,
    ⟨_, rfl, by decide +kernel⟩⟩

/-- A register that is neither source nor PD, and PD not a source: of a command that completes, and of a
SAMPLE_NTT that does not. The completing SAMPLE_NTT is that of `witness_SampleNttEffect`. -/
theorem witness_OnlyItsReadersDependOnRegister :
    ((2 : PReg) ∉ sources (.pmac 0 1 3) ∧ (∃ t, exec (.pmac 0 1 3) State.reset = .next t) ∧
      ¬ (dest (.pmac 0 1 3) = some 2 ∧ State.reset.Completes (.pmac 0 1 3))) ∧
    ((0 : PReg) ∉ sources (.padd 0 1 3) ∧ (∃ t, exec (.padd 0 1 3) State.reset = .next t) ∧
      dest (.padd 0 1 3) = some 0 ∧ State.reset.Completes (.padd 0 1 3)) ∧
    (0 : PReg) ∉ sources (.sampleNtt 0 1 2) ∧ (∃ t, exec (.sampleNtt 0 1 2) State.reset = .next t) ∧
      ¬ (dest (.sampleNtt 0 1 2) = some 0 ∧ State.reset.Completes (.sampleNtt 0 1 2)) :=
  ⟨⟨by decide, ⟨_, rfl⟩, fun h => absurd h.1 (by decide)⟩,
    ⟨by decide, ⟨_, rfl⟩, rfl, fun _ _ _ h => (nomatch h)⟩,
    by decide, ⟨_, rfl⟩, fun h => absurd (h.2 _ _ _ rfl) (by decide)⟩

theorem witness_InternalDataMovement :
    (∃ t, exec (.decode 0 12) (withBuf [1]) = .next t) ∧
    (∀ pa d, Instr.decode 0 12 ≠ .encode pa d) ∧ (∀ pd d, Instr.encode 0 12 ≠ .decode pd d) ∧
    (∀ pd b32 b33, Instr.sampleCbd 0 2 ≠ .sampleNtt pd b32 b33) ∧
    ∀ pd eta, Instr.sampleNtt 0 1 2 ≠ .sampleCbd pd eta :=
  ⟨⟨_, rfl⟩, fun _ _ h => (nomatch h), fun _ _ h => (nomatch h), fun _ _ _ h => (nomatch h),
    fun _ _ h => (nomatch h)⟩

theorem witness_CommandFrames :
    (Instr.encode 0 11).wellFormed = true ∧ (withBuf [1]).buf.wf = true ∧
    (∃ t, exec (.encode 0 11) (withBuf [1]) = .next t) ∧ 32 * (11#4).toNat ≤ 352 ∧
    dest (.encode 0 11) ≠ some 0 := ⟨by decide, by decide +kernel, ⟨_, rfl⟩, by decide, by decide⟩

/-- A word with a 1 in one of the fields that must be 0, for each command; and for those with a field W a word
with zeros there and W outside its range. -/
theorem witness_EncodingErrors :
    State.reset.busy = false ∧
    (bitField 0x40#32 0 6 = 0x00 ∧ bitField 0x40#32 6 26 ≠ 0) ∧
    (bitField 0x00001001#32 0 6 = 0x01 ∧ bitField 0x00001001#32 12 3 ≠ 0) ∧
    (bitField 0x80000002#32 0 6 = 0x02 ∧ bitField 0x80000002#32 15 17 ≠ 0) ∧
    (bitField 0x00008003#32 0 6 = 0x03 ∧ bitField 0x00008003#32 15 17 ≠ 0) ∧
    (bitField 0x80000004#32 0 6 = 0x04 ∧ bitField 0x80000004#32 15 17 ≠ 0) ∧
    (bitField 0x00008005#32 0 6 = 0x05 ∧ bitField 0x00008005#32 15 17 ≠ 0) ∧
    (bitField 0x80000006#32 0 6 = 0x06 ∧ bitField 0x80000006#32 15 17 ≠ 0) ∧
    (bitField 0x00001007#32 0 6 = 0x07 ∧ bitField 0x00001007#32 12 3 ≠ 0) ∧
    (bitField 0x00000208#32 0 6 = 0x08 ∧ bitField 0x00000208#32 9 3 ≠ 0) ∧
    (bitField 0x00080010#32 0 6 = 0x10 ∧ bitField 0x00080010#32 19 13 ≠ 0) ∧
    (bitField 0x00001011#32 0 6 = 0x11 ∧ bitField 0x00001011#32 12 3 ≠ 0) ∧
    (bitField 0x00008052#32 0 6 = 0x12 ∧ bitField 0x00008052#32 6 3 ≠ 0) ∧
    (bitField 0x00008213#32 0 6 = 0x13 ∧ bitField 0x00008213#32 9 3 ≠ 0) ∧
    (bitField 0x80000020#32 0 6 = 0x20 ∧ bitField 0x80000020#32 31 1 ≠ 0) ∧
    (bitField 0x00080021#32 0 6 = 0x21 ∧ bitField 0x00080021#32 19 13 ≠ 0) ∧
    (bitField 0x00060210#32 12 3 = 0 ∧ bitField 0x00060210#32 19 13 = 0 ∧ bitField 0x00060210#32 15 4 = 12) ∧
    (bitField 0x00000011#32 12 3 = 0 ∧ bitField 0x00000011#32 19 13 = 0 ∧ bitField 0x00000011#32 15 4 = 0) ∧
    (bitField 0x00068012#32 6 3 = 0 ∧ bitField 0x00068012#32 19 13 = 0 ∧ bitField 0x00068012#32 15 4 = 13) ∧
    (bitField 0x00000013#32 9 3 = 0 ∧ bitField 0x00000013#32 19 13 = 0 ∧ bitField 0x00000013#32 15 4 = 0) ∧
    (bitField 0x00020021#32 9 3 = 0 ∧ bitField 0x00020021#32 19 13 = 0 ∧ bitField 0x00020021#32 15 4 = 4) := by
  refine ⟨rfl, ?_⟩
  decide

theorem witness_BitPacking :
    (List.replicate 16 true).length % 8 = 0 ∧ 15 < (List.replicate 16 true).length ∧
    15 < 8 * ([0x80, 0x01] : List Byte).length := by decide

theorem witness_CompressEffect : (1 ≤ (1#4).toNat ∧ (1#4).toNat ≤ 11) ∧ (1 ≤ (11#4).toNat ∧ (11#4).toNat ≤ 11) := by
  decide

theorem witness_DecompressEffect :
    (1 ≤ (11#4).toNat ∧ (11#4).toNat ≤ 11) ∧ 2 ^ (11#4).toNat ≤ (coefAt ((withP 0 [2048]).poly 0) 0).val ∧
    (withP 0 [2048]).busy = false := ⟨by decide, by decide +kernel, rfl⟩

theorem witness_EncodeEffect :
    (1 ≤ (12#4).toNat ∧ (12#4).toNat ≤ 12) ∧ (withBuf [1]).buf.wf = true ∧ (11#4).toNat < 12 ∧
    (withP 0 [2048]).buf.wf = true ∧ 2 ^ (11#4).toNat ≤ (coefAt ((withP 0 [2048]).poly 0) 0).val ∧
    (withP 0 [2048]).busy = false :=
  ⟨by decide, by decide +kernel, by decide, by decide +kernel, by decide +kernel, rfl⟩

theorem witness_DecodeEffect : (1 ≤ (1#4).toNat ∧ (1#4).toNat ≤ 12) ∧ (1 ≤ (12#4).toNat ∧ (12#4).toNat ≤ 12) := by
  decide

theorem witness_CompressionLoss : (1 ≤ 11 ∧ 11 ≤ 11) ∧ (2047 : Coef).val < 2 ^ 11 := by decide

theorem witness_CodecRoundTrip :
    allBelow (polyOf [2047]) (2 ^ 11) = true ∧ (withP 0 [2047]).buf.wf = true ∧
    allBelow ((withP 0 [2047]).poly 0) (2 ^ (11#4).toNat) = true ∧
    ∃ t, exec (.encode 0 11) (withP 0 [2047]) = .next t :=
  ⟨by decide +kernel, by decide +kernel, by decide +kernel, _, rfl⟩

/-- One string whose first field is 3329, the least that is reduced. -/
theorem witness_DecodeBoundaryReduction :
    ([0x01, 0x0D] ++ List.replicate 382 0 : List Byte).length = 384 ∧
    3329 ≤ bitsValue (((bytesToBits ([0x01, 0x0D] ++ List.replicate 382 0)).drop (0 * 12)).take 12) := by
  decide +kernel

theorem witness_SampleNttEffect :
    256 ≤ (accepted ((withXof 128 (List.replicate 384 0)).xofStream
      (xofInput (withXof 128 (List.replicate 384 0)).rho 1 2))
      (withXof 128 (List.replicate 384 0)).xofReady).length := by
  have h := accepted_zeros ((withXof 128 (List.replicate 384 0)).xofStream
    (xofInput (withXof 128 (List.replicate 384 0)).rho 1 2)) 128 fun x hx => withXof_zeros _ _ _ (by omega)
  exact Nat.le_of_eq h.symm

/-- A pending SAMPLE_NTT with 254 acceptances in 127 chunks and 256 in 128. -/
theorem witness_SampleNttWaitsForItsStream :
    ∃ s : State, s.pending = some (.sampleNtt 0 1 2) ∧
      (accepted (s.xofStream (xofInput s.rho 1 2)) 127).length < 256 ∧
      256 ≤ (accepted (s.xofStream (xofInput s.rho 1 2)) 128).length ∧ 128 ≤ 129 := by
  refine ⟨{ withXof 0 (List.replicate 384 0) with pending := some (.sampleNtt 0 1 2) }, rfl, ?_, ?_, by decide⟩
  · have h := accepted_zeros ((withXof 0 (List.replicate 384 0)).xofStream
      (xofInput (withXof 0 (List.replicate 384 0)).rho 1 2)) 127 fun x hx => withXof_zeros _ _ _ (by omega)
    exact Nat.lt_of_le_of_lt (Nat.le_of_eq h) (by decide)
  · have h := accepted_zeros ((withXof 0 (List.replicate 384 0)).xofStream
      (xofInput (withXof 0 (List.replicate 384 0)).rho 1 2)) 128 fun x hx => withXof_zeros _ _ _ (by omega)
    exact Nat.le_of_eq h.symm

theorem witness_SampleCbdEffect :
    (2#4).toNat = 2 ∧ (3#4).toNat = 3 ∧ (withPrf 2 254 []).counter.toNat < 255 ∧
    (withPrf 2 255 []).counter.toNat = 255 := ⟨by decide, by decide, by decide, by decide⟩

theorem witness_CounterExhaustion :
    ∃ s : State, s.busy = false ∧ s.ctrExh = true ∧ decode 0x00010021#32 = .ok (.sampleCbd 0 2) :=
  ⟨{ State.reset with counter := 255, ctrExh := true }, rfl, rfl, rfl⟩

theorem witness_SequentialCounter :
    (withPrf 2 253 []).counter.toNat + cbdCount [.sampleCbd 0 2, .nop, .sampleCbd 1 3] ≤ 255 := by decide

/-- The bounds of the indices the transform laws range over. -/
theorem witness_transform_indices : 127 < 128 ∧ 63 < 64 ∧ 255 < 256 := by decide

end Sys2Proof.Tests
end

section
/-!
PROOFS. The frame of a completion (spec/00_scope.md R16): for each group of fields, the commands that leave it
as it was. A lemma about every command is a case analysis by `exec_cases`; none unfolds a command.
-/

namespace Sys2Proof.Machine

/-! ### How many bytes ENCODE stores -/

/-- Every group of eight bits makes one byte (R150). -/
theorem length_bitsToBytes : ∀ b : List Bool, (bitsToBytes b).length = b.length / 8
  | [] | [_] | [_, _] | [_, _, _] | [_, _, _, _] | [_, _, _, _, _] | [_, _, _, _, _, _]
  | [_, _, _, _, _, _, _] => by simp [bitsToBytes]
  | _ :: _ :: _ :: _ :: _ :: _ :: _ :: _ :: rest => by
    have ih := length_bitsToBytes rest
    simp only [bitsToBytes, List.length_cons, ih]
    omega

theorem length_coefBits (d : Nat) (c : Coef) : (coefBits d c).length = d := by simp [coefBits]

/-- ByteEncode_d makes 32·d bytes (R159). -/
theorem length_byteEncode (d : Nat) (F : PolyVal) : (byteEncode d F).length = 32 * d := by
  have hbits : (F.toList.flatMap (coefBits d)).length = 256 * d := by
    simp only [List.length_flatMap, length_coefBits, List.map_const', List.sum_replicate, Vector.length_toList,
      smul_eq_mul]
  rw [byteEncode, length_bitsToBytes, hbits]
  omega

/-! ### What a completion leaves as it was -/

section
variable {i : Instr} {s t : State} (h : exec i s = .next t)
include h

/-- A completion changes no field but the register file, BUF, COUNTER, CTR_EXH, XOF_BYTES and what the end of
a command's life changes (R257). -/
theorem exec_writes_only :
    ∃ P buf counter ctrExh xofBytes pending busy done,
      t = { s with P, buf, counter, ctrExh, xofBytes, pending, busy, done } := by
  rcases exec_cases h with ⟨-, rfl⟩ | ⟨pd, v, -, rfl⟩ | ⟨pa, d, -, rfl⟩ |
    ⟨pd, b32, b33, -, ⟨a, k, -, rfl⟩ | ⟨-, rfl⟩⟩ | ⟨pd, eta, v, -, rfl⟩
  case inr.inr.inr.inr => unfold State.advanceCounter; split <;> exact ⟨_, _, _, _, _, _, _, _, rfl⟩
  all_goals exact ⟨_, _, _, _, _, _, _, _, rfl⟩

/-- A register that is not the command's PD keeps its value (R25). -/
theorem exec_poly_of_ne_dest {r : PReg} (hr : dest i ≠ some r) : t.poly r = s.poly r := by
  rcases exec_cases h with ⟨-, rfl⟩ | ⟨pd, v, hd, rfl⟩ | ⟨pa, d, -, rfl⟩ |
    ⟨pd, b32, b33, rfl, ⟨a, k, -, rfl⟩ | ⟨-, rfl⟩⟩ | ⟨pd, eta, v, rfl, rfl⟩
  · rfl
  · exact commitPoly_poly_ne s pd r v fun e => hr (e ▸ hd)
  · rfl
  · exact commitPoly_poly_ne _ pd r _ fun e => hr (e ▸ rfl)
  · rfl
  · rw [commitPoly_poly_ne _ pd r v fun e => hr (e ▸ rfl), poly_congr (advanceCounter_P s)]

/-- Only ENCODE writes BUF. -/
theorem exec_buf_of_not_encode (hi : ∀ pa d, i ≠ .encode pa d) : t.buf = s.buf := by
  rcases exec_cases h with ⟨-, rfl⟩ | ⟨pd, v, -, rfl⟩ | ⟨pa, d, he, -⟩ |
    ⟨pd, b32, b33, -, ⟨a, k, -, rfl⟩ | ⟨-, rfl⟩⟩ | ⟨pd, eta, v, -, rfl⟩
  · rfl
  · rfl
  · exact absurd he (hi pa d)
  · rfl
  · rfl
  · exact advanceCounter_buf s

/-- Only SAMPLE_CBD touches COUNTER and CTR_EXH (R189). -/
theorem exec_counter_of_not_sampleCbd (hi : ∀ pd eta, i ≠ .sampleCbd pd eta) :
    t.counter = s.counter ∧ t.ctrExh = s.ctrExh := by
  rcases exec_cases h with ⟨-, rfl⟩ | ⟨pd, v, -, rfl⟩ | ⟨pa, d, -, rfl⟩ |
    ⟨pd, b32, b33, -, ⟨a, k, -, rfl⟩ | ⟨-, rfl⟩⟩ | ⟨pd, eta, v, he, -⟩
  case inr.inr.inr.inr => exact absurd he (hi pd eta)
  all_goals exact ⟨rfl, rfl⟩

/-- Only SAMPLE_NTT touches XOF_BYTES (R35). -/
theorem exec_xofBytes_of_not_sampleNtt (hi : ∀ pd b32 b33, i ≠ .sampleNtt pd b32 b33) :
    t.xofBytes = s.xofBytes := by
  rcases exec_cases h with ⟨-, rfl⟩ | ⟨pd, v, -, rfl⟩ | ⟨pa, d, -, rfl⟩ | ⟨pd, b32, b33, he, -⟩ |
    ⟨pd, eta, v, -, rfl⟩
  · rfl
  · rfl
  · rfl
  · exact absurd he (hi pd b32 b33)
  · exact advanceCounter_xofBytes s

end

/-- ENCODE with d at most 12 leaves every byte from 32·d on as it was (R163). -/
theorem exec_encode_readByte_of_le {pa : PReg} {d : BitVec 4} {s t : State} (hd : d.toNat ≤ 12)
    (hwf : s.buf.wf = true) (h : exec (.encode pa d) s = .next t) {b : Nat} (hb : 32 * d.toNat ≤ b) :
    readByte t.buf b = readByte s.buf b := by
  obtain rfl := Host.Outcome.next.inj h
  have hlen := length_byteEncode d.toNat (s.poly pa)
  have hread := readByte_writeBytes (base := 0) (by rw [hlen]; omega) hwf b
  rw [if_neg (by rw [hlen]; omega)] at hread
  exact hread

/-- A completed command leaves every byte of BUF it does not store to as it was. -/
theorem exec_readByte_of_not_stored {i : Instr} {s t : State} (hi : i.wellFormed = true)
    (hwf : s.buf.wf = true) (h : exec i s = .next t) {b : Nat}
    (hb : ∀ pa d, i = .encode pa d → 32 * d.toNat ≤ b) : readByte t.buf b = readByte s.buf b := by
  by_cases he : ∃ pa d, i = .encode pa d
  · obtain ⟨pa, d, rfl⟩ := he
    have hd : 1 ≤ d.toNat ∧ d.toNat ≤ 12 := of_decide_eq_true hi
    exact exec_encode_readByte_of_le hd.2 hwf h (hb pa d rfl)
  · rw [exec_buf_of_not_encode h fun pa d hd => he ⟨pa, d, hd⟩]

/-- Settles O37: the frame of each group of fields, put together. -/
theorem commandFrames : Obligations.CommandFrames := by
  unfold Obligations.CommandFrames
  intro i s t hi hwf h
  obtain ⟨P, buf, counter, ctrExh, xofBytes, pending, busy, done, rfl⟩ := exec_writes_only h
  exact ⟨fun r => exec_poly_of_ne_dest h, fun b => exec_readByte_of_not_stored hi hwf h, rfl, rfl, rfl, rfl,
    exec_counter_of_not_sampleCbd h, exec_xofBytes_of_not_sampleNtt h, rfl, rfl, rfl, rfl, rfl, rfl, rfl, rfl⟩

end Sys2Proof.Machine
end

section
/-!
PROOFS. The invariant (`State.Inv`) is kept by every operation a step is made of, and so by every step. A host
access while busy leaves the pending command, its word and its operands alone, or ends the command's life; a
completion ends it; and an issue, which happens only while idle, makes pending what has just passed its checks.
-/

namespace Sys2Proof.Machine

/-! ### The pending command, error codes and the idle block -/

/-- A word that decodes gives a command whose d or eta is in range (spec/30_encoding.md R95, R96, R100). -/
theorem wellFormed_of_decode {w : Word} {i : Instr} (h : decode w = .ok i) : i.wellFormed = true := by
  unfold decode at h
  split at h
  next => cases h
  next o _ =>
    split at h
    next hp =>
      obtain rfl := Except.ok.inj h
      cases o <;> exact hp
    next => cases h

theorem State.PendingOk.of_none {s : State} (h : s.pending = none) : s.PendingOk := fun i hi => by
  rw [h] at hi; cases hi

/-- Whether the pending command still passes its checks depends on it, its word, the register file and CTR_EXH
alone. -/
theorem State.PendingOk.congr {s t : State} (h : s.PendingOk) (hp : t.pending = s.pending)
    (hw : t.lastCmd = s.lastCmd) (hP : t.P = s.P) (hc : t.ctrExh = s.ctrExh) : t.PendingOk := fun i hi => by
  rw [hw, stateCheck_congr hP hc]
  exact h i (hp ▸ hi)

/-- The number of an error code is neither 0 nor above 7 (spec/60_exceptions.md R251). -/
theorem ErrorCode.bits_range (e : ErrorCode) : e.bits ≠ 0 ∧ e.bits.toNat < 8 := by cases e <;> decide

/-- With nothing pending, the invariant is what it says of the other registers. -/
theorem State.Inv.of_idle {s : State} (hbusy : s.busy = false) (hpending : s.pending = none)
    (herr : s.err = true ↔ s.errcode ≠ 0) (hcode : s.errcode.toNat < 8)
    (hexh : s.ctrExh = true → s.counter = 255) (hmod : s.xofBytes.toNat % 3 = 0)
    (hmin : s.xofBytes = 0 ∨ 384 ≤ s.xofBytes.toNat) (hbuf : s.buf.wf = true) : s.Inv where
  busy_iff := by rw [hbusy, hpending]; rfl
  notDone h := by rw [hbusy] at h; cases h
  err_iff := herr
  code_lt := hcode
  exhausted := hexh
  xof_mod := hmod
  xof_min := hmin
  buf_wf := hbuf
  pendingOk := State.PendingOk.of_none hpending

theorem resetBlock_inv (s : State) : s.resetBlock.Inv :=
  .of_idle rfl rfl ⟨nofun, fun h => absurd rfl h⟩ (Nat.succ_pos 7) nofun rfl (.inl rfl) rfl

namespace State.Inv

variable {s : State} (h : s.Inv)
include h

theorem pending_eq_none (hbusy : s.busy = false) : s.pending = none :=
  Option.not_isSome_iff_eq_none.mp (by rw [← h.busy_iff, hbusy]; decide)

/-! ### Operations that leave the pending command alone -/

/-- The invariant does not speak of the seeds, the interrupt enables and the model's own fields. -/
theorem frame (rho sig : Seed32) (ieDone ieErr : Bool) (agenda : List Event) (rdata : Word) (xofReady : Nat) :
    { s with rho, sig, ieDone, ieErr, agenda, rdata, xofReady }.Inv :=
  { h with pendingOk := h.pendingOk.congr rfl rfl rfl rfl }

/-- Recording an error keeps CODE and ERR together. -/
theorem raise (e : ErrorCode) : (s.raise e).Inv :=
  have hcode : (s.raise e).errcode ≠ 0 ∧ (s.raise e).errcode.toNat < 8 := by
    rw [raise_errcode]
    split
    next he => exact ⟨h.err_iff.mp he, h.code_lt⟩
    next => exact e.bits_range
  { h with
    err_iff := iff_of_true rfl hcode.1
    code_lt := hcode.2
    pendingOk := h.pendingOk.congr rfl rfl rfl rfl }

/-- A STATUS write clears CODE with ERR, and only clears DONE (spec/10_state.md R29, R30). -/
theorem writeStatus (w : Word) : (s.writeStatus w).Inv where
  busy_iff := by rw [writeStatus_busy, writeStatus_pending, h.busy_iff]
  notDone hb := by
    rw [writeStatus_busy] at hb
    rw [writeStatus_done, h.notDone hb, ite_self]
  err_iff := by
    rw [writeStatus_err, writeStatus_errcode]
    split
    next => decide
    next => exact h.err_iff
  code_lt := by
    rw [writeStatus_errcode]
    split
    next => decide
    next => exact h.code_lt
  exhausted := by rw [writeStatus_ctrExh, writeStatus_counter]; exact h.exhausted
  xof_mod := by rw [writeStatus_xofBytes]; exact h.xof_mod
  xof_min := by rw [writeStatus_xofBytes]; exact h.xof_min
  buf_wf := by rw [writeStatus_buf]; exact h.buf_wf
  pendingOk := h.pendingOk.congr (writeStatus_pending s w) (writeStatus_lastCmd s w) (writeStatus_P s w)
    (writeStatus_ctrExh s w)

/-! ### Operations that end a command's life, or act while none is pending -/

theorem setPoly (hbusy : s.busy = false) (p : PReg) (v : PolyVal) : (s.setPoly p v).Inv :=
  of_idle hbusy (h.pending_eq_none hbusy) h.err_iff h.code_lt h.exhausted h.xof_mod h.xof_min h.buf_wf

theorem setBuf (hbusy : s.busy = false) {m : Memory} (hm : m.wf = true) : (s.setBuf m).Inv :=
  of_idle hbusy (h.pending_eq_none hbusy) h.err_iff h.code_lt h.exhausted h.xof_mod h.xof_min hm

/-- A COUNTER write clears CTR_EXH (spec/10_state.md R33). -/
theorem writeCounter (hbusy : s.busy = false) (w : Word) : (s.writeCounter w).Inv :=
  of_idle hbusy (h.pending_eq_none hbusy) h.err_iff h.code_lt nofun h.xof_mod h.xof_min h.buf_wf

theorem complete : s.complete.Inv :=
  of_idle rfl rfl h.err_iff h.code_lt h.exhausted h.xof_mod h.xof_min h.buf_wf

theorem abort : s.abort.Inv := h.complete.raise .aborted

theorem reject (hbusy : s.busy = false) (e : ErrorCode) : (s.reject e).Inv :=
  have hr := h.raise e
  of_idle hbusy (h.pending_eq_none hbusy) hr.err_iff hr.code_lt h.exhausted h.xof_mod h.xof_min h.buf_wf

/-- Acceptance makes pending a command that has just passed its checks (spec/60_exceptions.md R256). -/
theorem accept {w : Word} {i : Instr} (hd : decode w = .ok i) (hc : stateCheck i s = none) :
    (s.accept w i).Inv :=
  { h with
    busy_iff := rfl
    notDone := fun _ => rfl
    pendingOk := fun j hj => by
      obtain rfl := Option.some.inj hj
      exact ⟨hd, (stateCheck_congr rfl rfl i).trans hc⟩ }

theorem issue (hbusy : s.busy = false) (w : Word) : (s.issue w).Inv := by
  rcases issue_cases s w with ⟨i, hd, hc, he⟩ | ⟨e, -, he⟩ <;> rw [he]
  · exact h.accept hd hc
  · exact h.reject hbusy e

theorem writeCtrl (w : Word) : (s.writeCtrl w).Inv := by
  rcases writeCtrl_cases s w with ⟨-, he⟩ | ⟨-, -, -, he⟩ | ⟨-, -, he⟩ <;> rw [he]
  · exact resetBlock_inv s
  · exact h.abort
  · exact h

theorem writeCoef (hbusy : s.busy = false) (p : PReg) (j : Nat) (w : Word) : (s.writeCoef p j w).Inv := by
  rcases writeCoef_cases s p j w with ⟨-, he⟩ | ⟨-, he⟩ <;> rw [he]
  · exact h.setPoly hbusy p _
  · exact h.raise _

/-! ### Host accesses -/

/-- A write that is not refused keeps the invariant: while busy, none of those that reach an operand is left. -/
theorem writeLoc {l : Loc} (hl : l.inRange) (hok : s.busy = false ∨ busyRefusesWrite l = false) (w : Word) :
    (s.writeLoc w l).Inv := by
  have hidle : busyRefusesWrite l = true → s.busy = false := fun hr =>
    hok.resolve_right (by rw [hr]; decide)
  cases l with
  | id => exact h.raise _
  | ctrl => exact h.writeCtrl w
  | status => exact h.writeStatus w
  | errcode => exact h.raise _
  | irqEn => exact h.frame _ _ _ _ _ _ _
  | cmd => exact h.issue (hidle rfl) w
  | counter => exact h.writeCounter (hidle rfl) w
  | xofBytes => exact h.raise _
  | seedRho k => exact h.frame _ _ _ _ _ _ _
  | seedPrf k => exact h.frame _ _ _ _ _ _ _
  | buf k => exact h.setBuf (hidle rfl) (wf_putBufWord hl h.buf_wf)
  | zeta i => exact h.raise _
  | gamma i => exact h.raise _
  | poly p j => exact h.writeCoef (hidle rfl) p j w

theorem hostWrite (bits off : Nat) (w : Word) : (s.hostWrite bits off w).Inv := by
  rcases hostWrite_cases s bits off w with ⟨-, he⟩ | ⟨l, -, -, -, he⟩ | ⟨l, ht, hok, he⟩ <;> rw [he]
  · exact h.raise _
  · exact h.raise _
  · exact h.writeLoc (target_inRange ht) hok w

theorem failRead (e : ErrorCode) : (s.failRead e).Inv := (h.raise e).frame _ _ _ _ _ _ _

theorem hostRead (bits off : Nat) : (s.hostRead bits off).Inv := by
  rcases hostRead_cases s bits off with ⟨-, he⟩ | ⟨l, -, -, -, he⟩ | ⟨l, -, -, he⟩ <;> rw [he]
  · exact h.failRead _
  · exact h.failRead _
  · exact h.frame _ _ _ _ _ _ _

/-! ### Completion -/

theorem commitPoly (p : PReg) (v : PolyVal) : (s.commitPoly p v).Inv :=
  of_idle rfl rfl h.err_iff h.code_lt h.exhausted h.xof_mod h.xof_min h.buf_wf

/-- The saturated count is a multiple of 3 (2^32 − 1 is), and at least 384 since 256 acceptances take at least
128 chunks (spec/10_state.md R35; spec/42_sampler.md R184). -/
theorem commitSample (p : PReg) (a : List Coef) {chunks : Nat} (hk : 128 ≤ chunks) :
    (s.commitSample p a (3 * chunks)).Inv :=
  have hx : (saturate32 (3 * chunks)).toNat = min (3 * chunks) 0xFFFFFFFF := by
    rw [saturate32, BitVec.toNat_ofNat]
    omega
  of_idle rfl rfl h.err_iff h.code_lt h.exhausted (by rw [commitSample_xofBytes, hx]; omega)
    (.inr (by rw [commitSample_xofBytes, hx]; omega)) h.buf_wf

/-- CTR_EXH is set only where COUNTER stays at 255 (spec/42_sampler.md R188, R190). -/
theorem commitPoly_advanceCounter (p : PReg) (v : PolyVal) : (s.advanceCounter.commitPoly p v).Inv := by
  refine of_idle rfl rfl ?_ ?_ ?_ ?_ ?_ ?_
  · simpa using h.err_iff
  · simpa using h.code_lt
  · rw [commitPoly_ctrExh, commitPoly_counter, advanceCounter_ctrExh, advanceCounter_counter]
    split
    next => exact fun _ => rfl
    next hc => exact fun he => absurd (h.exhausted he) hc
  · simpa using h.xof_mod
  · simpa using h.xof_min
  · simpa using h.buf_wf

/-- A completion of a well-formed command keeps the invariant. -/
theorem exec {i : Instr} {t : State} (hi : i.wellFormed = true) (he : exec i s = .next t) : t.Inv := by
  rcases exec_cases he with ⟨-, rfl⟩ | ⟨pd, v, -, rfl⟩ | ⟨pa, d, rfl, rfl⟩ |
    ⟨pd, b32, b33, rfl, -⟩ | ⟨pd, eta, v, -, rfl⟩
  · exact h.complete
  · exact h.commitPoly pd v
  · have hd : 1 ≤ d.toNat ∧ d.toNat ≤ 12 := of_decide_eq_true hi
    have hlen := length_byteEncode d.toNat (s.poly pa)
    have hm := wf_writeBytes (base := 0) (bs := byteEncode d.toNat (s.poly pa)) (by omega) h.buf_wf
    exact of_idle rfl rfl h.err_iff h.code_lt h.exhausted h.xof_mod h.xof_min hm
  · rcases execSampleNtt_cases s pd b32 b33 with ⟨-, k, -, hk, -, -, he'⟩ | ⟨-, he'⟩ <;>
      obtain rfl := Host.Outcome.next.inj (he.symm.trans he')
    · exact h.commitSample pd _ hk
    · exact h
  · exact h.commitPoly_advanceCounter pd v

/-! ### Events -/

theorem perform {e : Event} {t : State} (he : perform e s = .next t) : t.Inv := by
  rcases perform_cases he with ⟨bits, off, -, -, rfl⟩ | ⟨bits, off, w, -, -, rfl⟩ | ⟨n, -, -, rfl⟩ |
    ⟨n, i, -, hp, hx⟩ | ⟨-, rfl⟩
  · exact h.hostRead bits off
  · exact h.hostWrite bits off w
  · exact h
  · exact (h.frame s.rho s.sig s.ieDone s.ieErr s.agenda s.rdata n).exec
      (wellFormed_of_decode (h.pendingOk i hp).1) hx
  · exact resetBlock_inv s

end State.Inv

/-- Settles O32: a step performs one event, and every event keeps the invariant. -/
theorem stepKeepsInvariant : Obligations.StepKeepsInvariant := by
  unfold Obligations.StepKeepsInvariant
  intro s t h hstep
  rcases step_cases hstep with ⟨-, rfl⟩ | ⟨e, rest, -, he⟩
  · exact h
  · exact (h.frame s.rho s.sig s.ieDone s.ieErr rest s.rdata s.xofReady).perform he

/-- Settles O31: the reset state is what a reset of it answers. -/
theorem resetMeetsInvariant : Obligations.ResetMeetsInvariant := resetBlock_inv State.reset

end Sys2Proof.Machine
end

section
/-!
PROOFS. The windows onto byte arrays (spec/20_memory.md R63, R72): which byte of the array is which byte of the bus
word, for BUF and for the two seeds.
-/

namespace Sys2Proof.Machine

/-! ### Bytes and bus words -/

theorem byteOfWord_toNat (w : Word) (i : Nat) : (byteOfWord w i).toNat = bitField w (8 * i) 8 := by
  rw [byteOfWord, BitVec.extractLsb'_toNat, Nat.shiftRight_eq_div_pow]; rfl

/-- Two bus words with the same four bytes are equal. -/
theorem eq_of_byteOfWord_eq {w w' : Word} (h : ∀ i, i < 4 → byteOfWord w i = byteOfWord w' i) : w = w' := by
  apply BitVec.eq_of_getLsbD_eq
  intro j hj
  have hbit := congrArg (·.getLsbD (j % 8)) (h (j / 8) (by omega))
  have hlt : j % 8 < 8 := Nat.mod_lt j (by decide)
  simpa [byteOfWord, hlt, Nat.div_add_mod] using hbit

/-- Byte `i` of a packed word is byte `4·k + i` of the array. -/
theorem byteOfWord_packWord (byteAt : Nat → Byte) (k : Nat) {i : Nat} (hi : i < 4) :
    byteOfWord (packWord byteAt k) i = byteAt (4 * k + i) := by
  unfold byteOfWord packWord
  have hcases : i = 0 ∨ i = 1 ∨ i = 2 ∨ i = 3 := by omega
  rcases hcases with rfl | rfl | rfl | rfl
  · exact BitVec.extractLsb'_append_eq_right
  · rw [BitVec.extractLsb'_append_eq_of_le (by decide)]
    exact BitVec.extractLsb'_append_eq_right
  · rw [BitVec.extractLsb'_append_eq_of_le (by decide), BitVec.extractLsb'_append_eq_of_le (by decide)]
    exact BitVec.extractLsb'_append_eq_right
  · rw [BitVec.extractLsb'_append_eq_of_le (by decide), BitVec.extractLsb'_append_eq_of_le (by decide)]
    exact BitVec.extractLsb'_append_eq_left

/-- An array whose word `k` holds the bytes of `w` packs to `w` there. -/
theorem packWord_eq {byteAt : Nat → Byte} {k : Nat} {w : Word}
    (h : ∀ i, i < 4 → byteAt (4 * k + i) = byteOfWord w i) : packWord byteAt k = w :=
  eq_of_byteOfWord_eq fun i hi => (byteOfWord_packWord byteAt k hi).trans (h i hi)

/-- The bits of a packed word that hold byte `b` of the array. -/
theorem bitField_packWord (byteAt : Nat → Byte) {k b : Nat} (hb : b / 4 = k) :
    bitField (packWord byteAt k) (8 * (b % 4)) 8 = (byteAt b).toNat := by
  rw [← byteOfWord_toNat, byteOfWord_packWord byteAt k (Nat.mod_lt b (by decide)), ← hb, Nat.div_add_mod]

/-! ### An array with one word replaced -/

/-- BUF after a word was written: its four bytes at its four indices, and every other byte as before. -/
theorem readByte_putBufWord {m : Memory} {k : Nat} (hk : k < 96) (hm : m.wf = true) (w : Word) (b : Nat) :
    readByte (putBufWord m k w) b = if b / 4 = k then byteOfWord w (b % 4) else readByte m b := by
  rw [putBufWord, readByte_writeBytes (by simp; omega) hm, List.length_map, List.length_range]
  by_cases hb : b / 4 = k
  · have hi : b - 4 * k = b % 4 := by omega
    rw [if_pos hb, if_pos (by omega), hi]
    simp [List.getD_eq_getElem?_getD, Nat.mod_lt b (show 0 < 4 by decide)]
  · rw [if_neg hb, if_neg (by omega)]

theorem packWord_putBufWord {m : Memory} {k : Nat} (hk : k < 96) (hm : m.wf = true) (w : Word) :
    packWord (readByte (putBufWord m k w)) k = w :=
  packWord_eq fun i hi => by
    rw [readByte_putBufWord hk hm, if_pos (by omega), Nat.mul_add_mod, Nat.mod_eq_of_lt hi]

theorem seedAt_tabulate {n : Nat} (f : Nat → Byte) {b : Nat} (hb : b < n) : seedAt (tabulate n f) b = f b := by
  simp [seedAt, tabulate, Vector.toList, hb]

/-- A seed after a word was written, as `readByte_putBufWord` for BUF. -/
theorem seedAt_putSeedWord (v : Seed32) (k : Nat) (w : Word) {b : Nat} (hb : b < 32) :
    seedAt (putSeedWord v k w) b = if b / 4 = k then byteOfWord w (b % 4) else seedAt v b :=
  seedAt_tabulate _ hb

theorem packWord_putSeedWord (v : Seed32) {k : Nat} (hk : k < 8) (w : Word) :
    packWord (seedAt (putSeedWord v k w)) k = w :=
  packWord_eq fun i hi => by
    rw [seedAt_putSeedWord v k w (by omega), if_pos (by omega), Nat.mul_add_mod, Nat.mod_eq_of_lt hi]

/-! ### Accesses that R72 does not refuse -/

theorem perform_write_allowed {bits off : Nat} {l : Loc} (h : target bits off = some l) {s : State}
    (hok : s.busy = false ∨ busyRefusesWrite l = false) (w : Word) :
    perform (.write bits off w) s = .next (s.writeLoc w l) := by
  have hno : (s.busy && busyRefusesWrite l) = false := Bool.and_eq_false_iff.mpr hok
  rw [perform_write h, hno]
  rfl

theorem perform_read_allowed {bits off : Nat} {l : Loc} (h : target bits off = some l) {s : State}
    (hok : s.busy = false ∨ busyRefusesRead l = false) {v : Word} (hv : s.readLoc l = v) :
    perform (.read bits off) s = .next { s with rdata := v } := by
  have hno : (s.busy && busyRefusesRead l) = false := Bool.and_eq_false_iff.mpr hok
  rw [perform_read h, hno, hv]
  rfl

/-- Settles O13: the write stores by `readByte_putBufWord`, and a read packs what stands there. -/
theorem bufferWindow : Obligations.BufferWindow := by
  unfold Obligations.BufferWindow
  intro s k w hidle hwf hk
  have ht : target 32 (0x400 + 4 * k) = some (.buf k) := target_of_locate (by omega) (locate_buf k hk)
  refine ⟨⟨_, perform_write_allowed ht (.inl hidle) w, rfl, wf_putBufWord hk hwf, fun b => ?_,
      perform_read_allowed (s := s.writeLoc w (.buf k)) ht (.inl hidle) (packWord_putBufWord hk hwf w)⟩,
    _, perform_read_allowed ht (.inl hidle) rfl, rfl, fun b hb => bitField_packWord _ hb⟩
  rw [← byteOfWord_toNat, ← apply_ite BitVec.toNat]
  exact congrArg BitVec.toNat (readByte_putBufWord hk hwf w b)

/-- A seed's byte after a word was written, as a number. -/
theorem seedAt_putSeedWord_toNat (v : Seed32) (k : Nat) (w : Word) {b : Nat} (hb : b < 32) :
    (seedAt (putSeedWord v k w) b).toNat =
      if b / 4 = k then bitField w (8 * (b % 4)) 8 else (seedAt v b).toNat := by
  rw [seedAt_putSeedWord v k w hb, ← byteOfWord_toNat]
  exact apply_ite BitVec.toNat _ _ _

/-- Settles O14: as the BUF window, for RHO and for SIG. -/
theorem seedWindows : Obligations.SeedWindows := by
  unfold Obligations.SeedWindows
  intro s k w hidle hk
  have hrho : target 32 (0x20 + 4 * k) = some (.seedRho k) :=
    target_of_locate (by omega) (locate_seedRho k hk)
  have hsig : target 32 (0x40 + 4 * k) = some (.seedPrf k) :=
    target_of_locate (by omega) (locate_seedPrf k hk)
  exact ⟨⟨_, perform_write_allowed hrho (.inl hidle) w, rfl, fun b hb => seedAt_putSeedWord_toNat s.rho k w hb,
      perform_read_allowed (s := s.writeLoc w (.seedRho k)) hrho (.inl hidle) (packWord_putSeedWord s.rho hk w)⟩,
    _, perform_write_allowed hsig (.inl hidle) w, rfl, fun b hb => seedAt_putSeedWord_toNat s.sig k w hb,
    perform_read_allowed (s := s.writeLoc w (.seedPrf k)) hsig (.inl hidle) (packWord_putSeedWord s.sig hk w)⟩

end Sys2Proof.Machine
end

section
/-!
PROOFS. Who writes a polynomial register and who reads it (spec/10_state.md R25).
-/

namespace Sys2Proof.Machine

/-! ### Writers -/

/-- A host read leaves every register as it was. -/
theorem hostRead_poly (s : State) (bits off : Nat) (p : PReg) : (s.hostRead bits off).poly p = s.poly p := by
  rcases hostRead_cases s bits off with ⟨-, he⟩ | ⟨l, -, -, -, he⟩ | ⟨l, -, -, he⟩ <;> rw [he] <;> rfl

/-- Of what a host write can do to a location, only a coefficient below 3329 and a reset reach a register. -/
theorem writeLoc_poly_ne {s : State} {w : Word} {l : Loc} {p : PReg} (h : (s.writeLoc w l).poly p ≠ s.poly p) :
    (∃ j, l = .poly p j ∧ w.toNat < 3329) ∨ (l = .ctrl ∧ w.getLsbD 0 = true) := by
  cases l with
  | poly q j =>
    change (s.writeCoef q j w).poly p ≠ _ at h
    rcases writeCoef_cases s q j w with ⟨hw, he⟩ | ⟨-, he⟩ <;> rw [he] at h
    · have hq : p = q := by
        by_contra hne
        exact h (setPoly_poly_ne s q p _ hne)
      exact .inl ⟨j, hq ▸ rfl, hw⟩
    · exact absurd rfl h
  | ctrl =>
    change (s.writeCtrl w).poly p ≠ _ at h
    rcases writeCtrl_cases s w with ⟨hw, -⟩ | ⟨-, -, -, he⟩ | ⟨-, -, he⟩
    · exact .inr ⟨rfl, hw⟩
    · exact absurd (by rw [he]; rfl) h
    · exact absurd (by rw [he]) h
  | cmd =>
    change (s.issue w).poly p ≠ _ at h
    rcases issue_cases s w with ⟨i, -, -, he⟩ | ⟨e, -, he⟩ <;> exact absurd (by rw [he]; rfl) h
  | status => exact absurd (poly_congr (writeStatus_P s w) p) h
  | _ => exact absurd rfl h

/-- A host write that changes a register stores to its window while idle, or resets. -/
theorem hostWrite_poly_ne {s : State} {bits off : Nat} {w : Word} {p : PReg}
    (h : (s.hostWrite bits off w).poly p ≠ s.poly p) :
    bits = 32 ∧ ((∃ j, j < 256 ∧ off = 0x1000 + 0x400 * p.val + 4 * j ∧ s.busy = false ∧ w.toNat < 3329) ∨
      (off = 0x04 ∧ w.getLsbD 0 = true)) := by
  rcases hostWrite_cases s bits off w with ⟨-, he⟩ | ⟨l, -, -, -, he⟩ | ⟨l, ht, hok, he⟩ <;> rw [he] at h
  · exact absurd rfl h
  · exact absurd rfl h
  · obtain ⟨hbits, hoff⟩ := target_offset ht
    refine ⟨hbits, ?_⟩
    rcases writeLoc_poly_ne h with ⟨j, rfl, hw⟩ | ⟨rfl, hw⟩
    · exact .inl ⟨j, target_inRange ht, hoff, hok.resolve_right nofun, hw⟩
    · exact .inr ⟨hoff, hw⟩

/-- Settles O34: an event that changes a register is the completion of a command whose PD it is, or one of the
host writes of `hostWrite_poly_ne`, or a power-on reset. -/
theorem onlyItsWritersChangeRegister : Obligations.OnlyItsWritersChangeRegister := by
  unfold Obligations.OnlyItsWritersChangeRegister
  intro s t p hstep hne
  rcases step_cases hstep with ⟨-, rfl⟩ | ⟨e, rest, ha, he⟩
  · exact absurd rfl hne
  refine ⟨e, rest, ha, ?_⟩
  rcases perform_cases he with ⟨bits, off, -, -, rfl⟩ | ⟨bits, off, w, rfl, -, rfl⟩ | ⟨n, -, -, rfl⟩ |
    ⟨n, i, rfl, hp, hx⟩ | ⟨rfl, -⟩
  · exact absurd (hostRead_poly _ bits off p) hne
  · obtain ⟨rfl, ⟨j, hj, rfl, hidle, hw⟩ | ⟨rfl, hw⟩⟩ := hostWrite_poly_ne hne
    · exact .inr (.inl ⟨j, w, hj, rfl, hidle, hw⟩)
    · exact .inr (.inr (.inr ⟨w, rfl, hw⟩))
  · exact absurd rfl hne
  · refine .inl ⟨n, i, rfl, hp, ?_⟩
    by_contra hd
    exact hne (exec_poly_of_ne_dest hx hd)
  · exact .inr (.inr (.inl rfl))

/-! ### Readers -/

/-- A value committed over a replaced register: the replacement is gone. -/
theorem commitPoly_setPoly_self (s : State) (p : PReg) (v x : PolyVal) :
    (s.setPoly p v).commitPoly p x = s.commitPoly p x := by
  simp [State.commitPoly, State.setPoly, State.complete]

/-- A value committed to another register: the replacement stays. -/
theorem commitPoly_setPoly_ne (s : State) {p pd : PReg} (h : pd ≠ p) (v x : PolyVal) :
    (s.setPoly p v).commitPoly pd x = (s.commitPoly pd x).setPoly p v := by
  have hne : p.val ≠ pd.val := fun e => h (Fin.ext e.symm)
  simp [State.commitPoly, State.setPoly, State.complete, Vector.set_comm _ _ hne]

theorem advanceCounter_of_eq {s : State} (h : s.counter = 255) :
    s.advanceCounter = { s with ctrExh := true } := if_pos h

theorem advanceCounter_of_ne {s : State} (h : s.counter ≠ 255) :
    s.advanceCounter = { s with counter := s.counter + 1 } := if_neg h

/-- What a SAMPLE_CBD does to COUNTER does not depend on the registers. -/
theorem advanceCounter_setPoly (s : State) (p : PReg) (v : PolyVal) :
    (s.setPoly p v).advanceCounter = s.advanceCounter.setPoly p v := by
  by_cases hc : s.counter = 255
  · rw [advanceCounter_of_eq hc, advanceCounter_of_eq (s := s.setPoly p v) hc]
    rfl
  · rw [advanceCounter_of_ne hc, advanceCounter_of_ne (s := s.setPoly p v) hc]
    rfl

section
variable {s : State} {pd : PReg} {b32 b33 : Byte}

theorem exec_sampleNtt_of_some {a : List Coef} {k : Nat}
    (h : sampleNtt (s.xofStream (xofInput s.rho b32 b33)) s.xofReady = some (a, k)) :
    exec (.sampleNtt pd b32 b33) s = .next (s.commitSample pd a k) := by
  simp only [exec, execSampleNtt, h]

theorem exec_sampleNtt_of_none (h : sampleNtt (s.xofStream (xofInput s.rho b32 b33)) s.xofReady = none) :
    exec (.sampleNtt pd b32 b33) s = .next s := by
  simp only [exec, execSampleNtt, h]

end

/-- A turn on command `i` does not depend on what register `p` holds: with `p` set to `v` beforehand it does the
same where it writes `p`, and otherwise the same with `p` still at `v`. -/
def Ignores (i : Instr) (s : State) (p : PReg) (v : PolyVal) : Prop :=
  ∃ t, exec i s = .next t ∧
    ((dest i = some p ∧ s.Completes i) ∧ exec i (s.setPoly p v) = .next t ∨
      ¬ (dest i = some p ∧ s.Completes i) ∧ exec i (s.setPoly p v) = .next (t.setPoly p v))

namespace Ignores

variable {i : Instr} {s : State} {p : PReg} {v : PolyVal}

/-- A completion that commits the same value to PD either way. -/
theorem of_commit (pd : PReg) (x : PolyVal) (u : State) (hd : dest i = some pd) (hc : s.Completes i)
    (he : exec i s = .next (u.commitPoly pd x))
    (he' : exec i (s.setPoly p v) = .next ((u.setPoly p v).commitPoly pd x)) : Ignores i s p v := by
  refine ⟨_, he, ?_⟩
  by_cases hp : pd = p
  · subst hp
    exact .inl ⟨⟨hd, hc⟩, by rw [he', commitPoly_setPoly_self]⟩
  · exact .inr ⟨fun h => hp (Option.some.inj (hd.symm.trans h.1)), by rw [he', commitPoly_setPoly_ne u hp]⟩

/-- A command that does nothing but commit a value: it suffices that the value is the same. -/
theorem of_value (pd : PReg) (f : State → PolyVal) (hd : dest i = some pd)
    (hn : ∀ pd b32 b33, i ≠ .sampleNtt pd b32 b33) (he : ∀ s, exec i s = .next (s.commitPoly pd (f s)))
    (hf : f (s.setPoly p v) = f s) : Ignores i s p v :=
  of_commit pd (f s) s hd (completes_of_ne s hn) (he s) (by rw [he, hf])

/-- A turn that writes no register. -/
theorem of_no_write (u : State) (hd : dest i = none ∨ ¬ s.Completes i) (he : exec i s = .next u)
    (he' : exec i (s.setPoly p v) = .next (u.setPoly p v)) : Ignores i s p v :=
  ⟨u, he, .inr ⟨fun ⟨h, hc⟩ => hd.elim (fun hn => by rw [hn] at h; cases h) (· hc), he'⟩⟩

/-- A SAMPLE_NTT reads RHO and its stream, and no register (spec/42_sampler.md R182). -/
theorem of_sampleNtt (pd : PReg) (b32 b33 : Byte) : Ignores (.sampleNtt pd b32 b33) s p v := by
  rcases execSampleNtt_cases s pd b32 b33 with ⟨hc, k, hk, -, h1, h2, he⟩ | ⟨hc, he⟩
  · exact of_commit pd _ { s with xofBytes := saturate32 (3 * k) } rfl hc he
      (exec_sampleNtt_of_some (s := s.setPoly p v) (sampleNtt_eq_some _ hk h1 h2))
  · have hlt := Nat.lt_of_not_le fun hle => hc fun _ _ _ hi => by cases hi; exact hle
    exact of_no_write s (.inr hc) he (exec_sampleNtt_of_none (s := s.setPoly p v) (sampleNtt_eq_none _ hlt))

/-- A command ignores every register that is not among its sources (spec/10_state.md R25). -/
theorem of_not_source (hp : p ∉ sources i) : Ignores i s p v := by
  have same : ∀ q ∈ sources i, (s.setPoly p v).poly q = s.poly q := fun q hq =>
    setPoly_poly_ne s p q v fun e => hp (e ▸ hq)
  cases i with
  | nop => exact of_no_write s.complete (.inl rfl) rfl rfl
  | ntt pd pa =>
    exact of_value pd (fun s => ntt (s.poly pa)) rfl nofun (fun _ => rfl)
      (congrArg ntt (same pa (.head _)))
  | intt pd pa =>
    exact of_value pd (fun s => nttInv (s.poly pa)) rfl nofun (fun _ => rfl)
      (congrArg nttInv (same pa (.head _)))
  | pmul pd pa pb =>
    exact of_value pd (fun s => multiplyNtts (s.poly pa) (s.poly pb)) rfl nofun (fun _ => rfl)
      (congrArg₂ multiplyNtts (same pa (.head _)) (same pb (.tail _ (.head _))))
  | pmac pd pa pb =>
    exact of_value pd (fun s => polyAdd (s.poly pd) (multiplyNtts (s.poly pa) (s.poly pb))) rfl nofun
      (fun _ => rfl) (congrArg₂ polyAdd (same pd (.head _))
        (congrArg₂ multiplyNtts (same pa (.tail _ (.head _))) (same pb (.tail _ (.tail _ (.head _))))))
  | padd pd pa pb =>
    exact of_value pd (fun s => polyAdd (s.poly pa) (s.poly pb)) rfl nofun (fun _ => rfl)
      (congrArg₂ polyAdd (same pa (.head _)) (same pb (.tail _ (.head _))))
  | psub pd pa pb =>
    exact of_value pd (fun s => polySub (s.poly pa) (s.poly pb)) rfl nofun (fun _ => rfl)
      (congrArg₂ polySub (same pa (.head _)) (same pb (.tail _ (.head _))))
  | pcopy pd pa => exact of_value pd (fun s => s.poly pa) rfl nofun (fun _ => rfl) (same pa (.head _))
  | pzero pd => exact of_value pd (fun _ => polyZero) rfl nofun (fun _ => rfl) rfl
  | compress pd pa d =>
    exact of_value pd (fun s => polyCompress (widthOf d) (s.poly pa)) rfl nofun (fun _ => rfl)
      (congrArg (polyCompress (widthOf d)) (same pa (.head _)))
  | decompress pd pa d =>
    exact of_value pd (fun s => polyDecompress (widthOf d) (s.poly pa)) rfl nofun (fun _ => rfl)
      (congrArg (polyDecompress (widthOf d)) (same pa (.head _)))
  | encode pa d =>
    refine of_no_write _ (.inl rfl) rfl ?_
    rw [exec, execEncode, same pa (.head _)]
    rfl
  | decode pd d =>
    exact of_value pd (fun s => byteDecode (widthOf d) (readBytes s.buf (32 * widthOf d))) rfl nofun
      (fun _ => rfl) rfl
  | sampleNtt pd b32 b33 => exact of_sampleNtt pd b32 b33
  | sampleCbd pd eta =>
    exact of_commit pd _ s.advanceCounter rfl (completes_of_ne s nofun) rfl
      (by rw [← advanceCounter_setPoly]; rfl)

end Ignores

/-- Settles O35: a command ignores a register it does not name as a source. -/
theorem onlyItsReadersDependOnRegister : Obligations.OnlyItsReadersDependOnRegister := by
  unfold Obligations.OnlyItsReadersDependOnRegister
  intro i s t p v hp h
  obtain ⟨u, hu, hcases⟩ := Ignores.of_not_source (v := v) (s := s) hp
  obtain rfl := Host.Outcome.next.inj (hu.symm.trans h)
  rcases hcases with ⟨hw, he⟩ | ⟨hw, he⟩
  · exact ⟨u, he, rfl, fun _ _ => rfl, fun _ => rfl, fun hn => absurd hw hn⟩
  · exact ⟨u.setPoly p v, he, rfl, fun r hr => setPoly_poly_ne u p r v hr, fun hy => absurd hy hw,
      fun _ => setPoly_poly_self u p v⟩

end Sys2Proof.Machine
end

section
/-!
PROOFS. Reset, and the control and status registers as their own rules give them (spec/10_state.md R28 to R33, R42,
R48).
-/

namespace Sys2Proof.Machine

/-! ### Reset -/

theorem seedAt_eq_getElem {n : Nat} (v : Vector Byte n) {b : Nat} (hb : b < n) : seedAt v b = v[b] := by
  simp [seedAt, hb]

/-- A reset leaves every field of R21 at the value R48 gives. -/
theorem resetBlock_atReset (s : State) : s.resetBlock.AtReset where
  regs p j hj := by
    have hpoly : s.resetBlock.poly p = Vector.replicate 256 0 := Vector.getElem_replicate p.isLt
    rw [hpoly, coefAt_lt _ j hj]
    exact Vector.getElem_replicate hj
  buf b _ := rfl
  seeds b hb := by
    have hseed : seedAt (Vector.replicate 32 0) b = 0 := by
      rw [seedAt_eq_getElem _ hb]
      exact Vector.getElem_replicate hb
    exact ⟨hseed, hseed⟩
  counter := rfl
  status := ⟨rfl, rfl, rfl, rfl⟩
  errcode := rfl
  irqEn := ⟨rfl, rfl⟩
  lastCmd := rfl
  xofBytes := rfl
  pending := rfl
  irq := rfl

/-- SRST acts alone, busy or not (spec/70_reset_and_hazards.md R292). -/
theorem writeCtrl_of_srst (s : State) {w : Word} (h : w.getLsbD 0 = true) : s.writeCtrl w = s.resetBlock :=
  if_pos h

/-- Settles O6: both resets answer `State.resetBlock`, and `State.reset` is what a reset of it answers. -/
theorem resetRestoresEveryField : Obligations.ResetRestoresEveryField := by
  unfold Obligations.ResetRestoresEveryField
  refine ⟨resetBlock_atReset State.reset, fun s w hw => ⟨s.resetBlock, rfl, ?_, resetBlock_atReset s, rfl, rfl,
    fun _ _ => ⟨rfl, rfl⟩⟩⟩
  rw [← writeCtrl_of_srst s hw, perform_write_allowed target_ctrl (.inr rfl)]
  rfl

/-! ### Control and status registers -/

/-- STATUS as a number (spec/10_state.md R29). -/
theorem statusWord_eq (s : State) : s.statusWord =
    BitVec.ofNat 32 (s.busy.toNat + 2 * s.done.toNat + 4 * s.err.toNat + 8 * s.ctrExh.toNat) := by
  unfold State.statusWord
  generalize s.busy = b, s.done = d, s.err = e, s.ctrExh = c
  revert b d e c
  decide

/-- What a STATUS write leaves (spec/10_state.md R29, R30). -/
theorem writeStatus_eq (s : State) (w : Word) : s.writeStatus w = { s with
    done := s.done && !w.getLsbD 1
    err := s.err && !w.getLsbD 2
    errcode := if w.getLsbD 2 then 0 else s.errcode } := by
  unfold State.writeStatus
  cases w.getLsbD 1 <;> cases w.getLsbD 2 <;> simp [State.clearDone, State.clearErr]

/-- Settles O17: the read by `statusWord_eq`, the write by `writeStatus_eq`; R72 refuses neither. -/
theorem statusWriteOneToClear : Obligations.StatusWriteOneToClear := by
  unfold Obligations.StatusWriteOneToClear
  intro s w
  rw [perform_write_allowed target_status (.inr rfl), ← writeStatus_eq]
  exact ⟨perform_read_allowed target_status (.inr rfl) (statusWord_eq s), rfl⟩

/-- IRQ_EN as a number (spec/10_state.md R31). -/
theorem irqEnWord_eq (s : State) : s.irqEnWord = BitVec.ofNat 32 (s.ieDone.toNat + 2 * s.ieErr.toNat) := by
  unfold State.irqEnWord
  generalize s.ieDone = d, s.ieErr = e
  revert d e
  decide

theorem irq_eq_true_iff (s : State) :
    s.irq = true ↔ (s.done = true ∧ s.ieDone = true) ∨ (s.err = true ∧ s.ieErr = true) := by
  simp [State.irq]

/-- Settles O18: IRQ falls because the write of 1 to both cause bits leaves DONE and ERR at 0. -/
theorem interruptLevel : Obligations.InterruptLevel := by
  unfold Obligations.InterruptLevel
  refine ⟨rfl, fun s w => ⟨irq_eq_true_iff s, perform_read_allowed target_irqEn (.inr rfl) (irqEnWord_eq s),
    perform_write_allowed target_irqEn (.inr rfl) w, _, perform_write_allowed target_status (.inr rfl) _, rfl⟩⟩

/-- COUNTER as a number (spec/10_state.md R33). -/
theorem counterWord_eq (s : State) : s.counterWord = BitVec.ofNat 32 s.counter.toNat :=
  (BitVec.ofNat_toNat 32 s.counter).symm

/-- The byte a COUNTER write stores, as a number (spec/10_state.md R33). -/
theorem extractLsb'_zero_eight (w : Word) : w.extractLsb' 0 8 = BitVec.ofNat 8 (w.toNat % 256) := by
  apply BitVec.eq_of_toNat_eq
  simp [BitVec.extractLsb'_toNat]

theorem writeCounter_eq (s : State) (w : Word) :
    s.writeCounter w = { s with counter := BitVec.ofNat 8 (w.toNat % 256), ctrExh := false } := by
  rw [State.writeCounter, extractLsb'_zero_eight]

/-- Settles O19: the read and the write of COUNTER, as numbers. -/
theorem counterRegister : Obligations.CounterRegister := by
  unfold Obligations.CounterRegister
  intro s w hidle
  rw [perform_write_allowed target_counter (.inl hidle), ← writeCounter_eq]
  exact ⟨perform_read_allowed target_counter (.inl hidle) (counterWord_eq s), rfl⟩

end Sys2Proof.Machine
end

section
/-!
PROOFS. Host accesses by offset (spec/20_memory.md R60 to R73): which offsets reach a location, which of these a busy
block refuses, and what an access of each kind does. Each of R65 to R73 then follows from these.
-/

namespace Sys2Proof.Machine

/-! ### Which offsets reach a location -/

/-- Inside the aperture an aligned offset is mapped exactly when R61 does not mark it unmapped. -/
theorem locate_isSome_iff {off : Nat} (hoff : off < 0x4000) (ha : off % 4 = 0) :
    (locate off).isSome = true ↔ ¬ unmapped off := by
  simp only [locate, Option.isSome_map, List.find?_isSome, addressMap, Region.holds, decide_eq_true_eq,
    List.mem_cons, List.not_mem_nil, or_false, exists_eq_or_imp, exists_eq_left]
  omega

theorem exists_target {off : Nat} (hoff : off < 0x4000) (ha : off % 4 = 0) (hm : ¬ unmapped off) :
    ∃ l, target 32 off = some l := by
  obtain ⟨l, hl⟩ := Option.isSome_iff_exists.mp ((locate_isSome_iff hoff ha).mpr hm)
  exact ⟨l, target_of_locate ha hl⟩

theorem target_of_misaligned {bits off : Nat} (h : bits ≠ 32 ∨ off % 4 ≠ 0) : target bits off = none :=
  if_neg (by omega)

theorem target_of_unmapped {off : Nat} (ha : off % 4 = 0) (hu : unmapped off) : target 32 off = none := by
  have hnot : ¬ (locate off).isSome = true := fun h => (locate_isSome_iff (by omega) ha).mp h hu
  rw [target, if_pos ⟨rfl, ha⟩]
  simpa using hnot

/-! ### Locations by offset -/

section
variable {bits off : Nat} {l : Loc} (h : target bits off = some l)
include h

/-- The reads a busy block refuses are those of the windows (R72). -/
theorem busyRefusesRead_iff : busyRefusesRead l = true ↔ inWindow off := by
  obtain ⟨-, rfl⟩ := target_offset h
  have hl := target_inRange h
  cases l <;> simp only [Loc.offset, Loc.inRange, busyRefusesRead, Bool.false_eq_true, false_iff,
    true_iff] at hl ⊢ <;> omega

/-- The writes a busy block refuses are those of the windows, CMD and COUNTER (R72). -/
theorem busyRefusesWrite_iff : busyRefusesWrite l = true ↔ inWindow off ∨ off = 0x14 ∨ off = 0x18 := by
  obtain ⟨-, rfl⟩ := target_offset h
  have hl := target_inRange h
  cases l <;> simp only [Loc.offset, Loc.inRange, busyRefusesWrite, Bool.false_eq_true, false_iff, true_iff,
    true_or, or_true] at hl ⊢ <;> omega

/-- A write to ID, ERRCODE, XOF_BYTES, ZETA or GAMMA is a bad access (R68). -/
theorem writeLoc_of_readOnly (hro : off = 0x00 ∨ off = 0x0C ∨ off = 0x1C ∨ (0x600 ≤ off ∧ off ≤ 0x9FC))
    (s : State) (w : Word) : s.writeLoc w l = s.raise .badAccess := by
  obtain ⟨-, rfl⟩ := target_offset h
  have hl := target_inRange h
  cases l with
  | id | errcode | xofBytes | zeta i | gamma i => rfl
  | _ => simp only [Loc.offset, Loc.inRange] at hl hro; omega

/-! ### Refused accesses -/

theorem perform_write_refused {s : State} (hbusy : s.busy = true) (hr : busyRefusesWrite l = true) (w : Word) :
    perform (.write bits off w) s = .next (s.raise .busyAccess) := by
  rw [perform_write h, hbusy, hr]
  rfl

theorem perform_read_refused {s : State} (hbusy : s.busy = true) (hr : busyRefusesRead l = true) :
    perform (.read bits off) s = .next (s.failRead .busyAccess) := by
  rw [perform_read h, hbusy, hr]
  rfl

/-- Two words that a location takes alike are written alike. -/
theorem perform_write_congr {s : State} {w w' : Word} (hw : s.writeLoc w l = s.writeLoc w' l) :
    perform (.write bits off w) s = perform (.write bits off w') s := by
  rw [perform_write h, perform_write h, hw]

end

theorem perform_write_bad {bits off : Nat} (hoff : off < 0x4000) (h : target bits off = none) (s : State)
    (w : Word) : perform (.write bits off w) s = .next (s.raise .badAccess) := by
  simp only [perform, hostEvent, apertureBytes, if_pos hoff, State.hostWrite, h]

theorem perform_read_bad {bits off : Nat} (hoff : off < 0x4000) (h : target bits off = none) (s : State) :
    perform (.read bits off) s = .next (s.failRead .badAccess) := by
  simp only [perform, hostEvent, apertureBytes, if_pos hoff, State.hostRead, h]

theorem hostEvent_of_le {off : Nat} (h : 0x4000 ≤ off) (s : State) : hostEvent off s = .fault .outsideAperture :=
  if_neg (Nat.not_lt.mpr h)

/-! ### The aperture -/

/-- Settles O7: an access of another width or alignment reaches no location. -/
theorem badAccessHasNoEffect : Obligations.BadAccessHasNoEffect := by
  unfold Obligations.BadAccessHasNoEffect
  intro s bits off w hoff h
  exact ⟨perform_write_bad hoff (target_of_misaligned h) s w, perform_read_bad hoff (target_of_misaligned h) s⟩

/-- Settles O8: an access to an unmapped offset reaches no location. -/
theorem unmappedOffsetsAreBadAccesses : Obligations.UnmappedOffsetsAreBadAccesses := by
  unfold Obligations.UnmappedOffsetsAreBadAccesses
  intro s off w ha hu
  have hoff : off < 0x4000 := by omega
  have ht := target_of_unmapped ha hu
  exact ⟨perform_write_bad hoff ht s w, perform_read_bad hoff ht s⟩

/-- Settles O9: a location names its own offset (`target_offset`), so no two offsets reach one location. -/
theorem apertureIsCoveredWithoutAliasing : Obligations.ApertureIsCoveredWithoutAliasing := by
  unfold Obligations.ApertureIsCoveredWithoutAliasing
  refine ⟨fun off => locate_isSome_iff, fun off off' l ha ha' h h' => ?_,
    fun s bits off w hoff => ⟨hostEvent_of_le hoff _, hostEvent_of_le hoff _⟩⟩
  have hoff := (target_offset (target_of_locate ha h)).2
  have hoff' := (target_offset (target_of_locate ha' h')).2
  exact hoff.trans hoff'.symm

/-- Settles O10: the writes by `writeLoc_of_readOnly`; R72 refuses none of these accesses, the windows being idle. -/
theorem readOnlyLocations : Obligations.ReadOnlyLocations := by
  unfold Obligations.ReadOnlyLocations
  refine fun s => ⟨fun off w ha hoff => ?_, perform_read_allowed target_id (.inr rfl) rfl,
    perform_read_allowed target_errcode (.inr rfl) (BitVec.ofNat_toNat 32 s.errcode).symm,
    perform_read_allowed target_xofBytes (.inr rfl) rfl, fun i hi hidle => ⟨?_, ?_⟩⟩
  · obtain ⟨l, ht⟩ := exists_target (off := off) (by omega) ha (by omega)
    have hok : s.busy = false ∨ busyRefusesWrite l = false := by
      cases hb : s.busy with
      | false => exact .inl rfl
      | true =>
        simp only [hb, Bool.true_eq_false, false_and, or_false] at hoff
        exact .inr (Bool.eq_false_iff.mpr fun hr => by have := (busyRefusesWrite_iff ht).mp hr; omega)
    rw [perform_write_allowed ht hok, writeLoc_of_readOnly ht (by omega)]
    rfl
  · exact perform_read_allowed (target_of_locate (by omega) (locate_zeta i hi)) (.inl hidle) rfl
  · exact perform_read_allowed (target_of_locate (by omega) (locate_gamma i hi)) (.inl hidle) rfl

/-- Settles O11: the accesses refused are those of `busyRefusesRead_iff` and `busyRefusesWrite_iff`. -/
theorem accessWhileBusy : Obligations.AccessWhileBusy := by
  unfold Obligations.AccessWhileBusy
  refine fun s w => ⟨perform_read_allowed target_cmd (.inr rfl) rfl,
    perform_read_allowed target_ctrl (.inr rfl) rfl, fun hbusy => ⟨fun off l ha hoff hl => ?_, counterWord_eq s,
    perform_write_allowed target_ctrl (.inr rfl) w, perform_write_allowed target_status (.inr rfl) w,
    perform_write_allowed target_irqEn (.inr rfl) w, fun off ha hoff => ?_, fun off ha hoff => ?_,
    fun off hoff => ?_⟩⟩
  · have ht := target_of_locate ha hl
    have hok : busyRefusesRead l = false :=
      Bool.eq_false_iff.mpr fun hr => by have := (busyRefusesRead_iff ht).mp hr; omega
    exact perform_read_allowed ht (.inr hok) rfl
  · obtain ⟨l, ht⟩ := exists_target (off := off) (by omega) ha (by omega)
    exact perform_read_refused ht hbusy ((busyRefusesRead_iff ht).mpr hoff)
  · obtain ⟨l, ht⟩ := exists_target (off := off) (by omega) ha (by omega)
    exact perform_write_refused ht hbusy ((busyRefusesWrite_iff ht).mpr hoff) w
  · rcases hoff with rfl | rfl | rfl
    · exact perform_write_allowed target_id (.inr rfl) w
    · exact perform_write_allowed target_errcode (.inr rfl) w
    · exact perform_write_allowed target_xofBytes (.inr rfl) w

/-- Settles O12: of a coefficient write that is kept, `setPoly_poly_ne` and `coefAt_putCoef_ne` give the frame. -/
theorem polynomialWindow : Obligations.PolynomialWindow := by
  unfold Obligations.PolynomialWindow
  intro s p j w hidle hj
  have ht : target 32 (0x1000 + 0x400 * p.val + 4 * j) = some (.poly p j) :=
    target_of_locate (by omega) (locate_poly p j hj)
  rw [perform_write_allowed ht (.inl hidle)]
  refine ⟨fun hw => ⟨s.setPoly p (putCoef (s.poly p) j (reduceNat w.toNat)), ?_, rfl, ?_,
    fun r => setPoly_poly_ne s p r _, fun k hk => ?_⟩, fun hw => ?_, perform_read_allowed ht (.inl hidle) rfl⟩
  · exact congrArg Host.Outcome.next (if_pos hw)
  · rw [setPoly_poly_self, coefAt_putCoef_self _ j _ hj, reduceNat_eq_of_lt _ hw]
  · rw [setPoly_poly_self, coefAt_putCoef_ne _ j k _ hk]
  · exact congrArg Host.Outcome.next (if_neg (Nat.not_lt.mpr hw))

/-! ### Reserved bits -/

/-- A CTRL write acts by its bits 0 and 1 alone (R69). -/
theorem writeCtrl_and (s : State) (w : Word) : s.writeCtrl w = s.writeCtrl (w &&& 0x3#32) := by
  simp [State.writeCtrl]

/-- A STATUS write acts by bits 1 and 2 alone, and so ignores the reserved bits (R69). -/
theorem writeStatus_and (s : State) (w : Word) : s.writeStatus w = s.writeStatus (w &&& 0xF#32) := by
  simp [State.writeStatus]

theorem writeIrqEn_and (s : State) (w : Word) : s.writeIrqEn w = s.writeIrqEn (w &&& 0x3#32) := by
  simp [State.writeIrqEn]

theorem writeCounter_and (s : State) (w : Word) : s.writeCounter w = s.writeCounter (w &&& 0xFF#32) := by
  have hmod : (w &&& 0xFF#32).toNat % 256 = w.toNat % 256 := by
    rw [BitVec.toNat_and]
    exact (congrArg (· % 256) (Nat.and_two_pow_sub_one_eq_mod w.toNat 8)).trans (Nat.mod_mod _ _)
  rw [writeCounter_eq, writeCounter_eq, hmod]

/-- STATUS has four defined bits (R29). -/
theorem statusWord_lt (s : State) : s.statusWord.toNat < 16 := by
  have hbusy := s.busy.toNat_le
  have hdone := s.done.toNat_le
  have herr := s.err.toNat_le
  have hexh := s.ctrExh.toNat_le
  rw [statusWord_eq, BitVec.toNat_ofNat]
  omega

/-- IRQ_EN has two defined bits (R31). -/
theorem irqEnWord_lt (s : State) : s.irqEnWord.toNat < 4 := by
  have hdone := s.ieDone.toNat_le
  have herr := s.ieErr.toNat_le
  rw [irqEnWord_eq, BitVec.toNat_ofNat]
  omega

theorem counterWord_lt (s : State) : s.counterWord.toNat < 256 := by
  have hlt := s.counter.isLt
  rw [counterWord_eq, BitVec.toNat_ofNat]
  omega

/-- Settles O15: each write acts by the masked word, and one of reserved bits alone is a write of 0. -/
theorem reservedBits : Obligations.ReservedBits := by
  unfold Obligations.ReservedBits
  intro s w
  have hctrl := perform_write_congr target_ctrl (writeCtrl_and s w)
  have hstatus := perform_write_congr target_status (writeStatus_and s w)
  refine ⟨rfl, statusWord_lt s, irqEnWord_lt s, counterWord_lt s, hctrl, hstatus,
    perform_write_congr target_irqEn (writeIrqEn_and s w),
    perform_write_congr target_counter (writeCounter_and s w), fun hw => ?_, fun hw => ?_,
    ⟨_, perform_write_allowed target_irqEn (.inr rfl) w, rfl, rfl⟩,
    fun hidle => ⟨_, perform_write_allowed target_counter (.inl hidle) w, rfl, rfl⟩⟩
  · rw [hctrl, hw, perform_write_allowed target_ctrl (.inr rfl)]
    rfl
  · rw [hstatus, hw, perform_write_allowed target_status (.inr rfl)]
    rfl

/-! ### Reads -/

/-- What a read returns does not depend on what the last one returned (log 3). -/
theorem readLoc_rdata (s : State) (v : Word) (l : Loc) : { s with rdata := v }.readLoc l = s.readLoc l := by
  cases l <;> rfl

/-- Settles O16: an allowed read changes only what it returned, on which no read depends. -/
theorem readsHaveNoSideEffect : Obligations.ReadsHaveNoSideEffect := by
  unfold Obligations.ReadsHaveNoSideEffect
  intro s off l ha hl hok
  have ht := target_of_locate ha hl
  exact ⟨_, perform_read_allowed ht hok rfl, rfl,
    perform_read_allowed (s := { s with rdata := s.readLoc l }) ht hok (readLoc_rdata s _ l)⟩

/-! ### Accesses to a busy block -/

/-- A host read changes no field but the error record and what it returned. -/
theorem hostRead_writes_only (s : State) (bits off : Nat) :
    ∃ err errcode rdata, s.hostRead bits off = { s with err, errcode, rdata } := by
  rcases hostRead_cases s bits off with ⟨-, he⟩ | ⟨l, -, -, -, he⟩ | ⟨l, -, -, he⟩ <;> exact ⟨_, _, _, he⟩

/-- A write that R72 does not refuse, other than a CTRL write that resets or aborts, changes no field but flags. -/
theorem writeLoc_writes_only {l : Loc} (hl : busyRefusesWrite l = false) (s : State) (w : Word)
    (hctrl : l = .ctrl → s.writeCtrl w = s) :
    ∃ done err errcode ieDone ieErr, s.writeLoc w l = { s with done, err, errcode, ieDone, ieErr } := by
  cases l with
  | ctrl => exact ⟨_, _, _, _, _, hctrl rfl⟩
  | status => exact ⟨_, _, _, _, _, writeStatus_eq s w⟩
  | id | errcode | irqEn | xofBytes => exact ⟨_, _, _, _, _, rfl⟩
  | _ => cases hl

theorem writeCtrl_of_no_command (s : State) {w : Word} (h0 : w.getLsbD 0 = false) (h1 : w.getLsbD 1 = false) :
    s.writeCtrl w = s := by
  simp only [State.writeCtrl, h0, h1, Bool.false_eq_true, false_and, if_false]

/-- A host write to a busy block, other than a CTRL write that resets or aborts, changes no field but flags. -/
theorem hostWrite_writes_only {s : State} (hbusy : s.busy = true) {bits off : Nat} {w : Word}
    (hctrl : bits = 32 → off = 0x04 → w.getLsbD 0 = false ∧ w.getLsbD 1 = false) :
    ∃ done err errcode ieDone ieErr, s.hostWrite bits off w = { s with done, err, errcode, ieDone, ieErr } := by
  rcases hostWrite_cases s bits off w with ⟨-, he⟩ | ⟨l, -, -, -, he⟩ | ⟨l, ht, hok, he⟩
  · exact ⟨_, _, _, _, _, he⟩
  · exact ⟨_, _, _, _, _, he⟩
  · rw [he]
    refine writeLoc_writes_only (hok.resolve_left (by rw [hbusy]; decide)) s w fun hl => ?_
    subst hl
    obtain ⟨hbits, hoff⟩ := target_offset ht
    obtain ⟨h0, h1⟩ := hctrl hbits hoff
    exact writeCtrl_of_no_command s h0 h1

/-- Settles O33: what a busy block lets a host access change is flags and what a read returned. -/
theorem operandsFixedWhileBusy : Obligations.OperandsFixedWhileBusy := by
  unfold Obligations.OperandsFixedWhileBusy
  intro s t e hbusy hengine hreset hctrl h
  rcases perform_cases h with ⟨bits, off, -, -, rfl⟩ | ⟨bits, off, w, rfl, -, rfl⟩ | ⟨n, he, -⟩ |
    ⟨n, i, he, -⟩ | ⟨he, -⟩
  · obtain ⟨_, _, _, he⟩ := hostRead_writes_only s bits off
    rw [he]
    exact ⟨rfl, rfl, rfl, rfl, rfl, rfl, rfl, rfl, rfl, hbusy⟩
  · obtain ⟨_, _, _, _, _, he⟩ := hostWrite_writes_only hbusy (bits := bits) (off := off) (w := w)
      fun hb ho => hctrl w (by rw [hb, ho])
    rw [he]
    exact ⟨rfl, rfl, rfl, rfl, rfl, rfl, rfl, rfl, rfl, hbusy⟩
  · exact absurd he (hengine n)
  · exact absurd he (hengine n)
  · exact absurd he hreset

end Sys2Proof.Machine
end

section
/-!
PROOFS. Internal data movement (spec/20_memory.md R81): which commands depend on BUF, on RHO and on SIG. For the
samplers this rests on what their stream, or their counter, reads; every other command commits a value computed from
the stores it names.
-/

namespace Sys2Proof.Machine

/-! ### The samplers -/

/-- What a SAMPLE_CBD does to COUNTER does not depend on BUF and RHO. -/
theorem advanceCounter_with (s : State) (m : Memory) (v : Seed32) :
    { s with buf := m, rho := v }.advanceCounter = { s.advanceCounter with buf := m, rho := v } := by
  by_cases hc : s.counter = 255
  · rw [advanceCounter_of_eq hc, advanceCounter_of_eq (s := { s with buf := m, rho := v }) hc]
  · rw [advanceCounter_of_ne hc, advanceCounter_of_ne (s := { s with buf := m, rho := v }) hc]

section
variable {s t : State}

/-- SAMPLE_CBD reads SIG, and neither BUF nor RHO (spec/42_sampler.md R188). -/
theorem exec_sampleCbd_with {pd : PReg} {eta : BitVec 4} (h : exec (.sampleCbd pd eta) s = .next t) (m : Memory)
    (v : Seed32) :
    exec (.sampleCbd pd eta) { s with buf := m, rho := v } = .next { t with buf := m, rho := v } := by
  obtain rfl := Host.Outcome.next.inj h
  rw [exec, execSampleCbd, advanceCounter_with]
  rfl

/-- SAMPLE_NTT reads RHO, and neither BUF nor SIG (spec/42_sampler.md R182). -/
theorem exec_sampleNtt_with {pd : PReg} {b32 b33 : Byte} (h : exec (.sampleNtt pd b32 b33) s = .next t)
    (m : Memory) (v : Seed32) :
    exec (.sampleNtt pd b32 b33) { s with buf := m, sig := v } = .next { t with buf := m, sig := v } := by
  cases hs : sampleNtt (s.xofStream (xofInput s.rho b32 b33)) s.xofReady with
  | none =>
    obtain rfl := Host.Outcome.next.inj (h.symm.trans (exec_sampleNtt_of_none hs))
    exact exec_sampleNtt_of_none (s := { t with buf := m, sig := v }) hs
  | some ak =>
    obtain rfl := Host.Outcome.next.inj (h.symm.trans (exec_sampleNtt_of_some hs))
    exact exec_sampleNtt_of_some (s := { s with buf := m, sig := v }) hs

end

/-! ### Every command -/

section
variable {i : Instr} {s t : State} (h : exec i s = .next t)
include h

/-- Only ENCODE and DECODE depend on BUF. -/
theorem exec_with_buf (m : Memory) (he : ∀ pa d, i ≠ .encode pa d) (hd : ∀ pd d, i ≠ .decode pd d) :
    exec i { s with buf := m } = .next { t with buf := m } := by
  cases i with
  | encode pa d => exact absurd rfl (he pa d)
  | decode pd d => exact absurd rfl (hd pd d)
  | sampleNtt pd b32 b33 =>
    obtain ⟨_, _, _, _, _, _, _, _, rfl⟩ := exec_writes_only h
    exact exec_sampleNtt_with h m s.sig
  | sampleCbd pd eta =>
    obtain ⟨_, _, _, _, _, _, _, _, rfl⟩ := exec_writes_only h
    exact exec_sampleCbd_with h m s.rho
  | _ => obtain rfl := Host.Outcome.next.inj h; rfl

/-- Only SAMPLE_NTT depends on RHO. -/
theorem exec_with_rho (v : Seed32) (hn : ∀ pd b32 b33, i ≠ .sampleNtt pd b32 b33) :
    exec i { s with rho := v } = .next { t with rho := v } := by
  cases i with
  | sampleNtt pd b32 b33 => exact absurd rfl (hn pd b32 b33)
  | sampleCbd pd eta =>
    obtain ⟨_, buf, _, _, _, _, _, _, rfl⟩ := exec_writes_only h
    obtain rfl : buf = s.buf := exec_buf_of_not_encode h nofun
    exact exec_sampleCbd_with h s.buf v
  | _ => obtain rfl := Host.Outcome.next.inj h; rfl

/-- Only SAMPLE_CBD depends on SIG. -/
theorem exec_with_sig (v : Seed32) (hn : ∀ pd eta, i ≠ .sampleCbd pd eta) :
    exec i { s with sig := v } = .next { t with sig := v } := by
  cases i with
  | sampleNtt pd b32 b33 =>
    obtain ⟨_, buf, _, _, _, _, _, _, rfl⟩ := exec_writes_only h
    obtain rfl : buf = s.buf := exec_buf_of_not_encode h nofun
    exact exec_sampleNtt_with h s.buf v
  | sampleCbd pd eta => exact absurd rfl (hn pd eta)
  | _ => obtain rfl := Host.Outcome.next.inj h; rfl

end

/-- Settles O36: who writes BUF and the seeds by the frame of a completion, who reads them field by field. -/
theorem internalDataMovement : Obligations.InternalDataMovement := by
  unfold Obligations.InternalDataMovement
  intro i s t h
  have hseeds : t.rho = s.rho ∧ t.sig = s.sig := by
    obtain ⟨_, _, _, _, _, _, _, _, rfl⟩ := exec_writes_only h
    exact ⟨rfl, rfl⟩
  exact ⟨hseeds.1, hseeds.2, exec_buf_of_not_encode h, exec_with_buf h, exec_with_rho h, exec_with_sig h⟩

end Sys2Proof.Machine
end

section
/-!
PROOFS. The encoding (spec/30_encoding.md R91 to R101). Decoding undoes encoding because a field read from an OR of
placed values gives back the one value placed there; encoding undoes decoding because a row's mask and the fields
its format places cover every bit of a word.
-/

namespace Sys2Proof.Machine

open Sys2Proof.Laws

/-! ### Reading a field of a word made of placed values -/

/-- Bit `i` of a placed value. -/
theorem getLsbD_placeAt {m : Nat} (lo : Nat) (x : BitVec m) (i : Nat) :
    (placeAt lo x.toNat).getLsbD i = (decide (i < 32) && decide (lo ≤ i) && x.getLsbD (i - lo)) := by
  rw [placeAt, BitVec.getLsbD_shiftLeft, BitVec.getLsbD_ofNat, ← BitVec.getLsbD, ← decide_not]
  simp only [Nat.not_lt]
  by_cases hi : i < 32
  · simp [hi, show i - lo < 32 by omega]
  · simp [hi]

/-- A field gives back the value placed in it. -/
theorem extractLsb'_placeAt_same {lo n : Nat} (h : lo + n ≤ 32) (x : BitVec n) :
    (placeAt lo x.toNat).extractLsb' lo n = x := by
  ext k hk
  rw [BitVec.getElem_extractLsb', getLsbD_placeAt, decide_eq_true (by omega), decide_eq_true (by omega),
    Nat.add_sub_cancel_left, BitVec.getLsbD_eq_getElem hk]
  rfl

/-- A field holds nothing of a value placed in other bits. -/
theorem extractLsb'_placeAt_disjoint {lo n lo' m : Nat} (h : lo + n ≤ lo' ∨ lo' + m ≤ lo) (x : BitVec m) :
    (placeAt lo' x.toNat).extractLsb' lo n = 0#n := by
  ext k hk
  rw [BitVec.getElem_extractLsb', getLsbD_placeAt, BitVec.getElem_zero]
  rcases h with h | h
  · rw [decide_eq_false (p := lo' ≤ lo + k) (by omega), Bool.and_false, Bool.false_and]
  · rw [BitVec.getLsbD_of_ge x _ (by omega), Bool.and_false]

/-- A row's pattern is an OPC: it holds nothing in the fields above bit 5 (R99). -/
theorem extractLsb'_pattern (o : Op) {lo n : Nat} (h : 6 ≤ lo) : o.pattern.extractLsb' lo n = 0#n := by
  have hlt : o.pattern.toNat < 2 ^ lo :=
    calc o.pattern.toNat < 2 ^ 6 := by cases o <;> decide
      _ ≤ 2 ^ lo := Nat.pow_le_pow_right (by decide) h
  apply BitVec.eq_of_toNat_eq
  simp [BitVec.extractLsb'_toNat, Nat.shiftRight_eq_div_pow, Nat.div_eq_of_lt hlt]

/-- A register number is a 3-bit value (R91). -/
def regBits (p : PReg) : BitVec 3 := BitVec.ofFin p

/-- The register fields hold the register numbers as 3-bit values (R91). -/
theorem regFields_eq_regBits (pd pa pb : PReg) : regFields pd pa pb =
    placeAt 6 (regBits pd).toNat ||| placeAt 9 (regBits pa).toNat ||| placeAt 12 (regBits pb).toNat := rfl

/-! ### Decoding the word of a command -/

theorem encode_selects (i : Instr) : (opOf i).selects (encode i) = true := by
  apply beq_iff_eq.mpr
  cases i with
  | nop => exact EncodesItsRow.nop
  | ntt pd pa => exact EncodesItsRow.ntt pd pa
  | intt pd pa => exact EncodesItsRow.intt pd pa
  | pmul pd pa pb => exact EncodesItsRow.pmul pd pa pb
  | pmac pd pa pb => exact EncodesItsRow.pmac pd pa pb
  | padd pd pa pb => exact EncodesItsRow.padd pd pa pb
  | psub pd pa pb => exact EncodesItsRow.psub pd pa pb
  | pcopy pd pa => exact EncodesItsRow.pcopy pd pa
  | pzero pd => exact EncodesItsRow.pzero pd
  | compress pd pa d => exact EncodesItsRow.compress pd pa d
  | decompress pd pa d => exact EncodesItsRow.decompress pd pa d
  | encode pa d => exact EncodesItsRow.encode pa d
  | decode pd d => exact EncodesItsRow.decode pd d
  | sampleNtt pd b32 b33 => exact EncodesItsRow.sampleNtt pd b32 b33
  | sampleCbd pd eta => exact EncodesItsRow.sampleCbd pd eta

/-- The fields of a command's word are its operands (R92). -/
theorem assemble_encode (i : Instr) : assemble (opOf i) (encode i) = i := by
  cases i <;>
    simp (disch := omega) only [opOf, assemble, encode, fieldPD, fieldPA, fieldPB, fieldW, fieldB32, fieldB33,
      regFields_eq_regBits, BitVec.extractLsb'_or, extractLsb'_pattern, extractLsb'_placeAt_same,
      extractLsb'_placeAt_disjoint, BitVec.zero_or, BitVec.or_zero] <;> rfl

/-- The range check of a row is the well-formedness of the command it gives (R95, R96, R100). -/
theorem wellFormed_assemble (o : Op) (w : Word) :
    (assemble o w).wellFormed = parameterOk o (fieldW w).toNat := by cases o <;> rfl

/-- Settles O2: the word selects its command's row, whose fields are the command's operands. -/
theorem decodeOfEncode : Obligations.DecodeOfEncode := by
  unfold Obligations.DecodeOfEncode
  intro i hi
  rw [decode_of_selects (encode_selects i), ← wellFormed_assemble, assemble_encode, if_pos hi]

/-! ### Encoding what a word decodes to -/

/-- A word that decodes selects a row, and its command has that row's operands. -/
theorem decode_eq_ok {w : Word} {i : Instr} (h : decode w = .ok i) :
    ∃ o : Op, o.selects w = true ∧ assemble o w = i := by
  unfold decode at h
  split at h
  next => cases h
  next o ho =>
    split at h
    next => exact ⟨o, selectRow_eq_some.mp ho, Except.ok.inj h⟩
    next => cases h

/-- A field put back in its place is the word with every other bit cleared. -/
theorem placeAt_extractLsb' (w : Word) {lo n : Nat} (h : lo + n ≤ 32) :
    placeAt lo (w.extractLsb' lo n).toNat = w &&& fieldMask lo n := by
  apply BitVec.eq_of_getLsbD_eq
  intro i hi
  rw [getLsbD_placeAt, BitVec.getLsbD_extractLsb', BitVec.getLsbD_and, getLsbD_fieldMask h, decide_eq_true hi]
  by_cases hlo : lo ≤ i
  · simp [hlo, Nat.add_sub_cancel' hlo, Bool.and_comm, show i - lo < n ↔ i < lo + n by omega]
  · simp [hlo]

theorem placeAt_fieldPD (w : Word) : placeAt 6 (fieldPD w).val = w &&& fieldMask 6 3 :=
  placeAt_extractLsb' w (by decide)

theorem placeAt_fieldPA (w : Word) : placeAt 9 (fieldPA w).val = w &&& fieldMask 9 3 :=
  placeAt_extractLsb' w (by decide)

theorem placeAt_fieldPB (w : Word) : placeAt 12 (fieldPB w).val = w &&& fieldMask 12 3 :=
  placeAt_extractLsb' w (by decide)

theorem placeAt_fieldW (w : Word) : placeAt 15 (fieldW w).toNat = w &&& fieldMask 15 4 :=
  placeAt_extractLsb' w (by decide)

theorem placeAt_fieldB32 (w : Word) : placeAt 15 (fieldB32 w).toNat = w &&& fieldMask 15 8 :=
  placeAt_extractLsb' w (by decide)

theorem placeAt_fieldB33 (w : Word) : placeAt 23 (fieldB33 w).toNat = w &&& fieldMask 23 8 :=
  placeAt_extractLsb' w (by decide)

/-- A register field that a format does not have places nothing. -/
theorem placeAt_reg_zero (lo : Nat) : placeAt lo (0 : PReg).val = 0#32 := placeAt_zero lo

/-- The fields a row's format places are the bits its mask leaves outside (R92, R99). -/
theorem encode_assemble (o : Op) (w : Word) : encode (assemble o w) = o.pattern ||| (w &&& ~~~o.mask) := by
  cases o
  case nop => simp [assemble, encode, Op.mask]
  all_goals
    simp only [assemble, encode, regFields, placeAt_reg_zero, BitVec.or_zero, BitVec.zero_or, placeAt_fieldPD,
      placeAt_fieldPA, placeAt_fieldPB, placeAt_fieldW, placeAt_fieldB32, placeAt_fieldB33, BitVec.or_assoc,
      ← BitVec.and_or_distrib_left]
    rfl

theorem or_and_not_mask {o : Op} {w : Word} (h : o.selects w = true) : o.pattern ||| (w &&& ~~~o.mask) = w := by
  rw [← eq_of_beq h, ← BitVec.and_or_distrib_left, BitVec.or_not_self, BitVec.and_allOnes]

/-- Settles O3: the row's pattern and the word's fields make up the whole word. -/
theorem encodeOfDecode : Obligations.EncodeOfDecode := by
  unfold Obligations.EncodeOfDecode
  intro w i h
  obtain ⟨o, ho, rfl⟩ := decode_eq_ok h
  exact ⟨(encode_assemble o w).trans (or_and_not_mask ho), wellFormed_of_decode h⟩

/-! ### The decoding procedure -/

/-- The decoder answers ILLEGAL_CMD exactly when no row matches (R100). -/
theorem decode_eq_illegal_iff {w : Word} : decode w = .error .illegalCmd ↔ ∀ o : Op, o.selects w = false := by
  constructor
  · intro h o
    cases ho : o.selects w with
    | false => rfl
    | true =>
      rw [decode_of_selects ho] at h
      split at h <;> cases h
  · intro h
    rw [decode, selectRow_eq_none.mpr h]

theorem ofNat_bitField (w : Word) (lo n : Nat) : BitVec.ofNat n (bitField w lo n) = w.extractLsb' lo n := by
  apply BitVec.eq_of_toNat_eq
  simp [bitField, BitVec.extractLsb'_toNat, Nat.shiftRight_eq_div_pow]

theorem ofNat_bitField_reg (w : Word) (lo : Nat) : Fin.ofNat 8 (bitField w lo 3) = (w.extractLsb' lo 3).toFin :=
  congrArg BitVec.toFin (ofNat_bitField w lo 3)

/-- Settles O4: the row found is the one that matches, and its operands are the numbered fields. -/
theorem decoderFollowsProcedure : Obligations.DecoderFollowsProcedure := by
  unfold Obligations.DecoderFollowsProcedure
  intro w
  refine ⟨fun o o' => selects_unique, decode_eq_illegal_iff.mpr, fun o h => ?_⟩
  rw [decode_of_selects h, fieldW_toNat]
  simp only [ofNat_bitField, ofNat_bitField_reg]
  cases o <;> simp only [parameterOk, decide_eq_true_eq, if_true] <;> rfl

/-! ### Illegal words -/

/-- The values of OPC that no row has (R101). -/
def unassignedOpc (c : Nat) : Prop :=
  (0x09 ≤ c ∧ c ≤ 0x0F) ∨ (0x14 ≤ c ∧ c ≤ 0x1F) ∨ (0x22 ≤ c ∧ c ≤ 0x2F) ∨ 0x30 ≤ c

/-- Every other value is a row's. -/
theorem unassignedOpc_iff {c : Nat} (hc : c < 64) : unassignedOpc c ↔ ∀ o : Op, o.pattern.toNat % 64 ≠ c := by
  have htable : ∀ c < 64, unassignedOpc c ↔ ∀ o ∈ opcodeTable, o.pattern.toNat % 64 ≠ c := by
    unfold unassignedOpc
    decide
  exact (htable c hc).trans ⟨fun h o => h o (mem_opcodeTable o), fun h o _ => h o⟩

theorem bitField_lt (w : Word) (lo n : Nat) : bitField w lo n < 2 ^ n := Nat.mod_lt _ (Nat.two_pow_pos n)

/-- A word with a row's OPC selects it exactly when the other bits of the mask are 0 in it (R99). -/
theorem selects_iff_of_opc {o : Op} {w : Word} (hopc : o.pattern.toNat % 64 = bitField w 0 6) :
    o.selects w = true ↔ w &&& (o.mask &&& 0xFFFFFFC0#32) = 0#32 := by
  have hlow : w &&& 63#32 = o.pattern := by
    apply BitVec.eq_of_toNat_eq
    rw [and_63_toNat, ← hopc]
    cases o <;> rfl
  have hhigh : o.pattern &&& 0xFFFFFFC0#32 = 0#32 := by cases o <;> rfl
  have hmask : o.mask = 63#32 ||| (o.mask &&& 0xFFFFFFC0#32) := by cases o <;> rfl
  constructor
  · intro h
    rw [← BitVec.and_assoc, eq_of_beq h, hhigh]
  · intro h
    apply beq_iff_eq.mpr
    rw [hmask, BitVec.and_or_distrib_left, hlow, h, BitVec.or_zero]

/-- A word is illegal exactly when its OPC is no row's or breaks the mask of its row (R101). -/
theorem decode_eq_illegal_iff_unassigned_or_bit {w : Word} : decode w = .error .illegalCmd ↔
    unassignedOpc (bitField w 0 6) ∨
      ∃ o : Op, o.pattern.toNat % 64 = bitField w 0 6 ∧ w &&& (o.mask &&& 0xFFFFFFC0#32) ≠ 0 := by
  have hopc := unassignedOpc_iff (bitField_lt w 0 6)
  constructor
  · intro h
    by_cases hrow : ∃ o : Op, o.pattern.toNat % 64 = bitField w 0 6
    · obtain ⟨o, ho⟩ := hrow
      have hno := Bool.eq_false_iff.mp (decode_eq_illegal_iff.mp h o)
      exact .inr ⟨o, ho, fun hz => hno ((selects_iff_of_opc ho).mpr hz)⟩
    · exact .inl (hopc.mpr fun o ho => hrow ⟨o, ho⟩)
  · rintro (hu | ⟨o, ho, hbit⟩)
    · exact decode_eq_illegal_iff.mpr fun o =>
        Bool.eq_false_iff.mpr fun hs => hopc.mp hu o (selects_opc hs).symm
    · exact decode_illegal ho.symm (Bool.eq_false_iff.mpr fun hs => hbit ((selects_iff_of_opc ho).mp hs))

/-- Settles O5: which words are illegal, and that their issue is a rejection with ILLEGAL_CMD. -/
theorem illegalWordsAreRejected : Obligations.IllegalWordsAreRejected := by
  unfold Obligations.IllegalWordsAreRejected
  intro w
  refine ⟨decode_eq_illegal_iff_unassigned_or_bit, fun s hidle h => ?_⟩
  have hv : validate w s = .error .illegalCmd := by simp only [validate, h, decodeErrorCode]
  rw [perform_cmd hidle, issue_of_error hv]
  rfl

/-- Settles O1: each word is evaluated. -/
theorem specWordsDecode : Obligations.SpecWordsDecode := by
  unfold Obligations.SpecWordsDecode
  exact ⟨rfl, rfl, rfl, rfl, rfl, rfl, rfl, rfl, rfl, rfl, rfl, rfl, rfl⟩

end Sys2Proof.Machine
end

section
/-!
PROOFS. The errors of a command's own encoding (spec/30_encoding.md R99 to R101) and the commands that only commit
a register, proved once for every row; and the register commands NOP, PADD, PSUB, PCOPY and PZERO
(spec/40_modarith.md R120 to R124).
-/

namespace Sys2Proof.Machine

/-! ### Errors of a command's own encoding -/

/-- The fields (first bit, length) that, with OPC, make up a row's mask: those that must be 0 (R99). -/
abbrev MustBeZero (o : Op) (zeros : List (Nat × Nat)) : Prop :=
  o.mask = zeros.foldr (fun f m => fieldMask f.1 f.2 ||| m) 63#32 ∧
    ∀ f ∈ zeros, o.mask &&& fieldMask f.1 f.2 = fieldMask f.1 f.2 ∧
      o.pattern &&& fieldMask f.1 f.2 = 0#32 ∧ f.1 + f.2 ≤ 32

/-- A word with a row's OPC selects the row exactly when every field that must be 0 is. -/
theorem selects_iff_fields {o : Op} {zeros : List (Nat × Nat)} (hz : MustBeZero o zeros) {w : Word}
    (hopc : bitField w 0 6 = o.pattern.toNat % 64) :
    o.selects w = true ↔ ∀ f ∈ zeros, bitField w f.1 f.2 = 0 := by
  obtain ⟨hmask, hfields⟩ := hz
  constructor
  · intro h f hf
    obtain ⟨hm, hp, hn⟩ := hfields f hf
    exact selects_field h hm hp hn
  · intro h
    have hlow : o.pattern &&& 63#32 = o.pattern := by cases o <;> rfl
    exact selects_of_fields zeros hmask hlow hopc fun f hf => ⟨(hfields f hf).2.2, h f hf⟩

/-- The issue of a word the decoder refuses is a rejection with the decoder's error (R255). -/
theorem perform_cmd_of_decode_error {w : Word} {e : DecodeError} (h : decode w = .error e) {s : State}
    (hidle : s.busy = false) : perform (.write 32 0x14 w) s = .next (s.reject (decodeErrorCode e)) := by
  have hv : validate w s = .error (decodeErrorCode e) := by rw [validate, h]
  rw [perform_cmd hidle, issue_of_error hv]

/-- The errors of a row's encoding: its fields that must be 0, then the range its W field is checked for. -/
theorem encodingErrors_of_row (o : Op) {zeros : List (Nat × Nat)} (hz : MustBeZero o zeros) {range : Nat → Prop}
    (hrange : ∀ W, parameterOk o W = true → range W) : EncodingErrors (o.pattern.toNat % 64) zeros range := by
  intro w s hopc hidle
  constructor
  · rintro ⟨f, hf, hne⟩
    have hno : o.selects w = false :=
      Bool.eq_false_iff.mpr fun hs => hne ((selects_iff_fields hz hopc).mp hs f hf)
    exact perform_cmd_of_decode_error (decode_illegal hopc hno) hidle
  · intro h hW
    have hbad : decode w = .error .invalidParameter := by
      rw [decode_of_selects ((selects_iff_fields hz hopc).mpr h), fieldW_toNat, if_neg fun hp => hW (hrange _ hp)]
    exact perform_cmd_of_decode_error hbad hidle

/-! ### Commands that commit a register and nothing else -/

theorem commitPoly_commitsOnly (s : State) (pd : PReg) (v : PolyVal) : s.CommitsOnly (s.commitPoly pd v) pd :=
  ⟨rfl, fun r => commitPoly_poly_ne s pd r v⟩

/-! ### The mod-q unit -/

theorem coefAt_polyAdd_val (a b : PolyVal) {j : Nat} (hj : j < 256) :
    (coefAt (polyAdd a b) j).val = ((coefAt a j).val + (coefAt b j).val) % 3329 := by
  rw [polyAdd, coefAt_mkPoly _ j hj, addq_val]

theorem coefAt_polySub_val (a b : PolyVal) {j : Nat} (hj : j < 256) :
    ((coefAt (polySub a b) j).val : Int) = (((coefAt a j).val : Int) - (coefAt b j).val) % 3329 := by
  rw [polySub, coefAt_mkPoly _ j hj, subq_val]

/-- Settles O39: the value committed is the sum, or the difference, of the old PA and PB. -/
theorem paddPsubEffect : Obligations.PaddPsubEffect := by
  unfold Obligations.PaddPsubEffect
  refine ⟨fun s pd pa pb => ⟨?_, ?_⟩, encodingErrors_of_row .padd (by decide) fun _ _ => trivial,
    encodingErrors_of_row .psub (by decide) fun _ _ => trivial⟩
  · refine ⟨_, rfl, commitPoly_commitsOnly s pd _, fun j hj => ?_⟩
    rw [commitPoly_poly_self, coefAt_polyAdd_val _ _ hj]
  · refine ⟨_, rfl, commitPoly_commitsOnly s pd _, fun j hj => ?_⟩
    rw [commitPoly_poly_self, coefAt_polySub_val _ _ hj]

/-- Settles O40: the value committed is the old PA, or 256 zeros. -/
theorem pcopyPzeroEffect : Obligations.PcopyPzeroEffect := by
  unfold Obligations.PcopyPzeroEffect
  refine ⟨fun s pd pa => ⟨?_, ?_⟩, encodingErrors_of_row .pcopy (by decide) fun _ _ => trivial,
    encodingErrors_of_row .pzero (by decide) fun _ _ => trivial⟩
  · exact ⟨_, rfl, commitPoly_commitsOnly s pd _, commitPoly_poly_self s pd _⟩
  · refine ⟨_, rfl, commitPoly_commitsOnly s pd _, fun j hj => ?_⟩
    rw [commitPoly_poly_self, polyZero, coefAt_mkPoly _ j hj]

/-- 0 is the one word of NOP (R120). -/
theorem decode_eq_nop_iff {w : Word} : decode w = .ok .nop ↔ w = 0 := by
  constructor
  · intro h
    exact (encodeOfDecode w .nop h).1.symm
  · rintro rfl
    exact decodeOfEncode .nop rfl

/-- Settles O38: the word 0 passes every check in any state, so its issue is an acceptance. -/
theorem nopEffect : Obligations.NopEffect := by
  unfold Obligations.NopEffect
  refine ⟨fun s => rfl, fun w => decode_eq_nop_iff, encodingErrors_of_row .nop (by decide) fun _ _ => trivial,
    fun s hidle => ?_⟩
  have hv : validate 0 s = .ok .nop := (validate_ok_iff 0 s .nop).mpr ⟨decode_eq_nop_iff.mpr rfl, rfl⟩
  rw [perform_cmd hidle, issue_of_ok hv]
  rfl

end Sys2Proof.Machine
end

section
/-!
PROOFS. Bit strings and byte strings (spec/41_codec.md R150 to R152, R159, R160): a bit string is read in fields of
equal width, eight bits for a byte and d for a coefficient, and every law of packing is one about its fields.
-/

namespace Sys2Proof.Machine

/-! ### The fields of a bit string -/

/-- Field `i` of a bit string cut into fields of `d` bits (R160). -/
def fieldBits (d : Nat) (b : List Bool) (i : Nat) : List Bool := (b.drop (i * d)).take d

theorem take_drop_eq_fieldBits (d : Nat) (b : List Bool) (i : Nat) :
    (b.drop (i * d)).take d = fieldBits d b i := rfl

theorem getD_fieldBits (b : List Bool) {d k : Nat} (i : Nat) (hk : k < d) :
    (fieldBits d b i).getD k false = b.getD (i * d + k) false := by
  simp [fieldBits, List.getD_eq_getElem?_getD, hk]

/-- Field `m div d` holds bit `m`, at place `m mod d`. -/
theorem getD_eq_getD_fieldBits (b : List Bool) {d m : Nat} (hd : 0 < d) :
    b.getD m false = (fieldBits d b (m / d)).getD (m % d) false := by
  rw [getD_fieldBits b _ (Nat.mod_lt m hd), Nat.mul_comm, Nat.div_add_mod]

/-- `i` whole fields before a whole field lie in `n` whole fields. -/
theorem field_le {i n : Nat} (h : i < n) (d : Nat) : i * d + d ≤ n * d :=
  (Nat.succ_mul i d).symm.trans_le (Nat.mul_le_mul_right d h)

theorem length_fieldBits {d n i : Nat} {b : List Bool} (hb : b.length = n * d) (hi : i < n) :
    (fieldBits d b i).length = d := by
  have := field_le hi d
  rw [fieldBits, List.length_take, List.length_drop]
  omega

/-- A field, bit by bit. -/
theorem fieldBits_eq_map {d n i : Nat} {b : List Bool} (hb : b.length = n * d) (hi : i < n) :
    fieldBits d b i = (List.range d).map fun k => b.getD (i * d + k) false := by
  apply List.ext_getElem (by simp [length_fieldBits hb hi])
  intro k hk _
  have hkd : k < d := length_fieldBits hb hi ▸ hk
  rw [List.getElem_map, List.getElem_range, ← getD_fieldBits b i hkd, List.getD_eq_getElem _ _ hk]

/-- Bit strings of `n` fields are equal when their fields are. -/
theorem eq_of_fieldBits_eq {d n : Nat} {b b' : List Bool} (hb : b.length = n * d) (hb' : b'.length = n * d)
    (h : ∀ i, i < n → fieldBits d b i = fieldBits d b' i) : b = b' := by
  apply List.ext_getElem (hb.trans hb'.symm)
  intro m hm hm'
  have hmul : m < d * n := by rwa [Nat.mul_comm, ← hb]
  have hd : 0 < d := Nat.pos_of_lt_mul_right hmul
  rw [← List.getD_eq_getElem _ false hm, ← List.getD_eq_getElem _ false hm', getD_eq_getD_fieldBits b hd,
    getD_eq_getD_fieldBits b' hd, h _ (Nat.div_lt_of_lt_mul hmul)]

/-- The fields of a string made of blocks of `d` bits are the blocks. -/
theorem fieldBits_flatMap {α : Type} {f : α → List Bool} {d : Nat} (hf : ∀ a, (f a).length = d) (a₀ : α)
    (l : List α) {i : Nat} (hi : i < l.length) : fieldBits d (l.flatMap f) i = f (l.getD i a₀) := by
  induction l generalizing i with
  | nil => exact absurd hi (Nat.not_lt_zero i)
  | cons a l ih =>
    rw [fieldBits, List.flatMap_cons]
    cases i with
    | zero => rw [Nat.zero_mul, List.drop_zero, List.take_left' (hf a), List.getD_cons_zero]
    | succ i =>
      rw [Nat.succ_mul, Nat.add_comm, ← List.drop_drop, List.drop_left' (hf a), List.getD_cons_succ]
      exact ih (Nat.lt_of_succ_lt_succ hi)

/-! ### BytesToBits and BitsToBytes -/

theorem length_bytesToBits (B : List Byte) : (bytesToBits B).length = B.length * 8 := by
  simp [bytesToBits, List.length_flatMap]

/-- BytesToBits puts the bits of byte `i` into field `i` (R151). -/
theorem fieldBits_bytesToBits (B : List Byte) {i : Nat} (hi : i < B.length) :
    fieldBits 8 (bytesToBits B) i = (List.range 8).map (B.getD i 0).getLsbD :=
  fieldBits_flatMap (f := fun x : Byte => (List.range 8).map x.getLsbD) (fun _ => by simp) 0 B hi

theorem getD_bytesToBits (B : List Byte) {m : Nat} (hm : m < 8 * B.length) :
    (bytesToBits B).getD m false = (B.getD (m / 8) 0).getLsbD (m % 8) := by
  rw [getD_eq_getD_fieldBits _ (show 0 < 8 by decide), fieldBits_bytesToBits B (Nat.div_lt_of_lt_mul hm)]
  simp [List.getD_eq_getElem?_getD, Nat.mod_lt m (show 0 < 8 by decide)]

/-- Different byte strings have different bits. -/
theorem bytesToBits_injective {B B' : List Byte} (h : bytesToBits B = bytesToBits B') : B = B' := by
  have hlen : B.length = B'.length := by
    have := congrArg List.length h
    rw [length_bytesToBits, length_bytesToBits] at this
    omega
  apply List.ext_getElem hlen
  intro i hi hi'
  have hfield := fieldBits_bytesToBits B hi
  rw [h, fieldBits_bytesToBits B' hi', List.getD_eq_getElem _ _ hi, List.getD_eq_getElem _ _ hi'] at hfield
  exact BitVec.eq_of_getLsbD_eq fun k hk => (List.map_inj_left.mp hfield k (List.mem_range.mpr hk)).symm

/-- The bits of a byte made of eight bits are these (R150). -/
theorem bits_byteOfBits (b0 b1 b2 b3 b4 b5 b6 b7 : Bool) :
    (List.range 8).map (byteOfBits b0 b1 b2 b3 b4 b5 b6 b7).getLsbD = [b0, b1, b2, b3, b4, b5, b6, b7] := by
  revert b0 b1 b2 b3 b4 b5 b6 b7
  decide

/-- BytesToBits undoes BitsToBytes on whole bytes (R152). -/
theorem bytesToBits_bitsToBytes : ∀ b : List Bool, b.length % 8 = 0 → bytesToBits (bitsToBytes b) = b
  | [], _ => rfl
  | b0 :: b1 :: b2 :: b3 :: b4 :: b5 :: b6 :: b7 :: rest, h => by
    have ih := bytesToBits_bitsToBytes rest (by simpa [Nat.add_assoc] using h)
    rw [bitsToBytes, bytesToBits, List.flatMap_cons, bits_byteOfBits, ← bytesToBits, ih]
    rfl
  | [_], h | [_, _], h | [_, _, _], h | [_, _, _, _], h | [_, _, _, _, _], h | [_, _, _, _, _, _], h
  | [_, _, _, _, _, _, _], h => absurd h (by simp)

/-- BitsToBytes undoes BytesToBits (R152). -/
theorem bitsToBytes_bytesToBits (B : List Byte) : bitsToBytes (bytesToBits B) = B :=
  bytesToBits_injective (bytesToBits_bitsToBytes _ (by rw [length_bytesToBits, Nat.mul_mod_left]))

/-- Settles O41: BytesToBits places each bit, and BitsToBytes undoes it. -/
theorem bitPacking : Obligations.BitPacking := by
  unfold Obligations.BitPacking
  refine ⟨fun b hb => ⟨length_bitsToBytes b, fun i hi => ?_, bytesToBits_bitsToBytes b hb⟩,
    fun B => ⟨by rw [length_bytesToBits, Nat.mul_comm], fun i => getD_bytesToBits B, bitsToBytes_bytesToBits B⟩⟩
  rw [← getD_bytesToBits _ (by rw [length_bitsToBytes]; omega), bytesToBits_bitsToBytes b hb]

/-! ### The number a field holds -/

theorem bitsValue_cons (b : Bool) (bs : List Bool) : bitsValue (b :: bs) = b.toNat + 2 * bitsValue bs := rfl

theorem testBit_bitsValue (bs : List Bool) (k : Nat) : (bitsValue bs).testBit k = bs.getD k false := by
  induction bs generalizing k with
  | nil => simp [bitsValue]
  | cons b bs ih =>
    rw [bitsValue_cons, Nat.add_comm, ← Nat.bit_val]
    cases k with
    | zero => rw [Nat.testBit_bit_zero, List.getD_cons_zero]
    | succ k => rw [Nat.testBit_bit_succ, List.getD_cons_succ, ih]

/-- The number of a run of bits is the sum of their weights. -/
theorem bitsValue_map_range (f : Nat → Bool) (n : Nat) :
    bitsValue ((List.range n).map f) = ((List.range n).map fun k => (f k).toNat * 2 ^ k).sum := by
  induction n generalizing f with
  | zero => rfl
  | succ n ih =>
    have hdouble (k : Nat) : (f (k + 1)).toNat * 2 ^ (k + 1) = 2 * ((f (k + 1)).toNat * 2 ^ k) := by ring
    simp only [List.range_succ_eq_map, List.map_cons, List.map_map, List.sum_cons, Function.comp_def,
      bitsValue_cons, ih, Nat.succ_eq_add_one, hdouble, List.sum_map_mul_left, pow_zero, mul_one]

theorem bitsValue_lt (bs : List Bool) : bitsValue bs < 2 ^ bs.length := by
  apply Nat.lt_pow_two_of_testBit
  intro k hk
  rw [testBit_bitsValue, List.getD_eq_default _ _ hk]

/-- The bits of a coefficient hold its value mod 2^d (R159). -/
theorem bitsValue_coefBits (d : Nat) (c : Coef) : bitsValue (coefBits d c) = c.val % 2 ^ d := by
  apply Nat.eq_of_testBit_eq
  intro k
  rw [testBit_bitsValue, Nat.testBit_mod_two_pow, coefBits]
  by_cases hk : k < d <;> simp [hk, List.getD_eq_getElem?_getD]

/-- A coefficient whose value is the number of `d` bits has these bits. -/
theorem coefBits_of_val {d : Nat} {c : Coef} {bs : List Bool} (hlen : bs.length = d) (hv : c.val = bitsValue bs) :
    coefBits d c = bs := by
  apply List.ext_getElem ((length_coefBits d c).trans hlen.symm)
  intro k _ hk
  simp only [coefBits, List.getElem_map, List.getElem_range, hv, testBit_bitsValue, List.getD_eq_getElem _ _ hk]

end Sys2Proof.Machine
end

section
/-!
PROOFS. The codec commands (spec/41_codec.md R155 to R167): the coefficients COMPRESS and DECOMPRESS compute, the
fields ByteEncode_d makes and ByteDecode_d reads, and what each command does with them in the machine.
-/

namespace Sys2Proof.Machine

/-! ### Issues that a check on the state rejects -/

/-- The issue of a well-formed command that fails a check on the state is a rejection with its error (R255). -/
theorem perform_cmd_of_stateCheck {i : Instr} {e : ErrorCode} {s : State} (hi : i.wellFormed = true)
    (hc : stateCheck i s = some e) (hidle : s.busy = false) :
    perform (.write 32 0x14 (encode i)) s = .next (s.reject e) := by
  have hv : validate (encode i) s = .error e := by simp only [validate, decodeOfEncode i hi, hc]
  rw [perform_cmd hidle, issue_of_error hv]

theorem allBelow_eq_false {f : PolyVal} {bound j : Nat} (hj : j < 256) (h : bound ≤ (coefAt f j).val) :
    allBelow f bound = false :=
  Bool.eq_false_iff.mpr fun hall => Nat.not_lt.mpr h ((allBelow_iff f bound).mp hall j hj)

/-! ### COMPRESS and DECOMPRESS -/

/-- Every d of COMPRESS makes values that are legal coefficients (R155). -/
theorem two_pow_lt_3329 {d : Nat} (hd : d ≤ 11) : 2 ^ d < 3329 :=
  (Nat.pow_le_pow_right (by decide) hd).trans_lt (by decide)

theorem compressCoef_val {d : Nat} (hd : d ≤ 11) (x : Coef) :
    (compressCoef d x).val = (2 ^ d * x.val + 1664) / 3329 % 2 ^ d :=
  reduceNat_eq_of_lt _ ((Nat.mod_lt _ (Nat.two_pow_pos d)).trans (two_pow_lt_3329 hd))

theorem compressCoef_lt {d : Nat} (hd : d ≤ 11) (x : Coef) : (compressCoef d x).val < 2 ^ d :=
  (compressCoef_val hd x).trans_lt (Nat.mod_lt _ (Nat.two_pow_pos d))

/-- Settles O42: the value committed is Compress_d of each coefficient. -/
theorem compressEffect : Obligations.CompressEffect := by
  unfold Obligations.CompressEffect
  refine ⟨fun s pd pa d _ hd => ⟨_, rfl, commitPoly_commitsOnly s pd _, fun j hj => ?_⟩,
    encodingErrors_of_row .compress (by decide) fun _ => of_decide_eq_true⟩
  rw [commitPoly_poly_self, polyCompress, coefAt_mkPoly _ j hj, widthOf]
  exact ⟨by rw [compressCoef_val hd, Nat.mul_comm], compressCoef_lt hd _⟩

/-- Settles O43: the value committed is Decompress_d of each coefficient, and a source outside the domain fails
its check. -/
theorem decompressEffect : Obligations.DecompressEffect := by
  unfold Obligations.DecompressEffect
  refine ⟨encodingErrors_of_row .decompress (by decide) fun _ => of_decide_eq_true,
    fun s pd pa d hd1 hd11 => ⟨⟨_, rfl, commitPoly_commitsOnly s pd _, fun j hj => ?_⟩,
      fun j hj hlarge hidle => ?_⟩⟩
  · rw [commitPoly_poly_self, polyDecompress, coefAt_mkPoly _ j hj]
    rfl
  · refine perform_cmd_of_stateCheck (e := .rangeViolation) (decide_eq_true ⟨hd1, hd11⟩) ?_ hidle
    rw [stateCheck, widthOf, allBelow_eq_false hj hlarge]
    rfl

/-! ### ByteEncode and ByteDecode -/

/-- The bits of an encoding are those of the coefficients in order (R159). -/
theorem bytesToBits_byteEncode (d : Nat) (F : PolyVal) :
    bytesToBits (byteEncode d F) = F.toList.flatMap (coefBits d) := by
  apply bytesToBits_bitsToBytes
  simp only [List.length_flatMap, length_coefBits, List.map_const', List.sum_replicate, Vector.length_toList,
    smul_eq_mul]
  omega

theorem fieldBits_byteEncode (d : Nat) (F : PolyVal) {i : Nat} (hi : i < 256) :
    fieldBits d (bytesToBits (byteEncode d F)) i = coefBits d (coefAt F i) := by
  rw [bytesToBits_byteEncode, fieldBits_flatMap (length_coefBits d) 0 _ (by simpa using hi), coefAt]

/-- Where each bit of an encoding comes from (R159). -/
theorem getLsbD_byteEncode {d b k : Nat} (F : PolyVal) (hb : b < 32 * d) (hk : k < 8) :
    ((byteEncode d F).getD b 0).getLsbD k = encodedBit d F (8 * b + k) := by
  have hd : 0 < d := by omega
  have hm : 8 * b + k < 8 * (byteEncode d F).length := by rw [length_byteEncode]; omega
  have hi : (8 * b + k) / d < 256 := Nat.div_lt_of_lt_mul (by omega)
  have hbit := getD_bytesToBits (byteEncode d F) hm
  rw [show (8 * b + k) / 8 = b by omega, show (8 * b + k) % 8 = k by omega] at hbit
  rw [← hbit, getD_eq_getD_fieldBits _ hd, fieldBits_byteEncode d F hi, encodedBit]
  simp [coefBits, List.getD_eq_getElem?_getD, Nat.mod_lt _ hd]

/-- A decoded coefficient is its field's number, reduced (R160). -/
theorem coefAt_byteDecode_val (d : Nat) (B : List Byte) {i : Nat} (hi : i < 256) :
    (coefAt (byteDecode d B) i).val = bitsValue (fieldBits d (bytesToBits B) i) % decodeModulus d := by
  have hm : 0 < decodeModulus d ∧ decodeModulus d ≤ 3329 := by
    unfold decodeModulus
    split
    next h => exact ⟨Nat.two_pow_pos d, (two_pow_lt_3329 (by omega)).le⟩
    next => decide
  rw [byteDecode, coefAt_mkPoly _ i hi]
  exact reduceNat_eq_of_lt _ ((Nat.mod_lt _ hm.1).trans_le hm.2)

/-- A coefficient in the domain loses nothing to its field and to the modulus of its width (R161). -/
theorem mod_decodeModulus {d : Nat} {c : Coef} (h : d < 12 → c.val < 2 ^ d) :
    c.val % 2 ^ d % decodeModulus d = c.val := by
  have hc := c.isLt
  unfold decodeModulus
  split
  next hd => rw [Nat.mod_mod, Nat.mod_eq_of_lt (h hd)]
  next hd =>
    have hbig : 2 ^ 12 ≤ 2 ^ d := Nat.pow_le_pow_right (by decide) (by omega)
    rw [Nat.mod_eq_of_lt (show c.val < 2 ^ d by omega), Nat.mod_eq_of_lt hc]

/-- Decoding gives the encoded polynomial back (R167). -/
theorem byteDecode_byteEncode {d : Nat} {F : PolyVal} (h : d < 12 → allBelow F (2 ^ d) = true) :
    byteDecode d (byteEncode d F) = F := by
  apply poly_ext
  intro i hi
  apply Fin.ext
  rw [coefAt_byteDecode_val d _ hi, fieldBits_byteEncode d F hi, bitsValue_coefBits]
  exact mod_decodeModulus fun hd => (allBelow_iff F _).mp (h hd) i hi

/-- The one byte string whose fields are the coefficients is their encoding. -/
theorem byteEncode_eq_of_fields {d : Nat} {F : PolyVal} {B : List Byte} (hlen : B.length = 32 * d)
    (h : ∀ i, i < 256 → (coefAt F i).val = bitsValue (fieldBits d (bytesToBits B) i)) : byteEncode d F = B := by
  have hB : (bytesToBits B).length = 256 * d := by rw [length_bytesToBits]; omega
  have hE : (bytesToBits (byteEncode d F)).length = 256 * d := by
    rw [length_bytesToBits, length_byteEncode]
    omega
  refine bytesToBits_injective (eq_of_fieldBits_eq hE hB fun i hi => ?_)
  rw [fieldBits_byteEncode d F hi, coefBits_of_val (length_fieldBits hB hi) (h i hi)]

/-- Settles O48: re-encoding gives back the fields of the decoded coefficients, which are the original fields
mod 3329. -/
theorem decodeBoundaryReduction : Obligations.DecodeBoundaryReduction := by
  unfold Obligations.DecodeBoundaryReduction
  simp only [take_drop_eq_fieldBits]
  intro B hB
  have hval (i : Nat) (hi : i < 256) :
      (coefAt (byteDecode 12 B) i).val = bitsValue (fieldBits 12 (bytesToBits B) i) % 3329 :=
    coefAt_byteDecode_val 12 B hi
  refine ⟨⟨fun h i hi => ?_, fun h => ?_⟩, fun i hi h => ?_⟩
  · have hfield : bitsValue (fieldBits 12 (bytesToBits B) i) = (coefAt (byteDecode 12 B) i).val % 2 ^ 12 := by
      rw [← bitsValue_coefBits, ← fieldBits_byteEncode 12 _ hi, h]
    exact (hfield.trans_le (Nat.mod_le _ _)).trans_lt (Fin.isLt _)
  · exact byteEncode_eq_of_fields hB fun i hi => (hval i hi).trans (Nat.mod_eq_of_lt (h i hi))
  · have hlt : bitsValue (fieldBits 12 (bytesToBits B) i) < 2 ^ 12 := by
      have hbits : (bytesToBits B).length = 256 * 12 := by rw [length_bytesToBits, hB]
      simpa only [length_fieldBits hbits hi] using bitsValue_lt (fieldBits 12 (bytesToBits B) i)
    rw [hval i hi]
    omega

/-! ### ENCODE and DECODE -/

/-- After ENCODE, BUF holds the encoding from byte 0 on (R163). -/
theorem exec_encode_readByte_of_lt {pa : PReg} {d : BitVec 4} {s t : State} (hd : d.toNat ≤ 12)
    (hwf : s.buf.wf = true) (h : exec (.encode pa d) s = .next t) {b : Nat} (hb : b < 32 * d.toNat) :
    readByte t.buf b = (byteEncode d.toNat (s.poly pa)).getD b 0 := by
  obtain rfl := Host.Outcome.next.inj h
  have hlen := length_byteEncode d.toNat (s.poly pa)
  have hread := readByte_writeBytes (base := 0) (by rw [hlen]; omega) hwf b
  rw [if_pos (by rw [hlen]; omega)] at hread
  exact hread

/-- Settles O44: the bytes of an encoding, the frame of the BUF write, and the check on the source. -/
theorem encodeEffect : Obligations.EncodeEffect := by
  unfold Obligations.EncodeEffect
  refine ⟨encodingErrors_of_row .encode (by decide) fun _ => of_decide_eq_true,
    fun s pa d hd1 hd12 hwf => ⟨⟨_, rfl, rfl, ?_, fun b hb k hk => ?_, fun b => ?_⟩,
      fun j hj hlt hlarge hidle => ?_⟩⟩
  · exact wf_writeBytes (by rw [widthOf, length_byteEncode]; omega) hwf
  · rw [exec_encode_readByte_of_lt hd12 hwf rfl hb, getLsbD_byteEncode _ hb hk]
  · exact exec_encode_readByte_of_le hd12 hwf rfl
  · refine perform_cmd_of_stateCheck (e := .rangeViolation) (decide_eq_true ⟨hd1, hd12⟩) ?_ hidle
    rw [stateCheck, widthOf, if_pos ⟨hlt, allBelow_eq_false hj hlarge⟩]

theorem length_readBytes (m : Memory) (n : Nat) : (readBytes m n).length = n := by simp [readBytes]

/-- The bits of the first `n` bytes of BUF. -/
theorem getD_bytesToBits_readBytes (mem : Memory) {n m : Nat} (hm : m < 8 * n) :
    (bytesToBits (readBytes mem n)).getD m false = stringBit (readByte mem) m := by
  rw [getD_bytesToBits _ (by rwa [length_readBytes]), stringBit]
  simp [readBytes, List.getD_eq_getElem?_getD, Nat.div_lt_of_lt_mul hm]

/-- Settles O45: each field read is a run of BUF's bits, and its number their weighted sum. -/
theorem decodeEffect : Obligations.DecodeEffect := by
  unfold Obligations.DecodeEffect
  refine ⟨encodingErrors_of_row .decode (by decide) fun _ => of_decide_eq_true,
    fun s pd d _ _ => ⟨_, rfl, commitPoly_commitsOnly s pd _, rfl, fun i hi => ?_⟩⟩
  have hlen : (bytesToBits (readBytes s.buf (32 * d.toNat))).length = 256 * d.toNat := by
    rw [length_bytesToBits, length_readBytes]
    omega
  have hfield : fieldBits d.toNat (bytesToBits (readBytes s.buf (32 * d.toNat))) i =
      (List.range d.toNat).map fun k => stringBit (readByte s.buf) (i * d.toNat + k) := by
    rw [fieldBits_eq_map hlen hi]
    refine List.map_congr_left fun k hk => getD_bytesToBits_readBytes _ ?_
    have hkd := List.mem_range.mp hk
    have hle := field_le hi d.toNat
    omega
  rw [commitPoly_poly_self, widthOf, coefAt_byteDecode_val _ _ hi, hfield, bitsValue_map_range, decodeModulus]

/-- What DECODE reads after an ENCODE of the same d is the encoding. -/
theorem readBytes_of_exec_encode {pa : PReg} {d : BitVec 4} {s t : State} (hd : d.toNat ≤ 12)
    (hwf : s.buf.wf = true) (h : exec (.encode pa d) s = .next t) :
    readBytes t.buf (32 * d.toNat) = byteEncode d.toNat (s.poly pa) := by
  apply List.ext_getElem (by rw [length_readBytes, length_byteEncode])
  intro b hb hb'
  rw [length_readBytes] at hb
  rw [← List.getD_eq_getElem _ 0 hb', ← exec_encode_readByte_of_lt hd hwf h hb]
  simp [readBytes]

/-- Settles O47: decoding undoes encoding, and DECODE reads what ENCODE stored. -/
theorem codecRoundTrip : Obligations.CodecRoundTrip := by
  unfold Obligations.CodecRoundTrip
  refine ⟨fun d F _ _ h => ⟨length_byteEncode d F, byteDecode_byteEncode h⟩,
    fun s t pa pd d _ hd hwf hdom h => ⟨_, rfl, ?_⟩⟩
  rw [commitPoly_poly_self, widthOf, readBytes_of_exec_encode hd hwf h, byteDecode_byteEncode hdom]

end Sys2Proof.Machine
end

section
/-!
PROOFS. How lossy compression is (spec/41_codec.md R158). Rounding in COMPRESS moves `2^d · x` by at most 1664 from a
multiple of 3329, and rounding in DECOMPRESS moves 3329 times the result by at most half of 2^d; every bound is what
remains of these two after a division by 2^d.
-/

namespace Sys2Proof.Machine

/-- Every E_d is the two rounding errors together, over 2^d. -/
theorem lossBound_eq {d : Nat} (h1 : 1 ≤ d) (h11 : d ≤ 11) :
    lossBound.getD (d - 1) 0 = (1664 + 2 ^ (d - 1)) / 2 ^ d := by
  have htable : ∀ d < 12, 1 ≤ d → lossBound.getD (d - 1) 0 = (1664 + 2 ^ (d - 1)) / 2 ^ d := by decide
  exact htable d (by omega) h1

/-- Half of 2^d. -/
theorem two_mul_two_pow_pred {d : Nat} (h : 1 ≤ d) : 2 * 2 ^ (d - 1) = 2 ^ d := mul_pow_sub_one (by omega) 2

/-- Rounding `a / N` to the nearest integer, `h` being half of `N`, is off by at most `h` over `N`. -/
theorem mul_div_near {N h : Nat} (hN : 2 * h = N) (hpos : 0 < h) (a : Nat) :
    N * ((a + h) / N) ≤ a + h ∧ a < N * ((a + h) / N) + h := by
  have hdiv := Nat.div_add_mod (a + h) N
  have hmod := Nat.mod_lt (a + h) (show 0 < N by omega)
  omega

/-- Compress_d undoes Decompress_d: 3329 times a value below 2^d is found again, since half of 2^d is less than
1664. -/
theorem compressCoef_decompressCoef {d : Nat} (h1 : 1 ≤ d) (h11 : d ≤ 11) {y : Coef} (hy : y.val < 2 ^ d) :
    compressCoef d (decompressCoef d y) = y := by
  have hhalf := two_mul_two_pow_pred h1
  have hsmall := two_pow_lt_3329 h11
  obtain ⟨hle, hlt⟩ := mul_div_near hhalf (Nat.two_pow_pos _) (3329 * y.val)
  have hz : (3329 * y.val + 2 ^ (d - 1)) / 2 ^ d < 3329 := by
    apply Nat.div_lt_of_lt_mul
    omega
  have hback : (2 ^ d * ((3329 * y.val + 2 ^ (d - 1)) / 2 ^ d) + 1664) / 3329 = y.val := by omega
  apply Fin.ext
  rw [compressCoef_val h11, decompressCoef, reduceNat_eq_of_lt _ hz, hback, Nat.mod_eq_of_lt hy]

/-- A residue is no farther from another than a number that reduces to it. -/
theorem residueDistance_reduceNat_le {n e : Nat} {x : Coef} (hle : n ≤ x.val + e) (hge : x.val ≤ n + e) :
    residueDistance (reduceNat n) x ≤ e := by
  have hx := x.isLt
  rw [residueDistance, reduceNat_val]
  rcases Nat.le_total x.val n with h | h
  · have hdiff : (n % 3329 + 3329 - x.val) % 3329 ≤ n - x.val := by omega
    omega
  · have hdiff : (x.val + 3329 - n % 3329) % 3329 = x.val - n := by omega
    omega

/-- Decompress_d is the same on a value and on the value mod 2^d: 2^d more in the value is 3329 more. -/
theorem decompress_mod_two_pow (d y : Nat) :
    (3329 * (y % 2 ^ d) + 2 ^ (d - 1)) / 2 ^ d % 3329 = (3329 * y + 2 ^ (d - 1)) / 2 ^ d % 3329 := by
  have hsplit : 3329 * y + 2 ^ (d - 1) = 3329 * (y % 2 ^ d) + 2 ^ (d - 1) + 2 ^ d * (3329 * (y / 2 ^ d)) := by
    nth_rewrite 1 [← Nat.div_add_mod y (2 ^ d)]
    ring
  rw [hsplit, Nat.add_mul_div_left _ _ (Nat.two_pow_pos d), Nat.add_mul_mod_self_left]

/-- Decompress_d after Compress_d, with the reductions mod 2^d and mod 3329 made one. -/
theorem decompressCoef_compressCoef {d : Nat} (h11 : d ≤ 11) (x : Coef) :
    decompressCoef d (compressCoef d x) =
      reduceNat ((3329 * ((2 ^ d * x.val + 1664) / 3329) + 2 ^ (d - 1)) / 2 ^ d) := by
  apply Fin.ext
  rw [decompressCoef, reduceNat_val, reduceNat_val, compressCoef_val h11, decompress_mod_two_pow]

/-- Compression loses at most E_d (R158). -/
theorem residueDistance_decompressCoef_compressCoef_le {d : Nat} (h1 : 1 ≤ d) (h11 : d ≤ 11) (x : Coef) :
    residueDistance (decompressCoef d (compressCoef d x)) x ≤ (1664 + 2 ^ (d - 1)) / 2 ^ d := by
  obtain ⟨hle, hlt⟩ := mul_div_near (two_mul_two_pow_pred h1) (Nat.two_pow_pos _)
    (3329 * ((2 ^ d * x.val + 1664) / 3329))
  have hpos := Nat.two_pow_pos d
  rw [decompressCoef_compressCoef h11]
  generalize (3329 * ((2 ^ d * x.val + 1664) / 3329) + 2 ^ (d - 1)) / 2 ^ d = z at hle hlt ⊢
  apply residueDistance_reduceNat_le
  · have h : z - x.val ≤ (1664 + 2 ^ (d - 1)) / 2 ^ d := by
      rw [Nat.le_div_iff_mul_le hpos, Nat.mul_comm, Nat.mul_sub]
      omega
    omega
  · have h : x.val - z ≤ (1664 + 2 ^ (d - 1)) / 2 ^ d := by
      rw [Nat.le_div_iff_mul_le hpos, Nat.mul_comm, Nat.mul_sub]
      omega
    omega

/-- For each d from 1 on, a coefficient that loses all of E_d. -/
def greatestLossAt : List Nat := [832, 416, 208, 104, 52, 26, 13, 1658, 3, 5, 1]

/-- The bounds are attained (R158). -/
theorem residueDistance_greatestLossAt {d : Nat} (h1 : 1 ≤ d) (h11 : d ≤ 11) :
    residueDistance (decompressCoef d (compressCoef d (reduceNat (greatestLossAt.getD (d - 1) 0))))
      (reduceNat (greatestLossAt.getD (d - 1) 0)) = lossBound.getD (d - 1) 0 := by
  interval_cases d <;> decide

/-- Settles O46: the roundings cancel on a multiple of the step, and add up to at most E_d elsewhere. -/
theorem compressionLoss : Obligations.CompressionLoss := by
  unfold Obligations.CompressionLoss
  exact fun d h1 h11 => ⟨fun y hy => compressCoef_decompressCoef h1 h11 hy,
    fun x => lossBound_eq h1 h11 ▸ residueDistance_decompressCoef_compressCoef_le h1 h11 x,
    _, residueDistance_greatestLossAt h1 h11⟩

end Sys2Proof.Machine
end

section
/-!
PROOFS. The samplers and the counter (spec/42_sampler.md R180 to R190): acceptances of a longer stream extend those
of a shorter one; the runs of bits the centred binomial sampler sums are fields of the answer's bits; and COUNTER
advances by one a SAMPLE_CBD.
-/

namespace Sys2Proof.Machine

/-! ### The rejection sampler -/

/-- The acceptances of the first chunks come first. -/
theorem accepted_prefix (X : Nat → Byte) {k n : Nat} (h : k ≤ n) : accepted X k <+: accepted X n := by
  induction h with
  | refl => exact List.prefix_refl _
  | step _ ih => exact ih.trans (accepted_succ X _ ▸ List.prefix_append _ _)

/-- Chunks that hold 256 acceptances determine the first 256 of any longer delivery. -/
theorem getD_firstAccepted_val (X : Nat → Byte) {k n j : Nat} (hkn : k ≤ n) (hk : 256 ≤ (accepted X k).length)
    (hj : j < 256) : ((firstAccepted X k).getD j 0).val = (accepted X n).getD j 0 := by
  have hjk : j < (accepted X k).length := hj.trans_le hk
  have hjn : j < (accepted X n).length := hjk.trans_le (length_accepted_mono X hkn)
  have hlen : j < (firstAccepted X k).length := by rw [length_firstAccepted]; omega
  have hlt : (accepted X k)[j] < 3329 := lt_of_mem_accepted X (List.getElem_mem hjk)
  calc ((firstAccepted X k).getD j 0).val
      = (accepted X k)[j] := by
        rw [List.getD_eq_getElem _ _ hlen]
        simp only [firstAccepted, List.getElem_map, List.getElem_take, reduceNat_eq_of_lt _ hlt]
    _ = (accepted X n).getD j 0 := by
        rw [List.getD_eq_getElem _ _ hjn, (accepted_prefix X hkn).getElem hjk]

/-- XOF_BYTES saturates (R182). -/
theorem saturate32_toNat (k : Nat) : (saturate32 k).toNat = min k 0xFFFFFFFF := by
  rw [saturate32, BitVec.toNat_ofNat]
  omega

/-- The XOF port's input is RHO and the two index bytes (spec/10_state.md R44). -/
theorem seedAt_xofInput (rho : Seed32) (b32 b33 : Byte) {b : Nat} (hb : b < 34) :
    seedAt (xofInput rho b32 b33) b = if b < 32 then seedAt rho b else if b = 32 then b32 else b33 := by
  have hlist : (xofInput rho b32 b33).toList = rho.toList ++ [b32, b33] := rfl
  have hlen : rho.toList.length = 32 := rho.length_toList
  rw [seedAt, hlist]
  by_cases h32 : b < 32
  · rw [List.getD_append _ _ _ _ (by omega), if_pos h32, seedAt]
  · rw [List.getD_append_right _ _ _ _ (by omega), hlen, if_neg h32]
    obtain rfl | rfl : b = 32 ∨ b = 33 := by omega
    · rfl
    · rfl

/-- The engine's turn runs the pending command with the chunks delivered by then (R257). -/
theorem perform_engine_of_pending {s : State} {i : Instr} (h : s.pending = some i) (n : Nat) :
    perform (.engine n) s = exec i { s with xofReady := n } := by
  simp only [perform, engineTurn, h]

/-- Settles O49: the loop ends at the least number of chunks that hold 256 acceptances. -/
theorem sampleNttEffect : Obligations.SampleNttEffect := by
  unfold Obligations.SampleNttEffect
  refine ⟨encodingErrors_of_row .sampleNtt (by decide) fun _ _ => trivial,
    fun s pd b32 b33 => ⟨fun b => seedAt_xofInput s.rho b32 b33, fun h => ?_⟩⟩
  obtain ⟨k, hk, h128, henough, hleast⟩ := exists_least_chunks _ h
  refine ⟨_, k, exec_sampleNtt_of_some (sampleNtt_eq_some _ hk henough hleast), rfl,
    fun r => commitPoly_poly_ne _ pd r _, fun j hj => ?_, henough, hleast, saturate32_toNat _, h128⟩
  rw [State.commitSample, commitPoly_poly_self, coefAt_mkPoly _ j hj, getD_firstAccepted_val _ hk henough hj]

/-- Settles O50: with too few acceptances the loop has no result, and otherwise its result is that of the least
number of chunks, whatever is delivered beyond. -/
theorem sampleNttWaitsForItsStream : Obligations.SampleNttWaitsForItsStream := by
  unfold Obligations.SampleNttWaitsForItsStream
  intro s pd b32 b33 n n' hp
  rw [perform_engine_of_pending hp, perform_engine_of_pending hp]
  constructor
  · intro h
    exact exec_sampleNtt_of_none (s := { s with xofReady := n }) (sampleNtt_eq_none _ h)
  · intro h hn
    obtain ⟨k, hk, -, henough, hleast⟩ := exists_least_chunks _ h
    exact ⟨_, exec_sampleNtt_of_some (s := { s with xofReady := n }) (sampleNtt_eq_some _ hk henough hleast), rfl,
      exec_sampleNtt_of_some (s := { s with xofReady := n' })
        (sampleNtt_eq_some _ (hk.trans hn) henough hleast)⟩

/-! ### The centred binomial sampler -/

/-- The sum of a field of a byte string's bits is the number of ones in it (R186). -/
theorem bitSum_bytesToBits {m n d i : Nat} (v : Vector Byte m) (hm : m * 8 = n * d) (hi : i < n) :
    bitSum (bytesToBits v.toList) (i * d) d = onesIn (seedAt v) (i * d) d := by
  have hlen : (bytesToBits v.toList).length = n * d := by rw [length_bytesToBits, v.length_toList, hm]
  rw [bitSum, take_drop_eq_fieldBits, fieldBits_eq_map hlen hi, List.map_map, onesIn]
  refine congrArg List.sum (List.map_congr_left fun k hk => congrArg Bool.toNat ?_)
  have hkd := List.mem_range.mp hk
  have hle := field_le hi d
  exact getD_bytesToBits _ (by rw [v.length_toList]; omega)

/-- A run of `n` bits holds at most `n` ones. -/
theorem onesIn_le (byteAt : Nat → Byte) (i n : Nat) : onesIn byteAt i n ≤ n := by
  have h := List.sum_le_card_nsmul ((List.range n).map fun k => (stringBit byteAt (i + k)).toNat) 1 <| by
    intro x hx
    obtain ⟨k, -, rfl⟩ := List.mem_map.mp hx
    exact Bool.toNat_le _
  simpa [onesIn] using h

/-- Coefficient `i` of SamplePolyCBD_eta: a run of `eta` bits against the next one (R186). -/
theorem coefAt_samplePolyCbd_val {eta i : Nat} (v : Vector Byte (64 * eta)) (hi : i < 256) :
    ((coefAt (samplePolyCbd eta v.toList) i).val : Int) =
      ((onesIn (seedAt v) (2 * i * eta) eta : Int) - onesIn (seedAt v) (2 * i * eta + eta) eta) % 3329 := by
  have hm : 64 * eta * 8 = 512 * eta := by omega
  have hnext : 2 * i * eta + eta = (2 * i + 1) * eta := (Nat.succ_mul _ _).symm
  rw [samplePolyCbd, coefAt_mkPoly _ i hi, reduceInt_val, hnext, bitSum_bytesToBits v hm (by omega),
    bitSum_bytesToBits v hm (by omega)]

/-- A coefficient of SamplePolyCBD_eta is a residue of −eta..eta (R187). -/
theorem coefAt_samplePolyCbd_range {eta i : Nat} (v : Vector Byte (64 * eta)) (hi : i < 256) :
    (coefAt (samplePolyCbd eta v.toList) i).val ≤ eta ∨
      3329 - eta ≤ (coefAt (samplePolyCbd eta v.toList) i).val := by
  have hx := onesIn_le (seedAt v) (2 * i * eta) eta
  have hy := onesIn_le (seedAt v) (2 * i * eta + eta) eta
  have hv := coefAt_samplePolyCbd_val v hi
  omega

/-- What a SAMPLE_CBD does to COUNTER and CTR_EXH touches no other field. -/
theorem advanceCounter_writes_only (s : State) :
    s.advanceCounter = { s with counter := s.advanceCounter.counter, ctrExh := s.advanceCounter.ctrExh } := by
  by_cases hc : s.counter = 255
  · rw [advanceCounter_of_eq hc]
  · rw [advanceCounter_of_ne hc]

/-- A COUNTER below 255 advances by one (R188). -/
theorem advanceCounter_of_lt {s : State} (h : s.counter.toNat < 255) :
    s.advanceCounter.counter.toNat = s.counter.toNat + 1 ∧ s.advanceCounter.ctrExh = s.ctrExh := by
  have hne : s.counter ≠ 255 := fun he => absurd h (he ▸ by decide)
  rw [advanceCounter_of_ne hne]
  refine ⟨?_, rfl⟩
  show (s.counter + 1).toNat = s.counter.toNat + 1
  bv_omega

/-- Settles O51: the value committed is the difference of two runs of the answer's bits, each of at most eta ones;
beside it only COUNTER and CTR_EXH move. -/
theorem sampleCbdEffect : Obligations.SampleCbdEffect := by
  unfold Obligations.SampleCbdEffect
  refine ⟨encodingErrors_of_row .sampleCbd (by decide) fun _ => of_decide_eq_true, fun s pd eta _ => ?_⟩
  refine ⟨_, rfl, ?_, fun r hr => ?_, fun i hi => ?_, fun i hi => ?_, advanceCounter_of_lt, fun h => ?_⟩
  · rw [advanceCounter_writes_only]
    rfl
  · rw [commitPoly_poly_ne _ pd r _ hr, poly_congr (advanceCounter_P s)]
  · rw [commitPoly_poly_self]
    exact coefAt_samplePolyCbd_val (s.prfBytes eta.toNat s.sig s.counter) hi
  · rw [commitPoly_poly_self]
    exact coefAt_samplePolyCbd_range (s.prfBytes eta.toNat s.sig s.counter) hi
  · rw [commitPoly_counter, commitPoly_ctrExh, advanceCounter_of_eq (BitVec.eq_of_toNat_eq h)]
    exact ⟨h, rfl⟩

/-! ### The counter -/

/-- Settles O52: CTR_EXH fails the check of SAMPLE_CBD, and a write to COUNTER clears it. -/
theorem counterExhaustion : Obligations.CounterExhaustion := by
  unfold Obligations.CounterExhaustion
  intro s w c pd eta hidle hexh hd
  obtain ⟨rfl, hwf⟩ := encodeOfDecode w _ hd
  have hidle' : (s.writeCounter c).busy = false := hidle
  have hv : validate (encode (.sampleCbd pd eta)) (s.writeCounter c) = .ok (.sampleCbd pd eta) :=
    (validate_ok_iff _ _ _).mpr ⟨hd, rfl⟩
  exact ⟨perform_cmd_of_stateCheck (e := .counterExhausted) hwf (if_pos hexh) hidle, s.writeCounter c, _,
    perform_write_allowed target_counter (.inl hidle) c, rfl,
    (perform_cmd hidle' _).trans (congrArg _ (issue_of_ok hv)), rfl, rfl⟩

/-- One completed command: COUNTER counts it when it is a SAMPLE_CBD (R189). -/
theorem exec_counter_add_cbdCount {i : Instr} {s t : State} (h : exec i s = .next t)
    (hle : s.counter.toNat + cbdCount [i] ≤ 255) :
    t.counter.toNat = s.counter.toNat + cbdCount [i] ∧ t.ctrExh = s.ctrExh := by
  cases i with
  | sampleCbd pd eta =>
    obtain rfl := Host.Outcome.next.inj h
    exact advanceCounter_of_lt hle
  | _ =>
    obtain ⟨hc, he⟩ := exec_counter_of_not_sampleCbd h nofun
    exact ⟨congrArg BitVec.toNat hc, he⟩

/-- Settles O53, by induction on the list of commands. -/
theorem sequentialCounter : Obligations.SequentialCounter := by
  unfold Obligations.SequentialCounter
  intro is
  induction is with
  | nil => exact fun s _ => ⟨s, rfl, rfl, rfl⟩
  | cons i is ih =>
    intro s hle
    have hcount : cbdCount (i :: is) = cbdCount [i] + cbdCount is := List.countP_append (l₁ := [i])
    rw [hcount] at hle ⊢
    obtain ⟨t, ht⟩ := exec_next i s
    obtain ⟨hc, he⟩ := exec_counter_add_cbdCount ht (by omega)
    obtain ⟨u, hu, huc, hue⟩ := ih t (by omega)
    refine ⟨u, ?_, by omega, hue.trans he⟩
    rw [completeAll, ht]
    exact hu

end Sys2Proof.Machine
end

section
/-!
PROOFS. The constants of the transform engine (spec/43_transform.md R210 to R215) and the base-case products of PMUL
and PMAC (R221 to R223).
-/

namespace Sys2Proof.Machine

/-! ### The tables -/

/-- The closed form of ZETA (R211). -/
theorem zeta_val : ∀ i, i < 128 → (zeta i).val = 17 ^ bitRev7 i % 3329 := by decide

/-- The closed form of GAMMA (R213). -/
theorem gamma_val : ∀ i, i < 128 → (gamma i).val = 17 ^ (2 * bitRev7 i + 1) % 3329 := by decide

/-- 17 has order 256 (R214). -/
theorem seventeen_pow_128 : 17 ^ 128 % 3329 = 3328 := by decide

/-- Settles O54: each of the tables' 256 entries is evaluated. -/
theorem tablesMatchTheirFormulas : Obligations.TablesMatchTheirFormulas := by
  unfold Obligations.TablesMatchTheirFormulas
  have hpairs : ∀ i, i < 64 → (gamma (2 * i + 1)).val = 3329 - (gamma (2 * i)).val := by decide
  have hsquares : ∀ i, i < 128 → (gamma i).val = 17 * (zeta i).val ^ 2 % 3329 := by decide
  exact ⟨zeta_val, gamma_val, hpairs, hsquares, seventeen_pow_128, rfl, rfl⟩

/-! ### Base-case products -/

theorem coefAt_multiplyNtts_even (a b : PolyVal) {i : Nat} (hi : i < 128) :
    coefAt (multiplyNtts a b) (2 * i) = baseMulLow a b i := by
  rw [coefAt_multiplyNtts a b _ (by omega), if_pos (by omega), Nat.mul_div_cancel_left i (by decide)]

theorem coefAt_multiplyNtts_odd (a b : PolyVal) {i : Nat} (hi : i < 128) :
    coefAt (multiplyNtts a b) (2 * i + 1) = baseMulHigh a b i := by
  rw [coefAt_multiplyNtts a b _ (by omega), if_neg (by omega), show (2 * i + 1) / 2 = i by omega]

theorem baseMulLow_val (a b : PolyVal) {i : Nat} (hi : i < 128) : (baseMulLow a b i).val =
    ((coefAt a (2 * i)).val * (coefAt b (2 * i)).val +
      (coefAt a (2 * i + 1)).val * (coefAt b (2 * i + 1)).val * 17 ^ (2 * bitRev7 i + 1)) % 3329 := by
  rw [baseMulLow, reduceNat_val, gamma_val i hi, Nat.add_mod, Nat.mul_mod_mod, ← Nat.add_mod]

theorem baseMulHigh_val (a b : PolyVal) (i : Nat) : (baseMulHigh a b i).val =
    ((coefAt a (2 * i)).val * (coefAt b (2 * i + 1)).val +
      (coefAt a (2 * i + 1)).val * (coefAt b (2 * i)).val) % 3329 := rfl

/-- Settles O56: the value committed is the 128 base-case products, or their sum with the old PD. -/
theorem pmulPmacEffect : Obligations.PmulPmacEffect := by
  unfold Obligations.PmulPmacEffect
  refine ⟨encodingErrors_of_row .pmul (by decide) fun _ _ => trivial,
    encodingErrors_of_row .pmac (by decide) fun _ _ => trivial, fun s pd pa pb => ⟨?_, ?_⟩⟩
  · refine ⟨_, rfl, commitPoly_commitsOnly s pd _, fun i hi => ?_⟩
    rw [commitPoly_poly_self, coefAt_multiplyNtts_even _ _ hi, coefAt_multiplyNtts_odd _ _ hi]
    exact ⟨baseMulLow_val _ _ hi, baseMulHigh_val _ _ i⟩
  · refine ⟨_, rfl, commitPoly_commitsOnly s pd _, fun i hi => ?_⟩
    rw [commitPoly_poly_self, coefAt_polyAdd_val _ _ (by omega), coefAt_polyAdd_val _ _ (by omega),
      coefAt_multiplyNtts_even _ _ hi, coefAt_multiplyNtts_odd _ _ hi, baseMulLow_val _ _ hi, baseMulHigh_val]
    exact ⟨Nat.add_mod_mod _ _ _, Nat.add_mod_mod _ _ _⟩

end Sys2Proof.Machine
end

section
/-!
PROOFS. The levels of the two transforms in the ring of the residues mod 3329 (spec/43_transform.md R216 to R220): a
level is linear, and a level of one transform undoes the level of the same length of the other up to the factor 2.
-/

namespace Sys2Proof.Machine

open Fin.CommRing

/-! ### The two halves of a block -/

section
variable {len b r : Nat} (hlen : len ∈ levelLengths) (hb : b < 128 / len) (hr : r < len)
include hlen hb hr

theorem position_lt : 2 * len * b + r + len < 256 := by
  have hblock : 2 * len * (b + 1) ≤ 2 * len * (128 / len) := Nat.mul_le_mul_left _ hb
  rw [(level_divides hlen).2, Nat.mul_succ] at hblock
  omega

theorem coefAt_nttLevel_lower (i : Nat) (g : PolyVal) :
    coefAt (nttLevel len i g) (2 * len * b + r) =
      coefAt g (2 * len * b + r) + zeta (i + b) * coefAt g (2 * len * b + r + len) := by
  have hlt := position_lt hlen hb hr
  obtain ⟨hdiv, hmod⟩ := block_position len b (2 * len * b + r) (by omega) (by omega)
  obtain ⟨hpos, hall⟩ := level_divides hlen
  rw [coefAt_nttLevel len i g hpos hall _ (by omega), nttLevelCoef, if_pos (by omega), hdiv, addq_eq_add,
    mulq_eq_mul]

theorem coefAt_nttLevel_upper (i : Nat) (g : PolyVal) :
    coefAt (nttLevel len i g) (2 * len * b + r + len) =
      coefAt g (2 * len * b + r) - zeta (i + b) * coefAt g (2 * len * b + r + len) := by
  have hlt := position_lt hlen hb hr
  obtain ⟨hdiv, hmod⟩ := block_position len b (2 * len * b + r + len) (by omega) (by omega)
  obtain ⟨hpos, hall⟩ := level_divides hlen
  rw [coefAt_nttLevel len i g hpos hall _ hlt, nttLevelCoef, if_neg (by omega), hdiv, subq_eq_sub, mulq_eq_mul,
    Nat.add_sub_cancel]

theorem coefAt_inttLevel_lower (i : Nat) (f : PolyVal) :
    coefAt (inttLevel len i f) (2 * len * b + r) =
      coefAt f (2 * len * b + r) + coefAt f (2 * len * b + r + len) := by
  have hlt := position_lt hlen hb hr
  obtain ⟨-, hmod⟩ := block_position len b (2 * len * b + r) (by omega) (by omega)
  obtain ⟨hpos, hall⟩ := level_divides hlen
  rw [coefAt_inttLevel len i f hpos hall _ (by omega), inttLevelCoef, if_pos (by omega), addq_eq_add]

theorem coefAt_inttLevel_upper (i : Nat) (f : PolyVal) :
    coefAt (inttLevel len i f) (2 * len * b + r + len) =
      zeta (i - b) * (coefAt f (2 * len * b + r + len) - coefAt f (2 * len * b + r)) := by
  have hlt := position_lt hlen hb hr
  obtain ⟨hdiv, hmod⟩ := block_position len b (2 * len * b + r + len) (by omega) (by omega)
  obtain ⟨hpos, hall⟩ := level_divides hlen
  rw [coefAt_inttLevel len i f hpos hall _ hlt, inttLevelCoef, if_neg (by omega), hdiv, mulq_eq_mul, subq_eq_sub,
    Nat.add_sub_cancel]

end

/-- Every coefficient stands in the lower or in the upper half of one block of a level. -/
theorem poly_ext_of_level {len : Nat} (hlen : len ∈ levelLengths) {f g : PolyVal}
    (h : ∀ b r, b < 128 / len → r < len →
      coefAt f (2 * len * b + r) = coefAt g (2 * len * b + r) ∧
      coefAt f (2 * len * b + r + len) = coefAt g (2 * len * b + r + len)) : f = g := by
  obtain ⟨hpos, hall⟩ := level_divides hlen
  refine poly_ext fun x hx => ?_
  have hsplit := Nat.div_add_mod x (2 * len)
  have hmod : x % (2 * len) < 2 * len := Nat.mod_lt x (by omega)
  have hb : x / (2 * len) < 128 / len := Nat.div_lt_of_lt_mul (by omega)
  by_cases hr : x % (2 * len) < len
  · have hlower := (h _ _ hb hr).1
    rwa [hsplit] at hlower
  · have hupper := (h _ (x % (2 * len) - len) hb (by omega)).2
    rwa [show 2 * len * (x / (2 * len)) + (x % (2 * len) - len) + len = x by omega] at hupper

/-! ### Scaling -/

/-- The polynomial value with every coefficient multiplied by `c`. -/
def scale (c : Coef) (f : PolyVal) : PolyVal := mkPoly fun j => c * coefAt f j

theorem coefAt_of_le {f : PolyVal} {j : Nat} (h : 256 ≤ j) : coefAt f j = 0 := by
  simp [coefAt, h]

theorem coefAt_scale (c : Coef) (f : PolyVal) (j : Nat) : coefAt (scale c f) j = c * coefAt f j := by
  by_cases hj : j < 256
  · exact coefAt_mkPoly _ j hj
  · rw [coefAt_of_le (by omega), coefAt_of_le (by omega), mul_zero]

theorem scale_scale (a b : Coef) (f : PolyVal) : scale a (scale b f) = scale (a * b) f :=
  poly_ext fun j _ => by simp only [coefAt_scale, mul_assoc]

theorem scale_one (f : PolyVal) : scale 1 f = f :=
  poly_ext fun j _ => by rw [coefAt_scale, one_mul]

theorem scale_zero (f : PolyVal) : scale 0 f = polyZero :=
  poly_ext fun j hj => by rw [coefAt_scale, polyZero, coefAt_mkPoly _ j hj, zero_mul]

theorem nttLevel_scale {len : Nat} (hlen : len ∈ levelLengths) (i : Nat) (c : Coef) (f : PolyVal) :
    nttLevel len i (scale c f) = scale c (nttLevel len i f) := by
  refine poly_ext_of_level hlen fun b r hb hr => ⟨?_, ?_⟩
  · simp only [coefAt_scale, coefAt_nttLevel_lower hlen hb hr]
    ring
  · simp only [coefAt_scale, coefAt_nttLevel_upper hlen hb hr]
    ring

theorem inttLevel_scale {len : Nat} (hlen : len ∈ levelLengths) (i : Nat) (c : Coef) (f : PolyVal) :
    inttLevel len i (scale c f) = scale c (inttLevel len i f) := by
  refine poly_ext_of_level hlen fun b r hb hr => ⟨?_, ?_⟩
  · simp only [coefAt_scale, coefAt_inttLevel_lower hlen hb hr]
    ring
  · simp only [coefAt_scale, coefAt_inttLevel_upper hlen hb hr]
    ring

theorem ntt_scale (c : Coef) (f : PolyVal) : ntt (scale c f) = scale c (ntt f) := by
  simp (disch := decide) only [ntt_levels, nttLevel_scale]

theorem inttLevels_scale (c : Coef) (f : PolyVal) : inttLevels (scale c f) = scale c (inttLevels f) := by
  simp (disch := decide) only [inttLevels_levels, inttLevel_scale]

theorem nttInv_eq_scale (f : PolyVal) : nttInv f = scale inv128 (inttLevels f) :=
  poly_ext fun j hj => by rw [coefAt_nttInv f j hj, coefAt_scale, mulq_eq_mul, mul_comm]

theorem nttInv_scale (c : Coef) (f : PolyVal) : nttInv (scale c f) = scale c (nttInv f) := by
  rw [nttInv_eq_scale, nttInv_eq_scale, inttLevels_scale, scale_scale, scale_scale, mul_comm]

/-! ### NTT and INTT as commands -/

/-- R217: the transform is linear, so it takes 0 to 0. -/
theorem ntt_polyZero : ntt polyZero = polyZero := by
  rw [← scale_zero polyZero, ntt_scale, scale_zero, scale_zero]

theorem nttInv_polyZero : nttInv polyZero = polyZero := by
  rw [← scale_zero polyZero, nttInv_scale, scale_zero, scale_zero]

/-- Settles O55: the value committed is the transform of the old PA, and the transforms are linear. -/
theorem nttInttEffect : Obligations.NttInttEffect := by
  unfold Obligations.NttInttEffect
  refine ⟨fun s pd pa => ⟨?_, ?_⟩, ntt_polyZero, nttInv_polyZero,
    encodingErrors_of_row .ntt (by decide) fun _ _ => trivial,
    encodingErrors_of_row .intt (by decide) fun _ _ => trivial⟩
  · exact ⟨_, rfl, commitPoly_commitsOnly s pd _, commitPoly_poly_self s pd _⟩
  · exact ⟨_, rfl, commitPoly_commitsOnly s pd _, commitPoly_poly_self s pd _⟩

/-! ### The inverse law -/

/-- The twiddle factors that block `b` takes in the two levels of one length: the inverse transform reads ZETA
downwards, and meets in it minus the inverse of the forward factor. -/
theorem zeta_mul_zeta_mirror : ∀ len ∈ levelLengths, ∀ b, b < 128 / len →
    zeta (2 * (128 / len) - 1 - b) * zeta (128 / len + b) = -1 := by decide

section
variable {len i j : Nat} (hlen : len ∈ levelLengths) (hi : i = 128 / len) (hj : j = 2 * i - 1)
include hlen hi hj

theorem inttLevel_nttLevel (f : PolyVal) : inttLevel len j (nttLevel len i f) = scale 2 f := by
  subst hi hj
  refine poly_ext_of_level hlen fun b r hb hr => ?_
  have hz := zeta_mul_zeta_mirror len hlen b hb
  rw [coefAt_inttLevel_lower hlen hb hr, coefAt_inttLevel_upper hlen hb hr, coefAt_nttLevel_lower hlen hb hr,
    coefAt_nttLevel_upper hlen hb hr, coefAt_scale, coefAt_scale]
  constructor
  · ring
  · linear_combination (-2 * coefAt f (2 * len * b + r + len)) * hz

theorem nttLevel_inttLevel (f : PolyVal) : nttLevel len i (inttLevel len j f) = scale 2 f := by
  subst hi hj
  refine poly_ext_of_level hlen fun b r hb hr => ?_
  have hz := zeta_mul_zeta_mirror len hlen b hb
  rw [coefAt_nttLevel_lower hlen hb hr, coefAt_nttLevel_upper hlen hb hr, coefAt_inttLevel_lower hlen hb hr,
    coefAt_inttLevel_upper hlen hb hr, coefAt_scale, coefAt_scale]
  constructor
  · linear_combination (coefAt f (2 * len * b + r + len) - coefAt f (2 * len * b + r)) * hz
  · linear_combination -(coefAt f (2 * len * b + r + len) - coefAt f (2 * len * b + r)) * hz

end

/-- The seven factors 2 of the levels make up 128. -/
theorem inttLevels_ntt (f : PolyVal) : inttLevels (ntt f) = scale 128 f := by
  simp (disch := decide) only [inttLevels_levels, ntt_levels, inttLevel_nttLevel, inttLevel_scale, scale_scale]
  rfl

theorem ntt_inttLevels (f : PolyVal) : ntt (inttLevels f) = scale 128 f := by
  simp (disch := decide) only [inttLevels_levels, ntt_levels, nttLevel_inttLevel, nttLevel_scale, scale_scale]
  rfl

theorem inv128_mul_128 : inv128 * 128 = 1 := rfl

theorem nttInv_ntt (f : PolyVal) : nttInv (ntt f) = f := by
  rw [nttInv_eq_scale, inttLevels_ntt, scale_scale, inv128_mul_128, scale_one]

theorem ntt_nttInv (f : PolyVal) : ntt (nttInv f) = f := by
  rw [nttInv_eq_scale, ntt_scale, ntt_inttLevels, scale_scale, inv128_mul_128, scale_one]

/-- Settles O58: the levels cancel in pairs up to the factor 2 each, and INV128 cancels the factors. -/
theorem transformInverseLaw : Obligations.TransformInverseLaw := by
  unfold Obligations.TransformInverseLaw
  exact fun f => ⟨nttInv_ntt f, ntt_nttInv f⟩

end Sys2Proof.Machine
end

section
/-!
PROOFS. The forward transform as reduction (spec/43_transform.md R213, R216, R221): a level takes the remainder by
`X^(2·len) - z²` in each block to the remainders by `X^len - z` and `X^len + z`, from `X^256 + 1` down to the 128
polynomials `X² - GAMMA[i]`.
-/

namespace Sys2Proof.Machine

/-! ### Remainders by `X^L - w` -/

section
variable {R : Type} [CommRing R]

/-- Coefficient `r` of the remainder of `F`, a polynomial of `L · n` coefficients, by `X^L - w`. -/
def remainderSum (F : Nat → R) (n L : Nat) (w : R) (r : Nat) : R :=
  ∑ m ∈ Finset.range n, F (L * m + r) * w ^ m

theorem remainderSum_congr {F F' : Nat → R} {n L : Nat} {w : R} {r : Nat} (hr : r < L)
    (h : ∀ k, k < L * n → F k = F' k) : remainderSum F n L w r = remainderSum F' n L w r := by
  refine Finset.sum_congr rfl fun m hm => ?_
  have hm : L * (m + 1) ≤ L * n := Nat.mul_le_mul_left _ (Finset.mem_range.mp hm)
  rw [Nat.mul_succ] at hm
  rw [h _ (by omega)]

theorem sum_range_two_mul (F : Nat → R) (n : Nat) : ∑ m ∈ Finset.range (2 * n), F m =
    ∑ m ∈ Finset.range n, F (2 * m) + ∑ m ∈ Finset.range n, F (2 * m + 1) := by
  induction n with
  | zero => simp
  | succ n ih =>
    simp only [Nat.mul_succ, Finset.sum_range_succ, ih]
    ring

/-- The remainder by `X^L - z` is got from the one by `X^(2·L) - z²`. -/
theorem remainderSum_split (F : Nat → R) (n L : Nat) (z : R) (r : Nat) :
    remainderSum F (2 * n) L z r =
      remainderSum F n (2 * L) (z ^ 2) r + z * remainderSum F n (2 * L) (z ^ 2) (r + L) := by
  simp only [remainderSum]
  rw [sum_range_two_mul, Finset.mul_sum]
  congr 1
  · refine Finset.sum_congr rfl fun m _ => ?_
    rw [pow_mul, mul_assoc, mul_left_comm]
  · refine Finset.sum_congr rfl fun m _ => ?_
    rw [pow_succ, pow_mul, show L * (2 * m + 1) + r = 2 * L * m + (r + L) by ring]
    ring

end

open Fin.CommRing

/-! ### The polynomials of the levels -/

/-- The constants `w` of the polynomials `X^L - w`, as a binary tree: node `j` has the children `2j` and `2j + 1`, a
level of `n` blocks has the nodes from `n` to `2n - 1`, and a block's twiddle factor `z` gives its two halves the
constants `z` and `-z`. -/
def blockRoot (j : Nat) : Coef := if j % 2 = 0 then zeta (j / 2) else -zeta (j / 2)

theorem blockRoot_even (j : Nat) : blockRoot (2 * j) = zeta j := by
  rw [blockRoot, if_pos (by omega), Nat.mul_div_cancel_left j (by decide)]

theorem blockRoot_odd (j : Nat) : blockRoot (2 * j + 1) = -zeta j := by
  rw [blockRoot, if_neg (by omega), show (2 * j + 1) / 2 = j by omega]

/-- A block's twiddle factor is a square root of the block's constant. -/
theorem zeta_sq : ∀ j, j < 128 → 0 < j → zeta j ^ 2 = blockRoot j := by decide

/-- The leaves of the tree are the base-case constants (R213). -/
theorem blockRoot_leaf : ∀ i, i < 128 → blockRoot (128 + i) = gamma i := by decide

/-! ### The levels -/

/-- `g` holds, in `n` blocks of `L` coefficients, the remainders of `f` by the polynomials of that level. -/
def ReducedTo (f g : PolyVal) (n L : Nat) : Prop :=
  ∀ b r, b < n → r < L → coefAt g (L * b + r) = remainderSum (coefAt f) n L (blockRoot (n + b)) r

theorem blockCount_bounds {len : Nat} (hlen : len ∈ levelLengths) : 0 < 128 / len ∧ 128 / len ≤ 64 := by
  revert len
  decide

theorem reducedTo_nttLevel {len n : Nat} (hlen : len ∈ levelLengths) (hn : n = 128 / len) {f g : PolyVal}
    (h : ReducedTo f g n (2 * len)) : ReducedTo f (nttLevel len n g) (2 * n) len := by
  obtain ⟨hpos, hle⟩ := blockCount_bounds hlen
  rw [← hn] at hpos hle
  have hroot (b : Nat) (hb : b < n) : zeta (n + b) ^ 2 = blockRoot (n + b) := zeta_sq _ (by omega) (by omega)
  intro c r hc hr
  obtain ⟨b, rfl | rfl⟩ := Nat.even_or_odd' c
  · have hb : b < n := by omega
    rw [show len * (2 * b) + r = 2 * len * b + r by ring, show 2 * n + 2 * b = 2 * (n + b) by ring,
      coefAt_nttLevel_lower hlen (hn ▸ hb) hr, blockRoot_even, remainderSum_split, hroot b hb,
      ← h b r hb (by omega), ← h b (r + len) hb (by omega), Nat.add_assoc]
  · have hb : b < n := by omega
    rw [show len * (2 * b + 1) + r = 2 * len * b + r + len by ring,
      show 2 * n + (2 * b + 1) = 2 * (n + b) + 1 by ring, coefAt_nttLevel_upper hlen (hn ▸ hb) hr, blockRoot_odd,
      remainderSum_split, neg_sq, hroot b hb, ← h b r hb (by omega), ← h b (r + len) hb (by omega), Nat.add_assoc,
      neg_mul, sub_eq_add_neg]

/-- Before the first level: `f` is its own remainder by `X^256 + 1`. -/
theorem reducedTo_self (f : PolyVal) : ReducedTo f f 1 256 := by
  intro b r hb _
  obtain rfl : b = 0 := by omega
  simp [remainderSum]

theorem reducedTo_ntt (f : PolyVal) : ReducedTo f (ntt f) 128 2 := by
  rw [ntt_levels]
  have h128 := reducedTo_nttLevel (len := 128) (by decide) rfl (reducedTo_self f)
  have h64 := reducedTo_nttLevel (len := 64) (by decide) rfl h128
  have h32 := reducedTo_nttLevel (len := 32) (by decide) rfl h64
  have h16 := reducedTo_nttLevel (len := 16) (by decide) rfl h32
  have h8 := reducedTo_nttLevel (len := 8) (by decide) rfl h16
  have h4 := reducedTo_nttLevel (len := 4) (by decide) rfl h8
  exact reducedTo_nttLevel (len := 2) (by decide) rfl h4

/-- Coefficients `2i` and `2i + 1` of NTT(f) are the remainder of `f` by `X² - GAMMA[i]`. -/
theorem coefAt_ntt_eq_remainderSum (f : PolyVal) {i r : Nat} (hi : i < 128) (hr : r < 2) :
    coefAt (ntt f) (2 * i + r) = remainderSum (coefAt f) 128 2 (gamma i) r := by
  rw [reducedTo_ntt f i r hi hr, blockRoot_leaf i hi]

/-! ### From residues to numbers -/

theorem sum_map_range {M : Type} [AddCommMonoid M] (F : Nat → M) (n : Nat) :
    ((List.range n).map F).sum = ∑ j ∈ Finset.range n, F j := rfl

theorem gamma_eq_natCast {i : Nat} (hi : i < 128) : gamma i = ((17 ^ (2 * bitRev7 i + 1) : Nat) : Coef) :=
  Fin.ext (gamma_val i hi)

theorem remainderSum_gamma_val (f : PolyVal) {i : Nat} (hi : i < 128) (n r : Nat) :
    (remainderSum (coefAt f) n 2 (gamma i) r).val =
      ((List.range n).map fun j => (coefAt f (2 * j + r)).val * (17 ^ (2 * bitRev7 i + 1)) ^ j).sum % 3329 := by
  rw [sum_map_range, ← Fin.val_natCast, Nat.cast_sum, remainderSum, gamma_eq_natCast hi]
  simp only [Nat.cast_mul, Nat.cast_pow, Fin.cast_val_eq_self]

/-- Settles O57, by the remainders that each level leaves. -/
theorem nttReducesModBaseCases : Obligations.NttReducesModBaseCases := by
  unfold Obligations.NttReducesModBaseCases
  intro f i hi
  have hcoef (r : Nat) (hr : r < 2) := congrArg Fin.val (coefAt_ntt_eq_remainderSum f hi hr)
  exact ⟨(hcoef 0 (by decide)).trans (remainderSum_gamma_val f hi 128 0),
    (hcoef 1 (by decide)).trans (remainderSum_gamma_val f hi 128 1)⟩

end Sys2Proof.Machine
end

section
/-!
PROOFS. The convolution law (spec/43_transform.md R224). When `γ^n = -1`, the class `ω` of `X` in `R[X]/(X² - γ)` has
`ω^(2n) = -1`, so the remainder by `X² - γ` of a product mod `X^(2n) + 1` is the base-case product of the factors'
remainders. The transform gives these remainders, and the inverse law undoes it.
-/

namespace Sys2Proof.Machine

/-! ### The product mod `X^N + 1` in any ring -/

section
variable {R : Type} [CommRing R]

/-- Coefficient `k` of the product of `F` and `G`, of `N` coefficients each, mod `X^N + 1`. -/
def negacyclicSum (F G : Nat → R) (N k : Nat) : R :=
  ∑ i ∈ Finset.range N, if i ≤ k then F i * G (k - i) else -(F i * G (k + N - i))

/-- `x^i` times a polynomial in `x`: when `x^N = -1`, the terms past `x^(N-1)` come back from `x^0` on, negated. -/
theorem sum_shift_eq_pow_mul {x : R} {i m : Nat} (hx : x ^ (i + m) = -1) (G : Nat → R) :
    ∑ k ∈ Finset.range (i + m), (if i ≤ k then G (k - i) else -G (k + (i + m) - i)) * x ^ k =
      x ^ i * ∑ j ∈ Finset.range (m + i), G j * x ^ j := by
  rw [Finset.sum_range_add, Finset.sum_range_add, mul_add, add_comm, Finset.mul_sum, Finset.mul_sum]
  congr 1
  · refine Finset.sum_congr rfl fun k _ => ?_
    rw [if_pos (by omega), Nat.add_sub_cancel_left, pow_add]
    ring
  · refine Finset.sum_congr rfl fun k hk => ?_
    have hk := Finset.mem_range.mp hk
    have hwrap : x ^ i * x ^ (m + k) = -x ^ k := by rw [← pow_add, ← Nat.add_assoc, pow_add, hx, neg_one_mul]
    rw [if_neg (by omega), show k + (i + m) - i = m + k by omega]
    linear_combination -G (m + k) * hwrap

/-- At an `x` with `x^N = -1`, the product mod `X^N + 1` has the product of the values. -/
theorem sum_negacyclicSum_mul_pow {x : R} {N : Nat} (hx : x ^ N = -1) (F G : Nat → R) :
    ∑ k ∈ Finset.range N, negacyclicSum F G N k * x ^ k =
      (∑ i ∈ Finset.range N, F i * x ^ i) * ∑ j ∈ Finset.range N, G j * x ^ j := by
  simp only [negacyclicSum, Finset.sum_mul]
  rw [Finset.sum_comm]
  refine Finset.sum_congr rfl fun i hi => ?_
  obtain ⟨m, rfl⟩ := Nat.exists_eq_add_of_le (Finset.mem_range.mp hi).le
  rw [mul_assoc, Nat.add_comm i m, ← sum_shift_eq_pow_mul hx G, Nat.add_comm m i, Finset.mul_sum]
  refine Finset.sum_congr rfl fun k _ => ?_
  rw [← mul_assoc, mul_ite, mul_neg]

/-! ### Values in `R[X]/(X² - γ)` -/

open QuadraticAlgebra

/-- The value of the polynomial `F`, of `2 · n` coefficients, at the class of `X` in `R[X]/(X² - γ)`. -/
def evalQuad (γ : R) (F : Nat → R) (n : Nat) : QuadraticAlgebra R γ 0 :=
  ∑ j ∈ Finset.range (2 * n), algebraMap R (QuadraticAlgebra R γ 0) (F j) * ω ^ j

theorem omega_pow_two_mul (γ : R) (j : Nat) :
    (ω : QuadraticAlgebra R γ 0) ^ (2 * j) = algebraMap R (QuadraticAlgebra R γ 0) (γ ^ j) := by
  have hsq : (ω : QuadraticAlgebra R γ 0) ^ 2 = algebraMap R (QuadraticAlgebra R γ 0) γ := by
    ext <;> simp [pow_two]
  rw [pow_mul, hsq, map_pow]

/-- The value's two components are the remainder by `X² - γ`. -/
theorem evalQuad_eq (γ : R) (F : Nat → R) (n : Nat) :
    evalQuad γ F n = ⟨remainderSum F n 2 γ 0, remainderSum F n 2 γ 1⟩ := by
  have hsum : evalQuad γ F n =
      algebraMap R _ (remainderSum F n 2 γ 0) + algebraMap R _ (remainderSum F n 2 γ 1) * ω := by
    rw [evalQuad, sum_range_two_mul, remainderSum, remainderSum, map_sum, map_sum, Finset.sum_mul]
    congr 1
    · refine Finset.sum_congr rfl fun j _ => ?_
      rw [omega_pow_two_mul, map_mul, Nat.add_zero]
    · refine Finset.sum_congr rfl fun j _ => ?_
      rw [pow_succ, omega_pow_two_mul, map_mul, mul_assoc]
  rw [hsum]
  ext <;> simp

section
variable {γ : R} {n : Nat} (hγ : γ ^ n = -1) (F G : Nat → R)
include hγ

theorem evalQuad_negacyclicSum :
    evalQuad γ (negacyclicSum F G (2 * n)) n = evalQuad γ F n * evalQuad γ G n := by
  have hω : (ω : QuadraticAlgebra R γ 0) ^ (2 * n) = -1 := by rw [omega_pow_two_mul, hγ, map_neg, map_one]
  simp only [evalQuad]
  rw [← sum_negacyclicSum_mul_pow hω]
  refine Finset.sum_congr rfl fun k _ => congrArg (· * ω ^ k) ?_
  rw [negacyclicSum, negacyclicSum, map_sum]
  refine Finset.sum_congr rfl fun i _ => ?_
  rw [apply_ite (algebraMap R (QuadraticAlgebra R γ 0)), map_neg, map_mul, map_mul]

/-- The remainder by `X² - γ` of a product mod `X^(2n) + 1` is the base-case product of the remainders. -/
theorem remainderSum_negacyclicSum :
    remainderSum (negacyclicSum F G (2 * n)) n 2 γ 0 =
      remainderSum F n 2 γ 0 * remainderSum G n 2 γ 0 + remainderSum F n 2 γ 1 * remainderSum G n 2 γ 1 * γ ∧
    remainderSum (negacyclicSum F G (2 * n)) n 2 γ 1 =
      remainderSum F n 2 γ 0 * remainderSum G n 2 γ 1 + remainderSum F n 2 γ 1 * remainderSum G n 2 γ 0 := by
  have h := evalQuad_negacyclicSum hγ F G
  simp only [evalQuad_eq, mk_mul_mk, QuadraticAlgebra.mk.injEq] at h
  obtain ⟨hre, him⟩ := h
  constructor
  · rw [hre]
    ring
  · rw [him]
    ring

end

end

open Fin.CommRing

/-! ### The block's product -/

theorem gamma_pow_128 {i : Nat} (hi : i < 128) : gamma i ^ 128 = -1 := by
  have hroot : ((17 ^ 128 : Nat) : Coef) = -1 := Fin.ext seventeen_pow_128
  calc gamma i ^ 128 = ((17 ^ 128 : Nat) : Coef) ^ (2 * bitRev7 i + 1) := by
        rw [gamma_eq_natCast hi, ← Nat.cast_pow, ← Nat.cast_pow, pow_right_comm]
    _ = -1 := by rw [hroot, (odd_two_mul_add_one _).neg_one_pow]

theorem reduceNat_eq_natCast (n : Nat) : reduceNat n = (n : Coef) := rfl

theorem reduceInt_eq_intCast (z : Int) : reduceInt z = (z : Coef) := by
  apply Fin.ext
  have h := reduceInt_val z
  rw [Fin.val_intCast]
  omega

theorem baseMulLow_eq (a b : PolyVal) (i : Nat) : baseMulLow a b i =
    coefAt a (2 * i) * coefAt b (2 * i) + coefAt a (2 * i + 1) * coefAt b (2 * i + 1) * gamma i := by
  rw [baseMulLow, reduceNat_eq_natCast]
  simp only [Nat.cast_add, Nat.cast_mul, Fin.cast_val_eq_self]

theorem baseMulHigh_eq (a b : PolyVal) (i : Nat) : baseMulHigh a b i =
    coefAt a (2 * i) * coefAt b (2 * i + 1) + coefAt a (2 * i + 1) * coefAt b (2 * i) := by
  rw [baseMulHigh, reduceNat_eq_natCast]
  simp only [Nat.cast_add, Nat.cast_mul, Fin.cast_val_eq_self]

/-! ### The law -/

/-- The product mod `X^256 + 1`, its integer coefficients reduced mod 3329 (R224). -/
def negacyclicProduct (f g : PolyVal) : PolyVal := mkPoly fun k => reduceInt (negacyclicCoef f g k)

theorem coefAt_negacyclicProduct (f g : PolyVal) {k : Nat} (hk : k < 256) :
    coefAt (negacyclicProduct f g) k = negacyclicSum (coefAt f) (coefAt g) 256 k := by
  rw [negacyclicProduct, coefAt_mkPoly _ k hk, reduceInt_eq_intCast, negacyclicCoef, sum_map_range, Int.cast_sum,
    negacyclicSum]
  refine Finset.sum_congr rfl fun i _ => ?_
  rw [apply_ite (Int.cast : Int → Coef)]
  simp only [Int.cast_neg, Int.cast_mul, Int.cast_natCast, Fin.cast_val_eq_self]

theorem remainderSum_negacyclicProduct (f g : PolyVal) (w : Coef) {r : Nat} (hr : r < 2) :
    remainderSum (coefAt (negacyclicProduct f g)) 128 2 w r =
      remainderSum (negacyclicSum (coefAt f) (coefAt g) (2 * 128)) 128 2 w r :=
  remainderSum_congr hr fun _ hk => coefAt_negacyclicProduct f g hk

/-- The transform of a product is the pointwise product of the transforms. -/
theorem ntt_negacyclicProduct (f g : PolyVal) : ntt (negacyclicProduct f g) = multiplyNtts (ntt f) (ntt g) := by
  refine poly_ext fun j hj => ?_
  obtain ⟨i, hj2⟩ := Nat.even_or_odd' j
  have hi : i < 128 := by omega
  obtain ⟨heven, hodd⟩ := remainderSum_negacyclicSum (gamma_pow_128 hi) (coefAt f) (coefAt g)
  have hlow (h : PolyVal) : coefAt (ntt h) (2 * i) = remainderSum (coefAt h) 128 2 (gamma i) 0 :=
    coefAt_ntt_eq_remainderSum h hi (r := 0) (by decide)
  have hhigh (h : PolyVal) : coefAt (ntt h) (2 * i + 1) = remainderSum (coefAt h) 128 2 (gamma i) 1 :=
    coefAt_ntt_eq_remainderSum h hi (r := 1) (by decide)
  rcases hj2 with rfl | rfl
  · rw [coefAt_multiplyNtts_even _ _ hi, baseMulLow_eq, hlow f, hlow g, hhigh f, hhigh g, ← heven,
      hlow (negacyclicProduct f g), remainderSum_negacyclicProduct f g _ (by decide)]
  · rw [coefAt_multiplyNtts_odd _ _ hi, baseMulHigh_eq, hlow f, hlow g, hhigh f, hhigh g, ← hodd,
      hhigh (negacyclicProduct f g), remainderSum_negacyclicProduct f g _ (by decide)]

/-- Settles O59: the pointwise product is the transform of the product, which the inverse law gives back. -/
theorem convolutionLaw : Obligations.ConvolutionLaw := by
  unfold Obligations.ConvolutionLaw
  intro f g k hk
  rw [← ntt_negacyclicProduct, nttInv_ntt, negacyclicProduct, coefAt_mkPoly _ k hk, reduceInt_val]

end Sys2Proof.Machine
end

section
/-!
PROOFS. Errors and the life of a command (spec/60_exceptions.md R250 to R264): what an access that raises an error
leaves alone, the order of its checks and of an issue's, and how acceptance, rejection, abort and completion end.
-/

namespace Sys2Proof.Machine

/-! ### Recording an error -/

theorem raise_eq (s : State) (e : ErrorCode) :
    s.raise e = { s with err := true, errcode := if s.err = false then e.bits else s.errcode } := by
  cases h : s.err <;> simp [State.raise, h]

/-- Settles O20: `raise_eq` says what is kept, and a STATUS write of bit 2 alone clears the record. -/
theorem firstErrorIsKept : Obligations.FirstErrorIsKept := by
  unfold Obligations.FirstErrorIsKept
  refine ⟨raise_eq, fun s e e' h => ?_, fun s => perform_write_allowed target_status (.inr rfl) 0x4#32,
    rfl, rfl, rfl, rfl, rfl, rfl, rfl⟩
  rw [raise_errcode, raise_err, if_pos rfl, raise_errcode, if_neg (by rw [h]; decide)]

/-! ### Precision: what an access that raises an error leaves alone (R253) -/

section
variable {s : State} (hs : s.err = false)
include hs

theorem accept_err_ne (w : Word) (i : Instr) : (s.accept w i).err ≠ true := by
  rw [accept_err, hs]
  decide

/-- A CTRL write without ABORT raises no error. -/
theorem writeCtrl_err_ne {w : Word} (hw : w.getLsbD 1 = false) : (s.writeCtrl w).err ≠ true := by
  rcases writeCtrl_cases s w with ⟨-, he⟩ | ⟨-, h1, -, -⟩ | ⟨-, -, he⟩
  · rw [he]; exact nofun
  · rw [hw] at h1; cases h1
  · rw [he, hs]; decide

theorem writeStatus_err_ne (w : Word) : (s.writeStatus w).err ≠ true := by
  rw [writeStatus_err, hs, ite_self]
  decide

/-- A write to a location that raises an error, an ABORT apart, does nothing but record it; or it is a CMD write,
and the error rejects the command. -/
theorem writeLoc_of_err {w : Word} {l : Loc} (ht : (s.writeLoc w l).err = true)
    (hctrl : l = .ctrl → w.getLsbD 1 = false) :
    (∃ e, s.writeLoc w l = s.raise e) ∨ (l = .cmd ∧ ∃ e, s.writeLoc w l = s.reject e) := by
  cases l with
  | id | errcode | xofBytes | zeta _ | gamma _ => exact .inl ⟨_, rfl⟩
  | ctrl => exact absurd ht (writeCtrl_err_ne hs (hctrl rfl))
  | status => exact absurd ht (writeStatus_err_ne hs w)
  | cmd =>
    rcases issue_cases s w with ⟨i, -, -, he⟩ | ⟨e, -, he⟩
    · exact absurd ((congrArg State.err he).symm.trans ht) (accept_err_ne hs w i)
    · exact .inr ⟨rfl, e, he⟩
  | poly p j =>
    rcases writeCoef_cases s p j w with ⟨-, he⟩ | ⟨-, he⟩
    · exact absurd (hs.symm.trans ((congrArg State.err he).symm.trans ht)) nofun
    · exact .inl ⟨_, he⟩
  | irqEn | counter | seedRho _ | seedPrf _ | buf _ => exact absurd (hs.symm.trans ht) nofun

theorem hostWrite_of_err {bits off : Nat} {w : Word} (ht : (s.hostWrite bits off w).err = true)
    (hctrl : bits = 32 → off = 0x04 → w.getLsbD 1 = false) :
    (∃ e, s.hostWrite bits off w = s.raise e) ∨
      (bits = 32 ∧ off = 0x14 ∧ ∃ e, s.hostWrite bits off w = s.reject e) := by
  rcases hostWrite_cases s bits off w with ⟨-, he⟩ | ⟨l, -, -, -, he⟩ | ⟨l, hl, -, he⟩
  · exact .inl ⟨_, he⟩
  · exact .inl ⟨_, he⟩
  · obtain ⟨hbits, hoff⟩ := target_offset hl
    rw [he] at ht ⊢
    rcases writeLoc_of_err hs ht fun h => hctrl hbits (by rw [hoff, h]; rfl) with hr | ⟨rfl, hr⟩
    · exact .inl hr
    · exact .inr ⟨hbits, hoff, hr⟩

theorem hostRead_of_err {bits off : Nat} (ht : (s.hostRead bits off).err = true) :
    ∃ e, s.hostRead bits off = s.failRead e := by
  rcases hostRead_cases s bits off with ⟨-, he⟩ | ⟨l, -, -, -, he⟩ | ⟨l, -, -, he⟩
  · exact ⟨_, he⟩
  · exact ⟨_, he⟩
  · exact absurd (hs.symm.trans ((congrArg State.err he).symm.trans ht)) nofun

end

/-- Settles O21: the access failed its read, recorded its error, or had its command rejected; a reset raises none. -/
theorem errorsChangeNothingElse : Obligations.ErrorsChangeNothingElse := by
  unfold Obligations.ErrorsChangeNothingElse
  intro s t e hengine hs h ht hctrl
  rcases perform_cases h with ⟨bits, off, rfl, -, rfl⟩ | ⟨bits, off, w, rfl, -, rfl⟩ | ⟨n, he, -⟩ |
    ⟨n, i, he, -⟩ | ⟨-, rfl⟩
  · obtain ⟨e, he⟩ := hostRead_of_err hs ht
    rw [he]
    exact ⟨rfl, fun hne => absurd rfl hne, fun _ => ⟨bits, off, rfl⟩⟩
  · have hw : bits = 32 → off = 0x04 → w.getLsbD 1 = false := fun hb ho => hctrl w (by rw [hb, ho])
    rcases hostWrite_of_err hs ht hw with ⟨e, he⟩ | ⟨rfl, rfl, e, he⟩
    · rw [he]
      exact ⟨rfl, fun hne => absurd rfl hne, fun hne => absurd rfl hne⟩
    · rw [he]
      exact ⟨rfl, fun _ => ⟨w, rfl⟩, fun hne => absurd rfl hne⟩
  · exact absurd he (hengine n)
  · exact absurd he (hengine n)
  · cases ht

/-! ### The order of the checks (R260) -/

/-- A write of 3329 or more to the POLY window is a range violation (spec/20_memory.md R70). -/
theorem writeLoc_of_large {bits off : Nat} {l : Loc} (h : target bits off = some l) (hoff : 0x1000 ≤ off)
    {w : Word} (hw : 3329 ≤ w.toNat) (s : State) : s.writeLoc w l = s.raise .rangeViolation := by
  obtain ⟨-, rfl⟩ := target_offset h
  have hl := target_inRange h
  cases l with
  | poly p j => exact if_neg (Nat.not_lt.mpr hw)
  | _ => simp only [Loc.offset, Loc.inRange] at hl hoff; omega

section
variable {off : Nat} {l : Loc} (h : target 32 off = some l)
include h

/-- The checks of a write that reaches a location, in order. -/
theorem perform_write_in_order (s : State) (w : Word) : perform (.write 32 off w) s =
    if s.busy = true ∧ (inWindow off ∨ off = 0x14 ∨ off = 0x18) then .next (s.raise .busyAccess)
    else if off = 0x00 ∨ off = 0x0C ∨ off = 0x1C ∨ (0x600 ≤ off ∧ off ≤ 0x9FC) then .next (s.raise .badAccess)
    else if 0x1000 ≤ off ∧ 3329 ≤ w.toNat then .next (s.raise .rangeViolation)
    else .next (s.writeLoc w l) := by
  have hrefused := busyRefusesWrite_iff h
  split
  next hr => exact perform_write_refused h hr.1 (hrefused.mpr hr.2) w
  next hr =>
    have hok : s.busy = false ∨ busyRefusesWrite l = false := by
      rw [← hrefused, not_and_or, Bool.not_eq_true, Bool.not_eq_true] at hr
      exact hr
    rw [perform_write_allowed h hok]
    split
    next hro => rw [writeLoc_of_readOnly h hro]
    next =>
      split
      next hlarge => rw [writeLoc_of_large h hlarge.1 hlarge.2]
      next => rfl

/-- The checks of a read that reaches a location. -/
theorem perform_read_in_order (s : State) : perform (.read 32 off) s =
    if s.busy = true ∧ inWindow off then .next (s.failRead .busyAccess)
    else .next { s with rdata := s.readLoc l } := by
  have hrefused := busyRefusesRead_iff h
  split
  next hr => exact perform_read_refused h hr.1 (hrefused.mpr hr.2)
  next hr =>
    rw [← hrefused, not_and_or, Bool.not_eq_true, Bool.not_eq_true] at hr
    exact perform_read_allowed h hr rfl

end

theorem validate_of_decode_error {w : Word} {e : DecodeError} (h : decode w = .error e) (s : State) :
    validate w s = .error (decodeErrorCode e) := by
  rw [validate, h]

theorem validate_of_stateCheck {w : Word} {i : Instr} {e : ErrorCode} {s : State} (hd : decode w = .ok i)
    (hc : stateCheck i s = some e) : validate w s = .error e := by
  simp only [validate, hd, hc]

/-- ENCODE with d below 12 and DECOMPRESS check the domain of their source (spec/41_codec.md R157, R163). -/
theorem stateCheck_of_large {i : Instr} {s : State}
    (h : (∃ pa d, i = .encode pa d ∧ d.toNat < 12 ∧ ∃ j, j < 256 ∧ 2 ^ d.toNat ≤ (coefAt (s.poly pa) j).val) ∨
      (∃ pd pa d, i = .decompress pd pa d ∧ ∃ j, j < 256 ∧ 2 ^ d.toNat ≤ (coefAt (s.poly pa) j).val)) :
    stateCheck i s = some .rangeViolation := by
  rcases h with ⟨pa, d, rfl, hd, j, hj, hlarge⟩ | ⟨pd, pa, d, rfl, j, hj, hlarge⟩
  · exact if_pos ⟨hd, allBelow_eq_false hj hlarge⟩
  · rw [stateCheck, widthOf, allBelow_eq_false hj hlarge]
    rfl

/-- A command that none of the three checks on the state concerns passes them. -/
theorem stateCheck_eq_none {i : Instr} {s : State}
    (hcbd : ¬ ((∃ pd eta, i = .sampleCbd pd eta) ∧ s.ctrExh = true))
    (henc : ∀ pa d, i = .encode pa d → d.toNat < 12 → ∀ j, j < 256 → (coefAt (s.poly pa) j).val < 2 ^ d.toNat)
    (hdec : ∀ pd pa d, i = .decompress pd pa d → ∀ j, j < 256 → (coefAt (s.poly pa) j).val < 2 ^ d.toNat) :
    stateCheck i s = none := by
  cases i with
  | sampleCbd pd eta => exact if_neg fun hexh => hcbd ⟨⟨pd, eta, rfl⟩, hexh⟩
  | encode pa d =>
    refine if_neg fun ⟨hd, hfail⟩ => ?_
    have hall := (allBelow_iff (s.poly pa) (2 ^ widthOf d)).mpr (henc pa d rfl hd)
    rw [hfail] at hall
    cases hall
  | decompress pd pa d => exact if_pos ((allBelow_iff _ _).mpr (hdec pd pa d rfl))
  | _ => rfl

/-- Settles O24: an access that reaches no location is a bad access; one that does takes the checks in order; and
an issue is decoded before its command is checked. -/
theorem checksInOrder : Obligations.ChecksInOrder := by
  unfold Obligations.ChecksInOrder
  refine ⟨fun s bits off w hoff => ?_, fun s bits off hoff => ?_, fun s w =>
    ⟨fun h => validate_of_decode_error h s, fun h => validate_of_decode_error h s, fun i hd => ⟨?_, ?_, ?_⟩⟩⟩
  · split
    next h => exact perform_write_bad hoff (target_of_misaligned h) s w
    next h =>
      obtain ⟨rfl, ha⟩ : bits = 32 ∧ off % 4 = 0 := by omega
      cases hl : locate off with
      | none => exact perform_write_bad hoff ((if_pos ⟨rfl, ha⟩).trans hl) s w
      | some l => exact perform_write_in_order (target_of_locate ha hl) s w
  · split
    next h => exact perform_read_bad hoff (target_of_misaligned h) s
    next h =>
      obtain ⟨rfl, ha⟩ : bits = 32 ∧ off % 4 = 0 := by omega
      cases hl : locate off with
      | none => exact perform_read_bad hoff ((if_pos ⟨rfl, ha⟩).trans hl) s
      | some l => exact perform_read_in_order (target_of_locate ha hl) s
  · rintro ⟨⟨pd, eta, rfl⟩, hexh⟩
    exact validate_of_stateCheck hd (if_pos hexh)
  · exact fun h => validate_of_stateCheck hd (stateCheck_of_large h)
  · exact fun hcbd henc hdec => (validate_ok_iff w s i).mpr ⟨hd, stateCheck_eq_none hcbd henc hdec⟩

/-! ### Acceptance, rejection and abort -/

/-- Settles O22: the issue of a word that passes its checks accepts it. -/
theorem issueAccepts : Obligations.IssueAccepts := by
  unfold Obligations.IssueAccepts
  intro s w i hidle hv
  rw [perform_cmd hidle, issue_of_ok hv]
  rfl

/-- Settles O23: the issue of a word that fails a check rejects it. -/
theorem issueRejects : Obligations.IssueRejects := by
  unfold Obligations.IssueRejects
  intro s w e hidle hv
  rw [perform_cmd hidle, issue_of_error hv]
  rfl

/-- Settles O25: R72 refuses a write to CMD. -/
theorem cmdWriteWhileBusy : Obligations.CmdWriteWhileBusy := by
  unfold Obligations.CmdWriteWhileBusy
  exact fun s w hbusy => perform_write_refused target_cmd hbusy rfl w

/-- ABORT to a busy block aborts the pending command (R258). -/
theorem perform_abort_of_busy {s : State} (hbusy : s.busy = true) {w : Word} (h0 : w.getLsbD 0 = false)
    (h1 : w.getLsbD 1 = true) : perform (.write 32 0x04 w) s = .next s.abort := by
  rw [perform_write_allowed target_ctrl (.inr rfl)]
  simp only [State.writeLoc, State.writeCtrl, h0, h1, hbusy, Bool.false_eq_true, and_self, if_false, if_true]

/-- Without SRST a CTRL write to an idle block does nothing (R258). -/
theorem perform_ctrl_of_idle {s : State} (hidle : s.busy = false) {w : Word} (h0 : w.getLsbD 0 = false) :
    perform (.write 32 0x04 w) s = .next s := by
  rw [perform_write_allowed target_ctrl (.inr rfl)]
  simp only [State.writeLoc, State.writeCtrl, h0, hidle, Bool.false_eq_true, and_false, if_false]

/-- Settles O26: an abort while busy, nothing while idle. -/
theorem abortDropsThePendingCommand : Obligations.AbortDropsThePendingCommand := by
  unfold Obligations.AbortDropsThePendingCommand
  exact fun s w h0 h1 => ⟨fun hbusy => perform_abort_of_busy hbusy h0 h1, fun hidle => perform_ctrl_of_idle hidle h0⟩

/-! ### The engine's turn -/

/-- With nothing pending the engine's turn does nothing (log 6). -/
theorem perform_engine_of_none {s : State} (h : s.pending = none) (n : Nat) : perform (.engine n) s = .next s := by
  simp only [perform, engineTurn, h]

/-- A command that completes ends its life (R257). -/
theorem exec_ends_life {i : Instr} {s t : State} (hc : s.Completes i) (h : exec i s = .next t) :
    t.pending = none ∧ t.busy = false ∧ t.done = true := by
  rcases exec_cases h with ⟨-, rfl⟩ | ⟨pd, v, -, rfl⟩ | ⟨pa, d, -, rfl⟩ | ⟨pd, b32, b33, rfl, -⟩ |
    ⟨pd, eta, v, -, rfl⟩
  case inr.inr.inr.inl =>
    rcases execSampleNtt_cases s pd b32 b33 with ⟨-, k, -, -, -, -, he⟩ | ⟨hno, -⟩
    · obtain rfl := Host.Outcome.next.inj (h.symm.trans he)
      exact ⟨rfl, rfl, rfl⟩
    · exact absurd hc hno
  all_goals exact ⟨rfl, rfl, rfl⟩

/-- A completion leaves the error record as it was (R257). -/
theorem exec_error_record {i : Instr} {s t : State} (h : exec i s = .next t) :
    t.err = s.err ∧ t.errcode = s.errcode := by
  obtain ⟨_, _, _, _, _, _, _, _, rfl⟩ := exec_writes_only h
  exact ⟨rfl, rfl⟩

/-- Settles O27: the turn is the pending command's meaning, which ends the command's life unless it is a SAMPLE_NTT
that waits for its stream. -/
theorem engineCompletesPendingCommand : Obligations.EngineCompletesPendingCommand := by
  unfold Obligations.EngineCompletesPendingCommand
  refine ⟨fun s n h => perform_engine_of_none h n, fun s n i h => perform_engine_of_pending h n,
    fun s i hc => ?_, fun s pd b32 b33 h => exec_sampleNtt_of_none (sampleNtt_eq_none _ h)⟩
  obtain ⟨t, ht⟩ := exec_next i s
  obtain ⟨hpending, hbusy, hdone⟩ := exec_ends_life hc ht
  obtain ⟨herr, hcode⟩ := exec_error_record ht
  exact ⟨t, ht, hpending, hbusy, hdone, herr, hcode⟩

/-- Settles O28: an abort leaves nothing pending, and a completion leaves the block idle. -/
theorem abortAndCompletionInEitherOrder : Obligations.AbortAndCompletionInEitherOrder := by
  unfold Obligations.AbortAndCompletionInEitherOrder
  intro s n w hbusy h0 h1
  exact ⟨⟨s.abort, perform_abort_of_busy hbusy h0 h1, perform_engine_of_none rfl n, rfl, rfl, rfl, rfl, rfl⟩,
    fun t _ hidle => perform_ctrl_of_idle hidle h0⟩

/-! ### Steps -/

/-- Settles O29: the first step accepts the word, and the second is the engine's turn on its command. -/
theorem stepRunsTheDecodedCommand : Obligations.StepRunsTheDecodedCommand := by
  unfold Obligations.StepRunsTheDecodedCommand
  intro s w i n rest hidle ha hd hc
  have hv : validate w { s with agenda := .engine n :: rest } = .ok i :=
    (validate_ok_iff _ _ _).mpr ⟨hd, (stateCheck_congr rfl rfl i).trans hc⟩
  refine ⟨_, ?_, rfl, ?_⟩
  · rw [step_of_agenda ha]
    exact issueAccepts _ w i hidle hv
  · rw [step_of_agenda (e := .engine n) (rest := rest) rfl]
    exact perform_engine_of_pending rfl n

/-- Where a word that passes its checks is placed. -/
theorem placeCommand_of_ok {s : State} {w : Word} {i : Instr} (h : validate w s = .ok i) :
    s.placeCommand w = { s.accept w i with agenda := .engine Config.loaderChunks :: s.agenda } := by
  simp only [State.placeCommand, h]

/-- Where a word that fails a check is placed. -/
theorem placeCommand_of_error {s : State} {w : Word} {e : ErrorCode} (h : validate w s = .error e) :
    s.placeCommand w = { s with agenda := .write 32 0x14 w :: s.agenda } := by
  simp only [State.placeCommand, h]

theorem decode_of_decodeTableWord {nbits w : Nat} {i : Instr} (h : decodeTableWord nbits w = some i) :
    decode (tableWord nbits w) = .ok i := by
  unfold decodeTableWord at h
  cases hd : decode (tableWord nbits w) with
  | error e => rw [hd] at h; cases h
  | ok j => rw [hd] at h; cases h; rfl

/-- Settles O30: the next event is the engine's turn on the accepted command, or the issue that rejects the word. -/
theorem placedCommandRunsNext : Obligations.PlacedCommandRunsNext := by
  unfold Obligations.PlacedCommandRunsNext
  refine fun s w hidle => ⟨fun i hw hc => ?_, fun e hv => ?_⟩
  · have hv := (validate_ok_iff _ s i).mpr ⟨decode_of_decodeTableWord hw, hc⟩
    rw [State.withFetchWord, placeCommand_of_ok hv, step_of_agenda rfl]
    exact perform_engine_of_pending rfl _
  · rw [State.withFetchWord, placeCommand_of_error hv, step_of_agenda rfl]
    exact issueRejects s _ e hidle hv

end Sys2Proof.Machine
end
